-- ==== Sys2Proof/Word.lean ====
section
/-! DEFINITION. The words of this hardware: the byte on the bus, the transaction word and the decode
word (30_encoding.md R53, R54; bit 0 is the least significant bit, 00_scope.md R9). -/

namespace Sys2Proof

/-- One byte on the 8-bit data bus (00_scope.md R9). -/
abbrev Byte := BitVec 8

/-- The transaction word: WR at bit 10, RD at bit 9, AD0 at bit 8, the data byte below (30_encoding.md R53). -/
abbrev TW := BitVec 11

/-- The decode word: WR at bit 18, RD at bit 17, AD0 at bit 16, the stored opcode at bits 15..8, the data
byte below (30_encoding.md R54). -/
abbrev DW := BitVec 19

/-- The data-bus direction as the engine sees it (10_state.md R13). -/
inductive BusDir where
  | input
  | output
  deriving DecidableEq, Repr

end Sys2Proof
end

