-- ==== Sys2Proof/Syntax.lean ====
section
/-! DEFINITION. The instructions: one constructor per row of spec/opcode_table.json, and the handling
phase each belongs to (10_state.md R16, 30_encoding.md R57). -/

namespace Sys2Proof

/-- The name of a GPIO expander register. The set of names is a parameter (00_scope.md R8, GPIO_WREGS and
GPIO_RREGS); a name is written as a number. -/
abbrev GpioReg := Nat

/-- The five handling phases of a pending transaction (10_state.md R16, 90_conflicts.md C9). -/
inductive Phase where
  | storeOpcode
  | executeWrite
  | executeRead
  | serialRx
  | interrupt
  deriving DecidableEq, Repr

/-- A bus transaction together with the handler its stored opcode selects: one constructor per row of the
opcode table. `d` is the payload byte the Host drives, `r` the expander register the opcode fixes, `o` the
stored opcode of an Execute exchange that finds no handler. -/
inductive Instr where
  | store (d : Byte)
  | serrx
  | intack
  | led (d : Byte)
  | sertx (d : Byte)
  | gpiowr (r : GpioReg) (d : Byte)
  | bank (d : Byte)
  | irqen (d : Byte)
  | tick (d : Byte)
  | spkr (d : Byte)
  | seldsk (d : Byte)
  | seltrk (d : Byte)
  | selsct (d : Byte)
  | wrtsct (d : Byte)
  | gpiord (r : GpioReg)
  | status
  | datetime
  | errdisk
  | rdsect
  | irqstat
  | ewNone (o d : Byte)
  | erNone (o : Byte)
  deriving DecidableEq, Repr

/-- The handling phase of an instruction (10_state.md R16). -/
def Instr.phase : Instr → Phase
  | .store _ => .storeOpcode
  | .serrx => .serialRx
  | .intack => .interrupt
  | .led _ => .executeWrite
  | .sertx _ => .executeWrite
  | .gpiowr _ _ => .executeWrite
  | .bank _ => .executeWrite
  | .irqen _ => .executeWrite
  | .tick _ => .executeWrite
  | .spkr _ => .executeWrite
  | .seldsk _ => .executeWrite
  | .seltrk _ => .executeWrite
  | .selsct _ => .executeWrite
  | .wrtsct _ => .executeWrite
  | .gpiord _ => .executeRead
  | .status => .executeRead
  | .datetime => .executeRead
  | .errdisk => .executeRead
  | .rdsect => .executeRead
  | .irqstat => .executeRead
  | .ewNone _ _ => .executeWrite
  | .erNone _ => .executeRead

/-- The mnemonic of an instruction's row in spec/opcode_table.json. -/
def Instr.mnemonic : Instr → String
  | .store _ => "STORE"
  | .serrx => "SERRX"
  | .intack => "INTACK"
  | .led _ => "LED"
  | .sertx _ => "SERTX"
  | .gpiowr _ _ => "GPIOWR"
  | .bank _ => "BANK"
  | .irqen _ => "IRQEN"
  | .tick _ => "TICK"
  | .spkr _ => "SPKR"
  | .seldsk _ => "SELDSK"
  | .seltrk _ => "SELTRK"
  | .selsct _ => "SELSCT"
  | .wrtsct _ => "WRTSCT"
  | .gpiord _ => "GPIORD"
  | .status => "STATUS"
  | .datetime => "DATETIME"
  | .errdisk => "ERRDISK"
  | .rdsect => "RDSECT"
  | .irqstat => "IRQSTAT"
  | .ewNone _ _ => "EW_NONE"
  | .erNone _ => "ER_NONE"

end Sys2Proof
end

