-- ==== Sys2Proof/Machine/Environment.lean ====
section
/-! DEFINITION. The Environment as plain data: the collaborators' state and their answers to come
(00_scope.md R6, 20_memory.md R35, R41, R42, 60_exceptions.md R117). -/

namespace Sys2Proof.Machine

/-- The answers one collaborator will give, in order. `pending` holds the answers written down; when it is
empty the answer is a free value (Config), drawn at the count `drawn`. -/
structure Feed (α : Type) where
  pending : List α
  drawn : Nat
  deriving DecidableEq, Repr, Inhabited

/-- A code a BlockStore call returns: 0 is success, 1..6 its failures (20_memory.md R35, R41). -/
abbrev StoreCode := Fin 7

/-- The name of a BlockStore file, in ASCII codes (43_disk_control.md R89). -/
abbrev FileName := List Byte

/-- A call of the BlockStore (20_memory.md R36 to R40). -/
inductive StoreRequest where
  | open (name : FileName)
  | seek (block : Nat)
  | read (n : Nat)
  | write (bytes : List Byte)
  | finalize
  deriving DecidableEq, Repr, Inhabited

/-- One answer of the BlockStore oracle (20_memory.md R41). A call uses the code, and of `bytes` and `count` only as much
as it asked for. `cur` and `pos` are what the BlockStore holds after the call where no rule fixes it: both after a failed
open (20_memory.md R36), the position after a failed seek. -/
structure BsAnswer where
  code : StoreCode
  bytes : List Byte
  count : Nat
  cur : Option FileName
  pos : Nat
  deriving DecidableEq, Repr, Inhabited

/-- A call the oracle's BlockStore has answered: the open file and the position it found, the request and the answer. -/
structure StoreCall where
  cur : Option FileName
  pos : Nat
  request : StoreRequest
  answer : BsAnswer
  deriving DecidableEq, Repr, Inhabited

/-- The BlockStore of the normative model (20_memory.md R35, R41): its answers to come, the open file, the position, and
every call answered so far, oldest first. What its files hold is what they held at entry, which is the Environment's,
and what the calls have stored. -/
structure OracleStore where
  answers : Feed BsAnswer
  cur : Option FileName
  pos : Nat
  calls : List StoreCall
  deriving DecidableEq, Repr, Inhabited

/-- The bytes of one disk image: the memory of this hardware (20_memory.md R32). Addresses rise strictly,
and no entry holds what an unlisted address reads as. -/
abbrev Memory := List Host.Cell

/-- One file of the reference BlockStore: its name, its length and its bytes (20_memory.md R42). -/
structure DiskFile where
  name : FileName
  length : Nat
  image : Memory
  deriving DecidableEq, Repr, Inhabited

/-- The state of the reference BlockStore, with its two failure codes: `cNoFile` and `cNotOpen` stand for
the codes 1..6 (20_memory.md R42). -/
structure RefStore where
  files : List DiskFile
  cur : Option FileName
  pos : Nat
  cNoFile : Fin 6
  cNotOpen : Fin 6
  deriving DecidableEq, Repr, Inhabited

/-- The BlockStore: answered by the oracle of the normative model (20_memory.md R41), or by the reference
BlockStore (20_memory.md R42). -/
inductive BlockStore where
  | oracle (store : OracleStore)
  | reference (disk : RefStore)
  deriving DecidableEq, Repr, Inhabited

/-- The seven fields the RTCClock exposes, as numbers (45_datetime_status_irq.md R101). -/
structure Rtc where
  seconds : Nat
  minutes : Nat
  hours : Nat
  day : Nat
  month : Nat
  year : Nat
  temperature : Nat
  deriving DecidableEq, Repr, Inhabited

/-- What the collaborators with no answer have received, oldest first: the LED's, the speaker's and the serial
output's bytes, and the expander's register writes (10_state.md R27, 42_single_exchange.md R80 to R82, R87). Their
present state is a function of it; what the bytes mean is out of scope (00_scope.md R5 (e)). -/
structure Devices where
  led : List Byte
  spkr : List Byte
  serialOut : List Byte
  gpio : List (GpioReg × Byte)
  deriving DecidableEq, Repr, Inhabited

/-- What Settings holds beside the disk set, which is a parameter (00_scope.md R8, 60_exceptions.md R117). No step
changes it. -/
structure Settings where
  clockSpeed : Nat
  bootMode : Nat
  deriving DecidableEq, Repr, Inhabited

/-- Whether the collaborators' calls return: always; for `n` more calls, the one after them never; or one
has not returned and the engine is stuck (60_exceptions.md R116, 93_implementation_defined.md I17). -/
inductive Liveness where
  | returns
  | stallsAfter (n : Nat)
  | stalled
  deriving DecidableEq, Repr, Inhabited

/-- The Environment (00_scope.md R6, 60_exceptions.md R117). `moment` counts loop passes, so that what the
collaborators show may differ from one pass to the next. -/
structure Env where
  liveness : Liveness
  devices : Devices
  settings : Settings
  bs : BlockStore
  rtc : Rtc
  rtcIn : Feed Rtc
  serialIn : Feed (Option Byte)
  gpioIn : Feed Byte
  irqBits : Feed Byte
  clock : Nat
  timeIn : Feed Nat
  moment : Nat
  deriving DecidableEq, Repr, Inhabited

/-- The collaborators' present state as STATUS_FN sees it (45_datetime_status_irq.md R102): the Environment, the
levels (l1, l0) of the two bank lines, whether the expander is present, and the disk set Settings gives. -/
structure Collaborators where
  env : Env
  bankLines : Bool × Bool
  gpioPresent : Bool
  diskSet : Fin 6
  deriving DecidableEq, Repr, Inhabited

end Sys2Proof.Machine
end

