-- ==== Sys2Proof/Config.lean ====
section
/-! DEFINITION. What an implementation fixes (the parameters of 00_scope.md R8, as plain data) and the free
values, opaque constants with no body. -/

namespace Sys2Proof

/-- The opcode bytes: every one is a parameter (00_scope.md R8, 30_encoding.md R56). `gpioWr` and `gpioRd`
give the opcode of each register of GPIO_WREGS and GPIO_RREGS. -/
structure OpcodeMap where
  led : Byte
  sertx : Byte
  bank : Byte
  irqen : Byte
  tick : Byte
  spkr : Byte
  seldsk : Byte
  seltrk : Byte
  selsct : Byte
  wrtsct : Byte
  status : Byte
  datetime : Byte
  errdisk : Byte
  rdsect : Byte
  irqstat : Byte
  nop : Byte
  gpioWr : List (GpioReg × Byte)
  gpioRd : List (GpioReg × Byte)
  deriving DecidableEq, Repr

/-- BANK_LINES: the levels (l1, l0) of the two bank lines for each bank (00_scope.md R8). -/
structure BankLines where
  bank0 : Bool × Bool
  bank1 : Bool × Bool
  bank2 : Bool × Bool
  deriving DecidableEq, Repr

/-- The parameters of 00_scope.md R8 that a rule reads while the engine runs. -/
structure Params where
  op : OpcodeMap
  gpioPresent : Bool
  bankLines : BankLines
  diskSet : Fin 6
  deriving DecidableEq, Repr

/-- The write-direction keys (30_encoding.md R56 (a)). -/
def OpcodeMap.writeKeys (o : OpcodeMap) : List Byte :=
  [o.led, o.sertx] ++ o.gpioWr.map Prod.snd ++
    [o.bank, o.irqen, o.tick, o.spkr, o.seldsk, o.seltrk, o.selsct, o.wrtsct]

/-- The read-direction keys (30_encoding.md R56 (a)). -/
def OpcodeMap.readKeys (o : OpcodeMap) : List Byte :=
  o.gpioRd.map Prod.snd ++ [o.status, o.datetime, o.errdisk, o.rdsect, o.irqstat]

/-- The constraints of 30_encoding.md R56: all keys of both directions are pairwise distinct and OPC_NOP is
none of them. GPIO_WREGS and GPIO_RREGS are sets, so no register stands twice in either. -/
abbrev Params.Wf (p : Params) : Prop :=
  (p.op.writeKeys ++ p.op.readKeys).Nodup ∧ p.op.nop ∉ p.op.writeKeys ++ p.op.readKeys ∧
    (p.op.gpioWr.map Prod.fst).Nodup ∧ (p.op.gpioRd.map Prod.fst).Nodup

/-- Free value: what the BlockStore oracle, as it stands, answers to a call beyond the answers written down
(20_memory.md R41, I1). -/
opaque Config.bsAnswer : Machine.OracleStore → Machine.StoreRequest → Machine.BsAnswer

/-- Free value: the RTC fields a refresh gives (45_datetime_status_irq.md R101, I14). -/
opaque Config.rtcFields : Nat → Machine.Rtc

/-- Free value: what a serial poll finds, a byte or none (40_bus_engine.md R67, I15). -/
opaque Config.serialPoll : Nat → Option Byte

/-- Free value: the byte a GPIO register read gives (42_single_exchange.md R83, I19). -/
opaque Config.gpioByte : Nat → Byte

/-- Free value: the draw x for IRQSTAT's bits 0 and 2..7 (45_datetime_status_irq.md R103, I9). -/
opaque Config.irqDraw : Nat → Byte

/-- Free value: by how much time has moved on at a call of now() (60_exceptions.md R109, I23). -/
opaque Config.timeStep : Nat → Nat

/-- STATUS_FN: the system status byte as a function of the collaborators' present state
(45_datetime_status_irq.md R102, I18). -/
opaque Config.statusFn : Machine.Collaborators → Byte

end Sys2Proof
end

