-- ==== Sys2Proof/Machine/Board.lean ====
section
/-! DEFINITION. The constants the document fixes (00_scope.md R7) and the values State.reset names for the
parameters it leaves open (log 2). -/

namespace Sys2Proof.Machine.Board

/-- MAX_TRACKS: track numbers are 0..511 (00_scope.md R7). -/
abbrev maxTracks : Nat := 512

/-- MAX_SECTORS: sector numbers are 0..31 (00_scope.md R7). -/
abbrev maxSectors : Nat := 32

/-- SECTOR_BYTES: bytes in a logical sector (00_scope.md R7). -/
abbrev sectorBytes : Nat := 512

/-- CHUNK: bytes moved by one BlockStore read or write (00_scope.md R7, 90_conflicts.md C2). -/
abbrev chunk : Nat := 32

/-- MAX_DISK: disk numbers are 0..99 (00_scope.md R7). -/
abbrev maxDisk : Nat := 99

/-- TICK_DEFAULT: the tick interval at entry (00_scope.md R7). -/
def tickDefault : Byte := 100

/-- DATETIME_LEN: bytes in a DATETIME sequence (00_scope.md R7). -/
abbrev datetimeLen : Nat := 7

/-- SERIAL_NONE: the result of a serial receive that finds nothing (00_scope.md R7). -/
def serialNone : Byte := 0xFF

/-- IRQEN_TICK_MASK: the IRQEN payload bit that enables the tick (00_scope.md R8, D12). -/
def irqenTickMask : Byte := 0x02

/-- The opcode bytes State.reset names. PRESUMED: the related IOS firmware's values
(93_implementation_defined.md I2); the speaker's byte is a DESIGN CHOICE (log 2). No statement rests on them. -/
def opcodes : OpcodeMap where
  led := 0x00
  sertx := 0x01
  bank := 0x0D
  irqen := 0x0E
  tick := 0x0F
  spkr := 0x02
  seldsk := 0x09
  seltrk := 0x0A
  selsct := 0x0B
  wrtsct := 0x0C
  status := 0x83
  datetime := 0x84
  errdisk := 0x85
  rdsect := 0x86
  irqstat := 0x89
  nop := 0xFF
  gpioWr := [(0x12, 0x03), (0x13, 0x04), (0x00, 0x05), (0x01, 0x06), (0x0C, 0x07), (0x0D, 0x08)]
  gpioRd := [(0x12, 0x81), (0x13, 0x82)]

/-- The parameters State.reset names (log 2). The bank lines are PRESUMED, the rest a DESIGN CHOICE. -/
def params : Params where
  op := opcodes
  gpioPresent := true
  bankLines := { bank0 := (false, true), bank1 := (true, true), bank2 := (true, false) }
  diskSet := 0

/-- ERR0 as State.reset names it. PRESUMED: the related firmware's initial value (I6, log 3). -/
def err0 : Byte := 19

/-- TRK0 as State.reset names it. PRESUMED: the related firmware leaves its globals 0 (log 3). -/
def trk0 : BitVec 16 := 0

/-- SEC0 as State.reset names it. PRESUMED: the related firmware leaves its globals 0 (log 3). -/
def sec0 : Byte := 0

/-- BANK0 as State.reset names it. PRESUMED: the related firmware starts with bank 0 (log 3). -/
def bank0 : Fin 3 := 0

end Sys2Proof.Machine.Board
end

