-- ==== Sys2Proof/WellFormed.lean ====
section
/-! DEFINITION. When an instruction is well formed for given parameters: its register is one of the
expander's, and a no-handler form carries an opcode without a handler (30_encoding.md R54, R56, R58). -/

namespace Sys2Proof

/-- Well-formedness of an instruction under the parameters `p`. Every byte is a legal payload and a legal
opcode to store (30_encoding.md R58), so only the register names and the no-handler opcodes are checked. -/
abbrev Instr.Wf (p : Params) : Instr → Prop
  | .gpiowr r _ => r ∈ p.op.gpioWr.map Prod.fst
  | .gpiord r => r ∈ p.op.gpioRd.map Prod.fst
  | .ewNone o _ => o ∉ p.op.writeKeys
  | .erNone o => o ∉ p.op.readKeys
  | .store _ => True
  | .serrx => True
  | .intack => True
  | .led _ => True
  | .sertx _ => True
  | .bank _ => True
  | .irqen _ => True
  | .tick _ => True
  | .spkr _ => True
  | .seldsk _ => True
  | .seltrk _ => True
  | .selsct _ => True
  | .wrtsct _ => True
  | .status => True
  | .datetime => True
  | .errdisk => True
  | .rdsect => True
  | .irqstat => True

end Sys2Proof
end

