-- ==== Sys2Proof/Decode.lean ====
section
/-! DEFINITION. Decoding a transaction and the encoder: the precedence of the lines (40_bus_engine.md R64),
the two dispatch tables keyed by the stored opcode (41_dispatcher.md R74, R75), and the opcode table as rows
of mask and match (30_encoding.md R54). Every decode word has a meaning (30_encoding.md R58), so decoding a
decode word refuses nothing; only a word wider than 19 bits is refused. -/

namespace Sys2Proof

/-- The decode word with the given fields (30_encoding.md R54). -/
def packDW (wr rd a : Bool) (opc d : Byte) : DW :=
  ((BitVec.ofBool wr).setWidth 19 <<< 18) ||| ((BitVec.ofBool rd).setWidth 19 <<< 17) |||
    ((BitVec.ofBool a).setWidth 19 <<< 16) ||| (opc.setWidth 19 <<< 8) ||| d.setWidth 19

/-- The stored-opcode field of a decode word (30_encoding.md R54). -/
def opcField (w : DW) : Byte := w.extractLsb' 8 8

/-- The data field of a decode word (30_encoding.md R54). -/
def dataField (w : DW) : Byte := w.extractLsb' 0 8

/-- The precedence chain: WR first, then RD, then neither (40_bus_engine.md R64, 20_memory.md R34). -/
def phaseOf (wr rd a : Bool) : Phase :=
  if wr then (if a then .storeOpcode else .executeWrite)
  else if rd then (if a then .serialRx else .executeRead)
  else .interrupt

/-- The opcode of the register `r` in one of the expander's tables (30_encoding.md R56). -/
def gpioOpcodeOf (table : List (GpioReg × Byte)) (r : GpioReg) : Option Byte :=
  (table.find? (fun e => e.1 == r)).map Prod.snd

/-- The entry of a dispatch table keyed by the opcode byte `o` (41_dispatcher.md R74). -/
def dispatchEntry {α : Type} (table : List (Byte × α)) (o : Byte) : Option α :=
  (table.find? (fun e => e.1 == o)).map Prod.snd

/-- WRITE_DISPATCH: the handlers of the write direction by key (41_dispatcher.md R74). -/
def writeTable (m : OpcodeMap) : List (Byte × (Byte → Instr)) :=
  [(m.led, .led), (m.sertx, .sertx)] ++ m.gpioWr.map (fun e => (e.2, .gpiowr e.1)) ++
    [(m.bank, .bank), (m.irqen, .irqen), (m.tick, .tick), (m.spkr, .spkr), (m.seldsk, .seldsk),
     (m.seltrk, .seltrk), (m.selsct, .selsct), (m.wrtsct, .wrtsct)]

/-- READ_DISPATCH: the handlers of the read direction by key (41_dispatcher.md R74). -/
def readTable (m : OpcodeMap) : List (Byte × Instr) :=
  m.gpioRd.map (fun e => (e.2, .gpiord e.1)) ++
    [(m.status, .status), (m.datetime, .datetime), (m.errdisk, .errdisk), (m.rdsect, .rdsect),
     (m.irqstat, .irqstat)]

/-- An Execute-Write of the payload `d` with the stored opcode `o`: the handler of that key, or none
(41_dispatcher.md R74, R75). -/
def decodeWrite (p : Params) (o d : Byte) : Instr :=
  match dispatchEntry (writeTable p.op) o with
  | some h => h d
  | none => .ewNone o d

/-- An Execute-Read with the stored opcode `o`: the handler of that key, or none (41_dispatcher.md R74, R75). -/
def decodeRead (p : Params) (o : Byte) : Instr := (dispatchEntry (readTable p.op) o).getD (.erNone o)

/-- The instruction a decode word stands for under the parameters `p`. The data field is read only when WR is
asserted (30_encoding.md R53). -/
def decodeWord (p : Params) (w : DW) : Instr :=
  match phaseOf (w.getLsbD 18) (w.getLsbD 17) (w.getLsbD 16) with
  | .storeOpcode => .store (dataField w)
  | .executeWrite => decodeWrite p (opcField w) (dataField w)
  | .executeRead => decodeRead p (opcField w)
  | .serialRx => .serrx
  | .interrupt => .intack

/-- An Execute-Write's decode word, RD deasserted (30_encoding.md R54, R57). -/
def executeWriteWord (o d : Byte) : DW := packDW true false false o d

/-- An Execute-Read's decode word; the data field is written as 0 (30_encoding.md R53, R57). -/
def executeReadWord (o : Byte) : DW := packDW false true false o 0

/-- The decode word of an instruction under the parameters `p`. Fields the instruction ignores are written
as 0; a register the expander lacks is written with OPC_NOP (30_encoding.md R54, R57). -/
def encode (p : Params) : Instr → DW
  | .store d => packDW true false true 0 d
  | .serrx => packDW false true true 0 0
  | .intack => packDW false false false 0 0
  | .led d => executeWriteWord p.op.led d
  | .sertx d => executeWriteWord p.op.sertx d
  | .gpiowr r d => executeWriteWord ((gpioOpcodeOf p.op.gpioWr r).getD p.op.nop) d
  | .bank d => executeWriteWord p.op.bank d
  | .irqen d => executeWriteWord p.op.irqen d
  | .tick d => executeWriteWord p.op.tick d
  | .spkr d => executeWriteWord p.op.spkr d
  | .seldsk d => executeWriteWord p.op.seldsk d
  | .seltrk d => executeWriteWord p.op.seltrk d
  | .selsct d => executeWriteWord p.op.selsct d
  | .wrtsct d => executeWriteWord p.op.wrtsct d
  | .gpiord r => executeReadWord ((gpioOpcodeOf p.op.gpioRd r).getD p.op.nop)
  | .status => executeReadWord p.op.status
  | .datetime => executeReadWord p.op.datetime
  | .errdisk => executeReadWord p.op.errdisk
  | .rdsect => executeReadWord p.op.rdsect
  | .irqstat => executeReadWord p.op.irqstat
  | .ewNone o d => executeWriteWord o d
  | .erNone o => executeReadWord o

/-- One row of the opcode table: it selects its rule when the masked decode word equals `pattern`
(30_encoding.md R54). -/
structure OpcodeRow where
  mnemonic : String
  mask : DW
  pattern : DW
  deriving DecidableEq, Repr

/-- Whether a row matches a decode word (30_encoding.md R54). -/
def rowMatches (w : DW) (r : OpcodeRow) : Bool := w &&& r.mask == r.pattern

/-- A write-direction row: mask 0x5FF00, match 0x40000 + (opcode << 8) (opcode_table.json). -/
def writeRow (name : String) (o : Byte) : OpcodeRow :=
  { mnemonic := name, mask := 0x5FF00, pattern := 0x40000 + (o.setWidth 19 <<< 8) }

/-- A read-direction row: mask 0x7FF00, match 0x20000 + (opcode << 8) (opcode_table.json). -/
def readRow (name : String) (o : Byte) : OpcodeRow :=
  { mnemonic := name, mask := 0x7FF00, pattern := 0x20000 + (o.setWidth 19 <<< 8) }

/-- The rows of opcode_table.json but for the two no-handler rows, one row per expander register. -/
def handlerRows (p : Params) : List OpcodeRow :=
  [{ mnemonic := "STORE", mask := 0x50000, pattern := 0x50000 },
   { mnemonic := "SERRX", mask := 0x70000, pattern := 0x30000 },
   { mnemonic := "INTACK", mask := 0x60000, pattern := 0x00000 },
   writeRow "LED" p.op.led, writeRow "SERTX" p.op.sertx] ++
  p.op.gpioWr.map (fun e => writeRow "GPIOWR" e.2) ++
  [writeRow "BANK" p.op.bank, writeRow "IRQEN" p.op.irqen, writeRow "TICK" p.op.tick,
   writeRow "SPKR" p.op.spkr, writeRow "SELDSK" p.op.seldsk, writeRow "SELTRK" p.op.seltrk,
   writeRow "SELSCT" p.op.selsct, writeRow "WRTSCT" p.op.wrtsct] ++
  p.op.gpioRd.map (fun e => readRow "GPIORD" e.2) ++
  [readRow "STATUS" p.op.status, readRow "DATETIME" p.op.datetime, readRow "ERRDISK" p.op.errdisk,
   readRow "RDSECT" p.op.rdsect, readRow "IRQSTAT" p.op.irqstat]

/-- The two no-handler rows, of lowest priority (opcode_table.json, 41_dispatcher.md R75). -/
def defaultRows : List OpcodeRow :=
  [{ mnemonic := "EW_NONE", mask := 0x50000, pattern := 0x40000 },
   { mnemonic := "ER_NONE", mask := 0x70000, pattern := 0x20000 }]

/-- What the opcode table selects for a decode word: the first row that matches (30_encoding.md R54). -/
def selectRow (p : Params) (w : DW) : Option OpcodeRow :=
  (handlerRows p ++ defaultRows).find? (rowMatches w)

/-- The instruction the decoder reads from a decode word given as a number, under the parameters State.reset
names; a word with a bit at 19 or above is refused. -/
def decodeTableWord (nbits w : Nat) : Option Instr :=
  if w % 2 ^ nbits < 2 ^ 19 then
    some (decodeWord Machine.Board.params (BitVec.ofNat 19 (w % 2 ^ nbits)))
  else none

end Sys2Proof
end

