-- ==== Sys2Proof/Machine/State.lean ====
section
/-! DEFINITION. The state of the machine, its stops, and its entry (10_state.md R13, R28, 40_bus_engine.md
R61, 60_exceptions.md R116 to R118, 70_reset_and_hazards.md R119, R120). -/

namespace Sys2Proof.Machine

/-- The events of the trace (40_bus_engine.md R61). A storage event carries the answer of the call, `none` while the
call has not returned (60_exceptions.md R116, log 8). -/
inductive Event where
  | busVal (v : Byte)
  | busDir (d : BusDir)
  | busReq (level : Bool)
  | waitReset
  | hold
  | int (level : Bool)
  | bank (l1 l0 : Bool)
  | led (d : Byte)
  | spkr (d : Byte)
  | serTx (d : Byte)
  | gpioWr (r : GpioReg) (d : Byte)
  | gpioRd (r : GpioReg)
  | rtcRefresh
  | bsOpen (name : FileName) (answer : Option StoreCode)
  | bsSeek (block : Nat) (answer : Option StoreCode)
  | bsRead (n : Nat) (answer : Option (StoreCode × List Byte))
  | bsWrite (bytes : List Byte) (answer : Option (StoreCode × Nat))
  | bsFinalize (answer : Option StoreCode)
  deriving DecidableEq, Repr

/-- What the Host does before a loop pass when it is not parked: nothing, or start the transaction whose
lines and data byte are `tw` (60_exceptions.md R118, 30_encoding.md R60). -/
inductive HostMove where
  | idle
  | start (tw : TW)
  deriving DecidableEq, Repr

/-- The input lines and the data byte the Host drives, true for asserted (10_state.md R28). -/
structure Lines where
  wait : Bool
  wr : Bool
  rd : Bool
  ad0 : Bool
  data : Byte
  deriving DecidableEq, Repr

/-- The machine: the engine's record (10_state.md R13), the input lines (R28), the event trace
(40_bus_engine.md R61), the Host's moves to come (60_exceptions.md R118), the Environment (R117) and the
parameters (00_scope.md R8), which no step changes. -/
structure State where
  opc : Byte
  cnt : BitVec 16
  err : Byte
  trk : BitVec 16
  sec : Byte
  dsk : Byte
  buf : Vector Byte 512
  irqTick : Bool
  tickEn : Bool
  tickIv : Byte
  lastTick : Nat
  bank : Fin 3
  intOut : Bool
  busReq : Bool
  busDir : BusDir
  busOut : Byte
  lines : Lines
  trace : List Event
  host : List HostMove
  env : Env
  cfg : Params
  deriving DecidableEq, Repr

/-- The faults: none. The engine raises no exception, fault or trap (00_scope.md R12, 60_exceptions.md R104), and a
collaborator call that never returns is no fault but a state of its own, `Liveness.stalled`, in which the engine makes
no further step and everything survives (60_exceptions.md R116, 93_implementation_defined.md I17). Nobody raises
one. Safe. -/
inductive Fault where
  deriving DecidableEq, Repr

/-- The refusals. -/
inductive Refusal where
  /-- Raised by an arm of exec whose instruction has no meaning yet; no arm raises it. Safe. -/
  | notModelled (mnemonic : String)
  deriving DecidableEq, Repr

/-- What the boot path leaves open at entry: the parameters of 00_scope.md R8, the unspecified fields of
70_reset_and_hazards.md R120, the Environment (R119 (d) to (f)) and the Host's moves to come. -/
structure Entry where
  cfg : Params
  err0 : Byte
  trk0 : BitVec 16
  sec0 : Byte
  bank0 : Fin 3
  dsk0 : Byte
  buf0 : Vector Byte 512
  busOut0 : Byte
  lines0 : Lines
  env : Env
  host : List HostMove
  deriving DecidableEq, Repr

/-- The state at entry to the poll loop, for any values of what is left open (70_reset_and_hazards.md R119):
WAIT is deasserted, the time is `lastTick`, and nothing has been emitted. -/
def State.entry (e : Entry) : State where
  opc := e.cfg.op.nop
  cnt := 0
  err := e.err0
  trk := e.trk0
  sec := e.sec0
  dsk := e.dsk0
  buf := e.buf0
  irqTick := false
  tickEn := false
  tickIv := Board.tickDefault
  lastTick := e.env.clock
  bank := e.bank0
  intOut := false
  busReq := false
  busDir := .input
  busOut := e.busOut0
  lines := { e.lines0 with wait := false }
  trace := []
  host := e.host
  env := e.env
  cfg := e.cfg

/-- The Environment State.reset names (log 4, log 5, log 6, log 8, log 9, log 10, log 15): every answer is a free value. -/
def Env.reset : Env where
  liveness := .returns
  devices := { led := [], spkr := [], serialOut := [], gpio := [] }
  settings := { clockSpeed := 0, bootMode := 0 }
  bs := .oracle { answers := { pending := [], drawn := 0 }, cur := none, pos := 0, calls := [] }
  rtc := { seconds := 0, minutes := 0, hours := 0, day := 0, month := 0, year := 0, temperature := 0 }
  rtcIn := { pending := [], drawn := 0 }
  serialIn := { pending := [], drawn := 0 }
  gpioIn := { pending := [], drawn := 0 }
  irqBits := { pending := [], drawn := 0 }
  clock := 0
  timeIn := { pending := [], drawn := 0 }
  moment := 0

/-- The values State.reset names for what 70_reset_and_hazards.md R120 leaves open (log 2, log 3). -/
def Entry.reset : Entry where
  cfg := Board.params
  err0 := Board.err0
  trk0 := Board.trk0
  sec0 := Board.sec0
  bank0 := Board.bank0
  dsk0 := 0
  buf0 := Vector.replicate 512 0
  busOut0 := 0
  lines0 := { wait := false, wr := false, rd := false, ad0 := false, data := 0 }
  env := Env.reset
  host := []

/-- The machine at entry (70_reset_and_hazards.md R119), with the values the log names for what is left open. -/
def State.reset : State := State.entry Entry.reset

end Sys2Proof.Machine
end

