-- ==== Sys2Proof/Machine/Storage.lean ====
section
/-! DEFINITION. The collaborators' answers: drawing from a feed, the BlockStore calls of the oracle
(20_memory.md R36 to R41) and of the reference BlockStore (R42), and the RTC's fields
(45_datetime_status_irq.md R101). -/

namespace Sys2Proof.Machine

/-- The next answer of a feed: the first one written down, or the free value at this draw. -/
def Feed.next {α : Type} (free : Nat → α) (f : Feed α) : α × Feed α :=
  match f.pending with
  | a :: rest => (a, { pending := rest, drawn := f.drawn + 1 })
  | [] => (free f.drawn, { pending := [], drawn := f.drawn + 1 })

/-- One more collaborator call is made (60_exceptions.md R116, I17). -/
def Liveness.afterCall : Liveness → Liveness
  | .returns => .returns
  | .stallsAfter 0 => .stalled
  | .stallsAfter (n + 1) => .stallsAfter n
  | .stalled => .stalled

/-- The file of that name in the reference BlockStore. -/
def RefStore.file (r : RefStore) (name : FileName) : Option DiskFile :=
  r.files.find? (fun f => f.name == name)

/-- The current file of the reference BlockStore. -/
def RefStore.curFile (r : RefStore) : Option DiskFile := r.cur.bind r.file

/-- L, the length of the current file (20_memory.md R42). -/
def RefStore.curLength (r : RefStore) : Nat := (r.curFile.map DiskFile.length).getD 0

/-- The bytes of the current file (20_memory.md R42). -/
def RefStore.curImage (r : RefStore) : Memory := (r.curFile.map DiskFile.image).getD []

/-- The files with the bytes of the file of that name replaced. -/
def RefStore.setImage (r : RefStore) (name : FileName) (m : Memory) : List DiskFile :=
  r.files.map (fun f => if f.name == name then { f with image := m } else f)

/-- The code of a failure 1..6 (20_memory.md R42). -/
def failureCode (c : Fin 6) : StoreCode := c.succ

/-- BS.open of the reference BlockStore (20_memory.md R42). -/
def RefStore.open (r : RefStore) (name : FileName) : StoreCode × RefStore :=
  if (r.file name).isSome then (0, { r with cur := some name, pos := 0 })
  else (failureCode r.cNoFile, { r with cur := none })

/-- BS.seek of the reference BlockStore (20_memory.md R42). -/
def RefStore.seek (r : RefStore) (block : Nat) : StoreCode × RefStore :=
  match r.cur with
  | none => (failureCode r.cNotOpen, r)
  | some _ => (0, { r with pos := min (block * 512) r.curLength })

/-- BS.read of the reference BlockStore (20_memory.md R42). -/
def RefStore.read (r : RefStore) (n : Nat) : (StoreCode × List Byte) × RefStore :=
  match r.cur with
  | none => ((failureCode r.cNotOpen, []), r)
  | some _ =>
    let k := min n (r.curLength - r.pos)
    ((0, Memory.readBytes r.curImage r.pos k), { r with pos := r.pos + k })

/-- BS.write of the reference BlockStore: a file never grows (20_memory.md R42). -/
def RefStore.write (r : RefStore) (bytes : List Byte) : (StoreCode × Nat) × RefStore :=
  match r.cur with
  | none => ((failureCode r.cNotOpen, 0), r)
  | some name =>
    let k := min bytes.length (r.curLength - r.pos)
    ((0, k),
      { r with
        files := r.setImage name (Memory.writeBytes r.curImage r.pos (bytes.take k))
        pos := r.pos + k })

/-- BS.finalize of the reference BlockStore (20_memory.md R42). -/
def RefStore.finalize (r : RefStore) : StoreCode :=
  match r.cur with
  | none => failureCode r.cNotOpen
  | some _ => 0

/-- An answer cut to what the call asked for (20_memory.md R41, log 12). -/
def StoreRequest.bound (q : StoreRequest) (a : BsAnswer) : BsAnswer :=
  match q with
  | .read n => { a with bytes := a.bytes.take n }
  | .write bytes => { a with count := min a.count bytes.length }
  | .open _ => a
  | .seek _ => a
  | .finalize => a

/-- The file a call leaves open, when it is answered `a` and found `cur` open (20_memory.md R36). -/
def StoreRequest.curAfter (q : StoreRequest) (a : BsAnswer) (cur : Option FileName) : Option FileName :=
  match q with
  | .open name => if a.code = 0 then some name else a.cur
  | .seek _ => cur
  | .read _ => cur
  | .write _ => cur
  | .finalize => cur

/-- The position a call leaves, when it is answered `a` and found the position `pos` (20_memory.md R37 to R40); an open
resets it (43_disk_control.md R90). -/
def StoreRequest.posAfter (q : StoreRequest) (a : BsAnswer) (pos : Nat) : Nat :=
  match q with
  | .open _ => if a.code = 0 then 0 else a.pos
  | .seek block => if a.code = 0 then block * 512 else a.pos
  | .read _ => pos + a.bytes.length
  | .write _ => pos + a.count
  | .finalize => pos

/-- The oracle's answer to a call (20_memory.md R41). -/
def OracleStore.answer (o : OracleStore) (q : StoreRequest) : BsAnswer :=
  q.bound (o.answers.next fun _ => Config.bsAnswer o q).1

/-- The oracle's BlockStore after a call (20_memory.md R35 to R41). -/
def OracleStore.after (o : OracleStore) (q : StoreRequest) : OracleStore where
  answers := (o.answers.next fun _ => Config.bsAnswer o q).2
  cur := q.curAfter (o.answer q) o.cur
  pos := q.posAfter (o.answer q) o.pos
  calls := o.calls ++ [{ cur := o.cur, pos := o.pos, request := q, answer := o.answer q }]

/-- BS.open(name) -> code (20_memory.md R36). -/
def BlockStore.open (b : BlockStore) (name : FileName) : StoreCode × BlockStore :=
  match b with
  | .oracle o => ((o.answer (.open name)).code, .oracle (o.after (.open name)))
  | .reference r => ((r.open name).1, .reference (r.open name).2)

/-- BS.seek(block) -> code (20_memory.md R37). -/
def BlockStore.seek (b : BlockStore) (block : Nat) : StoreCode × BlockStore :=
  match b with
  | .oracle o => ((o.answer (.seek block)).code, .oracle (o.after (.seek block)))
  | .reference r => ((r.seek block).1, .reference (r.seek block).2)

/-- BS.read(n) -> (code, bytes), at most `n` bytes (20_memory.md R38, R41). -/
def BlockStore.read (b : BlockStore) (n : Nat) : (StoreCode × List Byte) × BlockStore :=
  match b with
  | .oracle o =>
    (((o.answer (.read n)).code, (o.answer (.read n)).bytes), .oracle (o.after (.read n)))
  | .reference r => ((r.read n).1, .reference (r.read n).2)

/-- BS.write(bytes) -> (code, count), a count of at most the bytes sent (20_memory.md R39, R41). -/
def BlockStore.write (b : BlockStore) (bytes : List Byte) : (StoreCode × Nat) × BlockStore :=
  match b with
  | .oracle o =>
    (((o.answer (.write bytes)).code, (o.answer (.write bytes)).count), .oracle (o.after (.write bytes)))
  | .reference r => ((r.write bytes).1, .reference (r.write bytes).2)

/-- BS.finalize() -> code (20_memory.md R40). -/
def BlockStore.finalize (b : BlockStore) : StoreCode × BlockStore :=
  match b with
  | .oracle o => ((o.answer .finalize).code, .oracle (o.after .finalize))
  | .reference r => (r.finalize, .reference r)

/-- One byte of a file as the reference BlockStore holds it; `none` where there is no such byte, and in the
oracle's BlockStore, the bytes of whose files no rule fixes (20_memory.md R41, R42). -/
def BlockStore.fileByte (b : BlockStore) (name : FileName) (a : Nat) : Option Byte :=
  match b with
  | .oracle _ => none
  | .reference r =>
    match r.file name with
    | none => none
    | some f => if a < f.length then some (Memory.read f.image a) else none

/-- RTC.field(i): 0 seconds, 1 minutes, 2 hours, 3 day, 4 month, 5 year, 6 temperature
(45_datetime_status_irq.md R101). -/
def Rtc.field (r : Rtc) : Nat → Nat
  | 0 => r.seconds
  | 1 => r.minutes
  | 2 => r.hours
  | 3 => r.day
  | 4 => r.month
  | 5 => r.year
  | _ => r.temperature

end Sys2Proof.Machine
end

