-- ==== Sys2Proof/Machine/Operands.lean ====
section
/-! DEFINITION. How operands are formed: the sampled words, the track, the block, the file name, the bank,
the chunk position and the sector buffer (30_encoding.md R55, 20_memory.md R47, 43_disk_control.md R89). -/

namespace Sys2Proof.Machine

/-- The lines a transaction word asserts, with WAIT asserted (30_encoding.md R53). -/
def linesOf (tw : TW) : Lines where
  wait := true
  wr := tw.getLsbD 10
  rd := tw.getLsbD 9
  ad0 := tw.getLsbD 8
  data := tw.extractLsb' 0 8

/-- The decode word of the transaction on the lines: the lines and the stored opcode are sampled once, at the
start of handling (30_encoding.md R54, 40_bus_engine.md R63). -/
def sampleWord (s : State) : DW := packDW s.lines.wr s.lines.rd s.lines.ad0 s.opc s.lines.data

/-- The track after SELTRK's first byte: the byte zero-extended (43_disk_control.md R91). -/
def trackLow (d : Byte) : BitVec 16 := d.setWidth 16

/-- The track after SELTRK's second byte: the byte above the low byte held (43_disk_control.md R91). -/
def trackHigh (d : Byte) (trk : BitVec 16) : BitVec 16 := (d.setWidth 16 <<< 8) ||| (trk &&& 0xFF)

/-- The logical block (trk << 5) | sec (20_memory.md R47). -/
def blockIndex (trk : BitVec 16) (sec : Byte) : Nat := (trk.toNat <<< 5) ||| sec.toNat

/-- Whether the disk address is in range (20_memory.md R47). -/
def addressLegal (trk : BitVec 16) (sec : Byte) : Bool :=
  decide (trk.toNat < Board.maxTracks) && decide (sec.toNat < Board.maxSectors)

/-- The ASCII code of a decimal digit (43_disk_control.md R89). -/
def asciiDigit (k : Nat) : Byte := BitVec.ofNat 8 (0x30 + k)

/-- The six characters D, S, the disk set, N, and the disk number in two digits (43_disk_control.md R89). -/
def diskName (ds : Fin 6) (n : Byte) : FileName :=
  [0x44, 0x53, asciiDigit ds.val, 0x4E, asciiDigit (n.toNat / 10), asciiDigit (n.toNat % 10)]

/-- The bank a BANK payload names, `none` for 3..255 (42_single_exchange.md R84). -/
def bankOf (d : Byte) : Option (Fin 3) := if h : d.toNat < 3 then some ⟨d.toNat, h⟩ else none

/-- BANK_LINES: the levels (l1, l0) of a bank (00_scope.md R8). -/
def bankLevels (l : BankLines) (b : Fin 3) : Bool × Bool :=
  match b with
  | 0 => l.bank0
  | 1 => l.bank1
  | 2 => l.bank2

/-- The levels of the two bank lines the engine drives (10_state.md R29). -/
def State.bankLineLevels (s : State) : Bool × Bool := bankLevels s.cfg.bankLines s.bank

/-- The collaborators' present state, as STATUS_FN sees it (45_datetime_status_irq.md R102). -/
def State.collaborators (s : State) : Collaborators where
  env := s.env
  bankLines := s.bankLineLevels
  gpioPresent := s.cfg.gpioPresent
  diskSet := s.cfg.diskSet

/-- The position in the chunk, cnt mod 32 (44_disk_transfer.md R98, R99). -/
def chunkPos (cnt : BitVec 16) : Fin 512 :=
  ⟨cnt.toNat % Board.chunk,
    Nat.lt_of_lt_of_le (Nat.mod_lt _ (by decide)) (by decide : Board.chunk ≤ 512)⟩

/-- The exchange with cnt >= MAX_TRACKS - 1 is the last of a sector sequence (44_disk_transfer.md R96). -/
def lastExchange (cnt : BitVec 16) : Bool := decide (Board.maxTracks - 1 ≤ cnt.toNat)

/-- buf[0..31], the chunk a write flushes (44_disk_transfer.md R98). -/
def chunkBytes (buf : Vector Byte 512) : List Byte := buf.toList.take Board.chunk

/-- The buffer with bytes stored from index `i` on (44_disk_transfer.md R99). -/
def putBytes (buf : Vector Byte 512) (i : Nat) : List Byte → Vector Byte 512
  | [] => buf
  | b :: bs => putBytes (buf.setIfInBounds i b) (i + 1) bs

/-- The byte of the buffer at an index (44_disk_transfer.md R99). -/
def bufByte (buf : Vector Byte 512) (i : Fin 512) : Byte := buf[i.val]

end Sys2Proof.Machine
end

