-- ==== Sys2Proof/Machine/Flags.lean ====
section
/-! DEFINITION. Every computation of a status value: the disk error code (10_state.md R19, 60_exceptions.md
R105, R106), the IRQ status byte (45_datetime_status_irq.md R103), the tick-enable bit
(42_single_exchange.md R85) and the tick's due test (60_exceptions.md R109). -/

namespace Sys2Proof.Machine

/-- DiskErrorCode: illegal disk number (10_state.md R19). -/
def errDisk : Byte := 16

/-- DiskErrorCode: illegal track (10_state.md R19). -/
def errTrack : Byte := 17

/-- DiskErrorCode: illegal sector (10_state.md R19). -/
def errSector : Byte := 18

/-- DiskErrorCode: unexpected end-of-file (10_state.md R19). -/
def errEof : Byte := 19

/-- VALIDATE: the code of a disk address, the sector checked first (43_disk_control.md R88). -/
def addressCode (trk : BitVec 16) (sec : Byte) : Byte :=
  if Board.maxSectors ≤ sec.toNat then errSector
  else if Board.maxTracks ≤ trk.toNat then errTrack
  else 0

/-- A BlockStore code as the error register holds it (10_state.md R19). -/
def storeErr (c : StoreCode) : Byte := BitVec.ofNat 8 c.val

/-- The code of a chunk call that moved `k` bytes: the call's own code if it is nonzero, else 19 if fewer
than 32 bytes moved (44_disk_transfer.md R97). -/
def chunkCode (c : StoreCode) (k : Nat) : Byte :=
  if c = 0 ∧ k < Board.chunk then errEof else storeErr c

/-- The IRQ status byte: the tick bit in bit 1, the draw `x` in the others (45_datetime_status_irq.md R103). -/
def irqStatus (x : Byte) (irqTick : Bool) : Byte :=
  (x &&& 0xFD) ||| ((BitVec.ofBool irqTick).setWidth 8 <<< 1)

/-- Whether an IRQEN payload enables the tick (42_single_exchange.md R85). -/
def tickEnable (d : Byte) : Bool := (d &&& Board.irqenTickMask) != 0

/-- Whether more than the interval has passed since the last tick (60_exceptions.md R109). -/
def tickDue (now lastTick : Nat) (tickIv : Byte) : Bool := decide (tickIv.toNat < now - lastTick)

end Sys2Proof.Machine
end

