-- ==== Sys2Proof/Machine/Ops.lean ====
section
/-! DEFINITION. The named operations over the state: the trace, the lines, the collaborator calls, a call that
never returns, the two releases, the reset after dispatch, and the one interrupt (40_bus_engine.md R61, R69 to R71,
41_dispatcher.md R76, 60_exceptions.md R109, R116). This hardware has no exception entry and no return from one
(60_exceptions.md R112, R113); raising the tick and acknowledging it stand in their place. -/

namespace Sys2Proof.Machine

/-- emit(E): append an event to the trace (40_bus_engine.md R61). -/
def State.emit (s : State) (e : Event) : State := { s with trace := s.trace ++ [e] }

/-- The engine goes on from a state, unless it is stuck in a collaborator call that has not returned: then it makes no
further step and all state survives as it stood at the call (60_exceptions.md R116, 93_implementation_defined.md
I17). -/
def State.andThen (s : State) (f : State → State) : State :=
  if s.env.liveness = .stalled then s else f s

/-- A collaborator call is made: it may be the one that never returns (60_exceptions.md R116). -/
def State.call (s : State) : State :=
  { s with env := { s.env with liveness := s.env.liveness.afterCall } }

/-- A collaborator call with an answer: what it brings back and what it does to the Environment, or, if it does not
return, no answer and an Environment otherwise unchanged (60_exceptions.md R116, R117, log 8). -/
def State.ask {α : Type} (s : State) (answer : α) (f : Env → Env) : Option α × State :=
  if s.call.env.liveness = .stalled then (none, s.call)
  else (some answer, { s.call with env := f s.call.env })

/-- A BlockStore call with its event, which carries the answer (40_bus_engine.md R61). -/
def State.askStore {α : Type} (s : State) (r : α × BlockStore) (e : Option α → Event) : Option α × State :=
  ((s.ask r.1 fun env => { env with bs := r.2 }).1,
    (s.ask r.1 fun env => { env with bs := r.2 }).2.emit (e (s.ask r.1 fun env => { env with bs := r.2 }).1))

/-- A collaborator call with no answer: the event and nothing else (40_bus_engine.md R61). -/
def State.send (s : State) (e : Event) : State := s.call.emit e

/-- A payload passed on to a collaborator, which receives it (42_single_exchange.md R80 to R82, R87). -/
def State.deliver (s : State) (e : Event) (f : Devices → Devices) : State :=
  { s with env := { s.env with devices := f s.env.devices } }.send e

/-- writeDataBus(v) (40_bus_engine.md R61, R71). -/
def setBusVal (v : Byte) (s : State) : State := { s with busOut := v }.emit (.busVal v)

/-- setDataBusDirection (40_bus_engine.md R61, R71). -/
def setBusDir (d : BusDir) (s : State) : State := { s with busDir := d }.emit (.busDir d)

/-- The BUSREQ line (40_bus_engine.md R61, R71). -/
def setBusReq (level : Bool) (s : State) : State := { s with busReq := level }.emit (.busReq level)

/-- One pulse of WAIT_RES, which deasserts WAIT (40_bus_engine.md R61, R72). DESIGN CHOICE (log 14): WR, RD, AD0 and
the data byte keep the transaction's levels; the spec says only that the Host holds them until here
(60_exceptions.md R118). -/
def waitReset (s : State) : State :=
  { s with lines := { s.lines with wait := false } }.emit .waitReset

/-- The INT line (40_bus_engine.md R61). -/
def setInt (level : Bool) (s : State) : State := { s with intOut := level }.emit (.int level)

/-- Select a bank and set both bank lines in one event (42_single_exchange.md R84). -/
def setBank (b : Fin 3) (s : State) : State :=
  { s with bank := b }.send
    (.bank (bankLevels s.cfg.bankLines b).1 (bankLevels s.cfg.bankLines b).2)

/-- RELEASE_WRITE (40_bus_engine.md R70). -/
def releaseWrite (s : State) : State := waitReset s

/-- RELEASE_READ(v), in the exact order of 40_bus_engine.md R71. -/
def releaseRead (v : Byte) (s : State) : State :=
  setBusReq false (setBusDir .input ((waitReset (setBusReq true (setBusDir .output (setBusVal v s)))).emit .hold))

/-- The write opcodes that stay armed (41_dispatcher.md R76). -/
def armedWrite (p : Params) (o : Byte) : Bool := o == p.op.seltrk || o == p.op.wrtsct

/-- The read opcodes that stay armed (41_dispatcher.md R76). -/
def armedRead (p : Params) (o : Byte) : Bool := o == p.op.datetime || o == p.op.rdsect

/-- POST_WRITE_RESET: the test reads the stored opcode after the handler has run (41_dispatcher.md R76). -/
def postWriteReset (s : State) : State :=
  { s with opc := if armedWrite s.cfg s.opc then s.opc else s.cfg.op.nop }

/-- POST_READ_RESET (41_dispatcher.md R76). -/
def postReadReset (s : State) : State :=
  { s with opc := if armedRead s.cfg s.opc then s.opc else s.cfg.op.nop }

/-- An Execute-Write: the handler, then the reset, then the release (40_bus_engine.md R66, R64). A call that does not
return ends it where it stands, with WAIT asserted (60_exceptions.md R116). -/
def runWrite (handler : State → State) (s : State) : Host.Outcome State Fault Refusal :=
  .next ((s.andThen handler).andThen fun t => releaseWrite (postWriteReset t))

/-- An Execute-Read: the handler with its result, then the reset, then the release (40_bus_engine.md R68, R64). A call
that does not return ends it where it stands, with WAIT asserted (60_exceptions.md R116). -/
def runRead (handler : State → Byte × State) (s : State) : Host.Outcome State Fault Refusal :=
  .next (s.andThen fun s => (handler s).2.andThen fun t => releaseRead (handler s).1 (postReadReset t))

/-- BS.open, with its event (20_memory.md R36, 40_bus_engine.md R61). -/
def bsOpen (name : FileName) (s : State) : Option StoreCode × State :=
  s.askStore (s.env.bs.open name) (.bsOpen name)

/-- BS.seek, with its event (20_memory.md R37, 40_bus_engine.md R61). -/
def bsSeek (block : Nat) (s : State) : Option StoreCode × State :=
  s.askStore (s.env.bs.seek block) (.bsSeek block)

/-- BS.read, with its event (20_memory.md R38, 40_bus_engine.md R61). -/
def bsRead (n : Nat) (s : State) : Option (StoreCode × List Byte) × State :=
  s.askStore (s.env.bs.read n) (.bsRead n)

/-- BS.write, with its event (20_memory.md R39, 40_bus_engine.md R61). -/
def bsWrite (bytes : List Byte) (s : State) : Option (StoreCode × Nat) × State :=
  s.askStore (s.env.bs.write bytes) (.bsWrite bytes)

/-- BS.finalize, with its event (20_memory.md R40, 40_bus_engine.md R61). -/
def bsFinalize (s : State) : Option StoreCode × State :=
  s.askStore s.env.bs.finalize .bsFinalize

/-- The code of a BlockStore call goes to the error register, once the call has returned (10_state.md R19). -/
def recordCode (r : Option StoreCode × State) : State :=
  match r.1 with
  | some c => { r.2 with err := storeErr c }
  | none => r.2

/-- SER.rx(): the next byte of the serial input channel, or none (40_bus_engine.md R67). -/
def serialPoll (s : State) : Option (Option Byte) × State :=
  s.ask (s.env.serialIn.next Config.serialPoll).1 fun env =>
    { env with serialIn := (s.env.serialIn.next Config.serialPoll).2 }

/-- GPIO.read(r), with its event (42_single_exchange.md R83). -/
def gpioRead (r : GpioReg) (s : State) : Option Byte × State :=
  (s.emit (.gpioRd r)).ask (s.env.gpioIn.next Config.gpioByte).1 fun env =>
    { env with gpioIn := (s.env.gpioIn.next Config.gpioByte).2 }

/-- RTC.refresh(), with its event: the only change of the RTC's fields (45_datetime_status_irq.md R101). -/
def rtcRefresh (s : State) : State :=
  ((s.emit .rtcRefresh).ask () fun env =>
    { env with
      rtc := (s.env.rtcIn.next Config.rtcFields).1
      rtcIn := (s.env.rtcIn.next Config.rtcFields).2 }).2

/-- RTC.field(i): a call, which changes nothing (00_scope.md R10, 45_datetime_status_irq.md R101). -/
def rtcField (i : Nat) (s : State) : Option Nat × State := s.ask (s.env.rtc.field i) fun env => env

/-- The draw for IRQSTAT's bits 0 and 2..7 (45_datetime_status_irq.md R103, D14). -/
def drawIrqBits (s : State) : Byte × State :=
  ((s.env.irqBits.next Config.irqDraw).1,
    { s with env := { s.env with irqBits := (s.env.irqBits.next Config.irqDraw).2 } })

/-- now(): the time has moved on by the Environment's choice, never back (60_exceptions.md R109, D10). -/
def readTime (s : State) : Option Nat × State :=
  s.ask (s.env.clock + (s.env.timeIn.next Config.timeStep).1) fun env =>
    { env with
      clock := s.env.clock + (s.env.timeIn.next Config.timeStep).1
      timeIn := (s.env.timeIn.next Config.timeStep).2 }

/-- VALIDATE(): record the code of the selected address (43_disk_control.md R88). -/
def validate (s : State) : State := { s with err := addressCode s.trk s.sec }

/-- Raise the system tick at time `t`, the engine's one interrupt: record the time, assert INT, set the tick
bit (60_exceptions.md R109, R110). -/
def raiseTick (t : Nat) (s : State) : State :=
  { setInt true { s with lastTick := t } with irqTick := true }

/-- TICK_CHECK(): while the tick is disabled nothing is read or written (60_exceptions.md R109). -/
def tickCheck (s : State) : State :=
  if s.tickEn then
    match readTime s with
    | (some now, t) => if tickDue now s.lastTick s.tickIv then raiseTick now t else t
    | (none, t) => t
  else s

end Sys2Proof.Machine
end

