-- ==== Sys2Proof/Machine/Bus.lean ====
section
/-! DEFINITION. The transactions that use no opcode, and the Execute exchanges that find no handler
(40_bus_engine.md R65, R67, R69, 41_dispatcher.md R75). -/

namespace Sys2Proof.Machine

/-- STORE (40_bus_engine.md R65): the byte becomes the stored opcode and the counter restarts. -/
def execStore (d : Byte) (s : State) : Host.Outcome State Fault Refusal :=
  .next (s.andThen fun s => releaseWrite { s with opc := d, cnt := 0 })

/-- SERRX (40_bus_engine.md R67): the next serial byte, or 0xFF; the stored opcode is not touched. -/
def execSerrx (s : State) : Host.Outcome State Fault Refusal :=
  .next (s.andThen fun s =>
    (serialPoll s).2.andThen fun t => releaseRead ((serialPoll s).1.join.getD Board.serialNone) t)

/-- INTACK (40_bus_engine.md R69): the interrupt line is cleared and the Host released. -/
def execIntack (s : State) : Host.Outcome State Fault Refusal :=
  .next (s.andThen fun s => waitReset (setInt false s))

/-- EW_NONE (41_dispatcher.md R75, R76): no handler, so no effect before the reset. -/
def execEwNone (s : State) : Host.Outcome State Fault Refusal := runWrite (fun s => s) s

/-- ER_NONE (41_dispatcher.md R75, R76): no handler, so the result is 0x00. -/
def execErNone (s : State) : Host.Outcome State Fault Refusal := runRead (fun s => (0, s)) s

end Sys2Proof.Machine
end

