-- ==== Sys2Proof/Machine/DiskControl.lean ====
section
/-! DEFINITION. The disk control opcodes (43_disk_control.md R90 to R93). -/

namespace Sys2Proof.Machine

/-- H_SELDSK (43_disk_control.md R90). -/
def selectDisk (d : Byte) (s : State) : State :=
  if d.toNat ≤ Board.maxDisk then recordCode (bsOpen (diskName s.cfg.diskSet d) { s with dsk := d })
  else { s with err := errDisk }

/-- H_SELTRK (43_disk_control.md R91): the first byte is the low byte, the second the high byte. -/
def selectTrack (d : Byte) (s : State) : State :=
  if s.cnt = 0 then { s with trk := trackLow d, cnt := 1 }
  else { validate { s with trk := trackHigh d s.trk } with cnt := 0 }

/-- H_SELSCT (43_disk_control.md R92). -/
def selectSector (d : Byte) (s : State) : State := validate { s with sec := d }

/-- SELDSK (43_disk_control.md R90). -/
def execSeldsk (d : Byte) (s : State) : Host.Outcome State Fault Refusal := runWrite (selectDisk d) s

/-- SELTRK (43_disk_control.md R91). -/
def execSeltrk (d : Byte) (s : State) : Host.Outcome State Fault Refusal := runWrite (selectTrack d) s

/-- SELSCT (43_disk_control.md R92). -/
def execSelsct (d : Byte) (s : State) : Host.Outcome State Fault Refusal := runWrite (selectSector d) s

/-- ERRDISK (43_disk_control.md R93): the error code is read and kept. -/
def execErrdisk (s : State) : Host.Outcome State Fault Refusal := runRead (fun s => (s.err, s)) s

end Sys2Proof.Machine
end

