-- ==== Sys2Proof/Machine/DiskTransfer.lean ====
section
/-! DEFINITION. The sector transfers (44_disk_transfer.md R94 to R99). -/

namespace Sys2Proof.Machine

/-- X_START(): on the first exchange, with no error latched, seek to the block or record why the address is
illegal (44_disk_transfer.md R94). -/
def transferStart (s : State) : State :=
  if s.cnt = 0 ∧ s.err = 0 then
    if addressLegal s.trk s.sec then recordCode (bsSeek (blockIndex s.trk s.sec) s) else validate s
  else s

/-- Flush buf[0..31] to storage (44_disk_transfer.md R97, R98). -/
def flushChunk (s : State) : State :=
  match bsWrite (chunkBytes s.buf) s with
  | (some (c, k), t) => { t with err := chunkCode c k }
  | (none, t) => t

/-- Take one byte of a write into the buffer, and flush a full chunk (44_disk_transfer.md R98). -/
def takeByte (d : Byte) (s : State) : State :=
  if (chunkPos s.cnt).val = Board.chunk - 1 then
    flushChunk { s with buf := s.buf.set (chunkPos s.cnt).val d }
  else { s with buf := s.buf.set (chunkPos s.cnt).val d }

/-- The end of a write sequence: finalize unless an error is latched (44_disk_transfer.md R98). -/
def finalizeSector (s : State) : State :=
  if s.err = 0 then recordCode (bsFinalize s) else s

/-- The end of a sequence writes OPC_NOP (44_disk_transfer.md R96). -/
def endSequence (s : State) : State := { s with opc := s.cfg.op.nop }

/-- cnt <- cnt + 1, in every exchange (44_disk_transfer.md R96). -/
def countExchange (s : State) : State := { s with cnt := s.cnt + 1 }

/-- The byte of a WRTSCT exchange, discarded if an error is latched (44_disk_transfer.md R98). -/
def writeByte (d : Byte) (s : State) : State := if s.err = 0 then takeByte d s else s

/-- H_WRTSCT (44_disk_transfer.md R98). -/
def writeSector (d : Byte) (s : State) : State :=
  if lastExchange s.cnt then
    (((transferStart s).andThen (writeByte d)).andThen finalizeSector).andThen
      fun t => countExchange (endSequence t)
  else ((transferStart s).andThen (writeByte d)).andThen countExchange

/-- Pull 32 bytes from storage into buf[0..31]; a failed or short chunk leaves the buffer
(44_disk_transfer.md R97, R99). -/
def fillChunk (s : State) : State :=
  match bsRead Board.chunk s with
  | (some (c, bytes), t) =>
    { t with
      err := chunkCode c bytes.length
      buf := if chunkCode c bytes.length = 0 then putBytes s.buf 0 bytes else s.buf }
  | (none, t) => t

/-- The chunk start of a RDSECT exchange: with no error latched, every 32nd exchange pulls a chunk
(44_disk_transfer.md R99). -/
def readChunk (s : State) : State :=
  if s.err = 0 ∧ (chunkPos s.cnt).val = 0 then fillChunk s else s

/-- The result of a RDSECT exchange: a byte of the buffer, or 0x00 with an error latched
(44_disk_transfer.md R99). -/
def readResult (s : State) : Byte := if s.err = 0 then bufByte s.buf (chunkPos s.cnt) else 0

/-- H_RDSECT (44_disk_transfer.md R99). -/
def readSector (s : State) : Byte × State :=
  (readResult ((transferStart s).andThen readChunk),
    if lastExchange s.cnt then
      ((transferStart s).andThen readChunk).andThen fun t => countExchange (endSequence t)
    else ((transferStart s).andThen readChunk).andThen countExchange)

/-- WRTSCT (44_disk_transfer.md R98). -/
def execWrtsct (d : Byte) (s : State) : Host.Outcome State Fault Refusal := runWrite (writeSector d) s

/-- RDSECT (44_disk_transfer.md R99). -/
def execRdsect (s : State) : Host.Outcome State Fault Refusal := runRead readSector s

end Sys2Proof.Machine
end

