-- ==== Sys2Proof/Machine/ReadStatus.lean ====
section
/-! DEFINITION. Date and time, system status and IRQ status (45_datetime_status_irq.md R101 to R103). -/

namespace Sys2Proof.Machine

/-- The refresh of a DATETIME sequence, on its first byte only (45_datetime_status_irq.md R101). -/
def startDatetime (s : State) : State := if s.cnt = 0 then rtcRefresh s else s

/-- The result of a DATETIME exchange before the seventh byte has been given: the field read, truncated to a byte
(45_datetime_status_irq.md R101). The 0 of a read that has not returned is given to nobody. -/
def datetimeByte (field : Option Nat) : Byte := BitVec.ofNat 8 (field.getD 0)

/-- H_DATETIME (45_datetime_status_irq.md R101): the refresh, field `cnt`, and the exchange counted. -/
def readDatetime (s : State) : Byte × State :=
  if s.cnt.toNat < Board.datetimeLen then
    (datetimeByte (rtcField s.cnt.toNat (startDatetime s)).1,
      ((startDatetime s).andThen fun t => (rtcField s.cnt.toNat t).2).andThen fun t =>
        { t with
          cnt := s.cnt + 1
          opc := if s.cnt.toNat + 1 = Board.datetimeLen then s.cfg.op.nop else s.opc })
  else (0, { s with opc := s.cfg.op.nop })

/-- H_IRQSTAT (45_datetime_status_irq.md R103): the read clears the tick bit and not the INT line. -/
def readIrqStatus (s : State) : Byte × State :=
  (irqStatus (drawIrqBits s).1 s.irqTick, { (drawIrqBits s).2 with irqTick := false })

/-- DATETIME (45_datetime_status_irq.md R101). -/
def execDatetime (s : State) : Host.Outcome State Fault Refusal := runRead readDatetime s

/-- STATUS (45_datetime_status_irq.md R102): a function of the collaborators' present state, with no side effect. -/
def execStatus (s : State) : Host.Outcome State Fault Refusal :=
  runRead (fun s => (Config.statusFn s.collaborators, s)) s

/-- IRQSTAT (45_datetime_status_irq.md R103). -/
def execIrqstat (s : State) : Host.Outcome State Fault Refusal := runRead readIrqStatus s

end Sys2Proof.Machine
end

