-- ==== Sys2Proof/Machine/Single.lean ====
section
/-! DEFINITION. The single-exchange passthrough opcodes (42_single_exchange.md R80 to R87). -/

namespace Sys2Proof.Machine

/-- H_LED (42_single_exchange.md R80). -/
def lightLed (d : Byte) (s : State) : State := s.deliver (.led d) fun v => { v with led := v.led ++ [d] }

/-- H_SERTX (42_single_exchange.md R81): the byte is appended to the serial output channel. -/
def sendSerial (d : Byte) (s : State) : State :=
  s.deliver (.serTx d) fun v => { v with serialOut := v.serialOut ++ [d] }

/-- H_GPIOWR (42_single_exchange.md R82): no effect on an absent expander. -/
def writeGpio (r : GpioReg) (d : Byte) (s : State) : State :=
  if s.cfg.gpioPresent then s.deliver (.gpioWr r d) fun v => { v with gpio := v.gpio ++ [(r, d)] } else s

/-- H_GPIORD (42_single_exchange.md R83): an absent expander reads as 0x00. The 0 of a read that has not returned is
given to nobody. -/
def readGpio (r : GpioReg) (s : State) : Byte × State :=
  if s.cfg.gpioPresent then ((gpioRead r s).1.getD 0, (gpioRead r s).2) else (0, s)

/-- H_BANK (42_single_exchange.md R84): a payload above 2 is ignored. -/
def selectBank (d : Byte) (s : State) : State :=
  match bankOf d with
  | some b => setBank b s
  | none => s

/-- H_SPKR (42_single_exchange.md R87). -/
def driveSpeaker (d : Byte) (s : State) : State :=
  s.deliver (.spkr d) fun v => { v with spkr := v.spkr ++ [d] }

/-- LED (42_single_exchange.md R80). -/
def execLed (d : Byte) (s : State) : Host.Outcome State Fault Refusal := runWrite (lightLed d) s

/-- SERTX (42_single_exchange.md R81). -/
def execSertx (d : Byte) (s : State) : Host.Outcome State Fault Refusal := runWrite (sendSerial d) s

/-- GPIOWR(r) (42_single_exchange.md R82). -/
def execGpiowr (r : GpioReg) (d : Byte) (s : State) : Host.Outcome State Fault Refusal :=
  runWrite (writeGpio r d) s

/-- GPIORD(r) (42_single_exchange.md R83). -/
def execGpiord (r : GpioReg) (s : State) : Host.Outcome State Fault Refusal := runRead (readGpio r) s

/-- BANK (42_single_exchange.md R84). -/
def execBank (d : Byte) (s : State) : Host.Outcome State Fault Refusal := runWrite (selectBank d) s

/-- IRQEN (42_single_exchange.md R85). -/
def execIrqen (d : Byte) (s : State) : Host.Outcome State Fault Refusal :=
  runWrite (fun s => { s with tickEn := tickEnable d }) s

/-- TICK (42_single_exchange.md R86): a payload of 0 is ignored. -/
def execTick (d : Byte) (s : State) : Host.Outcome State Fault Refusal :=
  runWrite (fun s => { s with tickIv := if d = 0 then s.tickIv else d }) s

/-- SPKR (42_single_exchange.md R87). -/
def execSpkr (d : Byte) (s : State) : Host.Outcome State Fault Refusal := runWrite (driveSpeaker d) s

end Sys2Proof.Machine
end

