-- ==== Sys2Proof/Machine/Dispatch.lean ====
section
/-! DEFINITION. One arm per instruction: the handling of one transaction with its release
(40_bus_engine.md R64). -/

namespace Sys2Proof.Machine

/-- The meaning of each instruction (40_bus_engine.md R64, 41_dispatcher.md R74). -/
def exec (i : Instr) (s : State) : Host.Outcome State Fault Refusal :=
  match i with
  | .store d => Sys2Proof.Machine.execStore d s
  | .serrx => Sys2Proof.Machine.execSerrx s
  | .intack => Sys2Proof.Machine.execIntack s
  | .led d => Sys2Proof.Machine.execLed d s
  | .sertx d => Sys2Proof.Machine.execSertx d s
  | .gpiowr r d => Sys2Proof.Machine.execGpiowr r d s
  | .bank d => Sys2Proof.Machine.execBank d s
  | .irqen d => Sys2Proof.Machine.execIrqen d s
  | .tick d => Sys2Proof.Machine.execTick d s
  | .spkr d => Sys2Proof.Machine.execSpkr d s
  | .seldsk d => Sys2Proof.Machine.execSeldsk d s
  | .seltrk d => Sys2Proof.Machine.execSeltrk d s
  | .selsct d => Sys2Proof.Machine.execSelsct d s
  | .wrtsct d => Sys2Proof.Machine.execWrtsct d s
  | .gpiord r => Sys2Proof.Machine.execGpiord r s
  | .status => Sys2Proof.Machine.execStatus s
  | .datetime => Sys2Proof.Machine.execDatetime s
  | .errdisk => Sys2Proof.Machine.execErrdisk s
  | .rdsect => Sys2Proof.Machine.execRdsect s
  | .irqstat => Sys2Proof.Machine.execIrqstat s
  | .ewNone _ _ => Sys2Proof.Machine.execEwNone s
  | .erNone _ => Sys2Proof.Machine.execErNone s

end Sys2Proof.Machine
end

