-- ==== Sys2Proof/Machine/Engine.lean ====
section
/-! DEFINITION. The poll loop's pass (40_bus_engine.md R62, R63), the Host's turn before it
(60_exceptions.md R118), and placing a transaction on the lines. -/

namespace Sys2Proof.Machine

/-- The Host's turn: parked, it does nothing (60_exceptions.md R116, 70_reset_and_hazards.md R122);
otherwise it idles or starts its next transaction, and is then parked. DESIGN CHOICE: the Host's form, a list of moves
taken before the pass (log 7); a Host that idles leaves the lines at the last transaction's levels (log 14). -/
def hostTurn (s : State) : State :=
  if s.lines.wait then s
  else
    match s.host with
    | [] => s
    | .idle :: rest => { s with host := rest }
    | .start tw :: rest => { s with host := rest, lines := linesOf tw }

/-- The end of a pass: the tick check, and the Environment's own moment moves on
(40_bus_engine.md R62, 60_exceptions.md R109). A stuck engine has no end of pass (60_exceptions.md R116). -/
def endPass (s : State) : State :=
  s.andThen fun s => tickCheck { s with env := { s.env with moment := s.env.moment + 1 } }

/-- The rest of a pass after the transaction. -/
def afterTransaction : Host.Outcome State Fault Refusal → Host.Outcome State Fault Refusal
  | .next s => .next (endPass s)
  | .fault r => .fault r
  | .refused r => .refused r

/-- Handle the pending transaction, if there is one, to its release (40_bus_engine.md R62 (1), R64). -/
def handle (s : State) : Host.Outcome State Fault Refusal :=
  if s.lines.wait then exec (decodeWord s.cfg (sampleWord s)) s else .next s

/-- Poll WAIT: handle the pending transaction to its release, then run the tick check
(40_bus_engine.md R62, R64). -/
def poll (s : State) : Host.Outcome State Fault Refusal := afterTransaction (handle s)

/-- One loop pass, the Host's turn before it (40_bus_engine.md R62). A stuck engine changes nothing in it, so that a
Host it has left parked stays so (60_exceptions.md R116). -/
def pollPass (s : State) : Host.Outcome State Fault Refusal := poll (hostTurn s)

/-- The state with the transaction of a decode word pending: WAIT asserted, the lines and the data byte as
the word says, and the stored opcode the word joins to them (30_encoding.md R54). -/
def placeWord (w : DW) (s : State) : State :=
  { s with
    opc := opcField w
    lines := { wait := true, wr := w.getLsbD 18, rd := w.getLsbD 17, ad0 := w.getLsbD 16,
               data := dataField w } }

end Sys2Proof.Machine
end

