-- ==== Sys2Proof/Machine/Step.lean ====
section
/-! DEFINITION. The step, one loop pass of the engine (40_bus_engine.md R62), and the placing of an
instruction for the next step. -/

namespace Sys2Proof.Machine

/-- One step of the machine (40_bus_engine.md R62). -/
def step (s : State) : Host.Outcome State Fault Refusal := pollPass s

/-- The state in which the next step handles the transaction whose decode word is `w` (log 7). -/
def State.withFetchWord (s : State) (nbits w : Nat) : State :=
  placeWord (BitVec.ofNat 19 (w % 2 ^ nbits)) s

end Sys2Proof.Machine
end

