-- ==== Sys2Proof/Machine/Run.lean ====
section
/-! DEFINITION. The run of a Host program: when it has ended, and its observation (70_reset_and_hazards.md R130). The
engine itself never stops: `step` goes on after the end. -/

namespace Sys2Proof.Machine

/-- The engine state: the sixteen fields of 10_state.md R13, and no other. -/
structure EngineState where
  opc : Byte
  cnt : BitVec 16
  err : Byte
  trk : BitVec 16
  sec : Byte
  dsk : Byte
  buf : Vector Byte 512
  irqTick : Bool
  tickEn : Bool
  tickIv : Byte
  lastTick : Nat
  bank : Fin 3
  intOut : Bool
  busReq : Bool
  busDir : BusDir
  busOut : Byte
  deriving DecidableEq, Repr

/-- The observation of a run (70_reset_and_hazards.md R130): the engine state, the event trace (40_bus_engine.md R61)
and the Environment state (60_exceptions.md R117). -/
structure Observation where
  engine : EngineState
  trace : List Event
  env : Env
  deriving DecidableEq, Repr

/-- The engine's record in a state of the machine (10_state.md R13). -/
def State.engine (s : State) : EngineState where
  opc := s.opc
  cnt := s.cnt
  err := s.err
  trk := s.trk
  sec := s.sec
  dsk := s.dsk
  buf := s.buf
  irqTick := s.irqTick
  tickEn := s.tickEn
  tickIv := s.tickIv
  lastTick := s.lastTick
  bank := s.bank
  intOut := s.intOut
  busReq := s.busReq
  busDir := s.busDir
  busOut := s.busOut

/-- What there is to observe of a state (70_reset_and_hazards.md R130). -/
def State.observation (s : State) : Observation where
  engine := s.engine
  trace := s.trace
  env := s.env

/-- The Host has issued the last transaction of its list: no move to come starts one (70_reset_and_hazards.md R130).
The Host's form is log 7's. -/
def State.allIssued (s : State) : Bool := s.host.all fun m => decide (m = .idle)

/-- The run has ended: the Host has issued the last transaction of its list, and that transaction's release has been
emitted, so that the Host is not parked (70_reset_and_hazards.md R130, 40_bus_engine.md R72). A Host parked for ever by
a call that never returns has no end of run (60_exceptions.md R116). -/
def State.runEnded (s : State) : Bool := s.allIssued && !s.lines.wait

/-- The observation of the run of the Host's list from a state, if the run ends within `n` passes: that of the moment
the last release has been emitted, before the tick check of its pass (70_reset_and_hazards.md R130, 40_bus_engine.md
R62). DEDUCED: that moment (log 17). DESIGN CHOICE: the run of a list with no transaction, and none pending, has ended
before its first pass (log 17). -/
def observeRun : Nat → State → Option Observation
  | 0, s => if s.runEnded then some s.observation else none
  | n + 1, s =>
    if s.runEnded then some s.observation
    else
      match handle (hostTurn s) with
      | .next u => if u.runEnded then some u.observation else observeRun n (endPass u)
      | .fault _ => none
      | .refused _ => none

end Sys2Proof.Machine
end

