-- ==== Sys2Proof/Machine/HostProgram.lean ====
section
/-! DEFINITION. The spec's notation for Host programs (30_encoding.md R60). -/

namespace Sys2Proof.Machine

/-- ST b: Store the opcode byte `b`, TW 0x500 + b (30_encoding.md R60). -/
def hostST (b : Byte) : HostMove := .start (0x500 + b.setWidth 11)

/-- EW b: Execute-Write the payload `b`, TW 0x400 + b (30_encoding.md R60). -/
def hostEW (b : Byte) : HostMove := .start (0x400 + b.setWidth 11)

/-- ER: Execute-Read, TW 0x200 (30_encoding.md R60). -/
def hostER : HostMove := .start 0x200

/-- RX: Serial receive, TW 0x300 (30_encoding.md R60). -/
def hostRX : HostMove := .start 0x300

/-- IA: interrupt acknowledge, TW 0x000 (30_encoding.md R60). -/
def hostIA : HostMove := .start 0x000

/-- CMD op, b = ST op; EW b (30_encoding.md R60). -/
def hostCMD (op b : Byte) : List HostMove := [hostST op, hostEW b]

/-- QRY op = ST op; ER (30_encoding.md R60). -/
def hostQRY (op : Byte) : List HostMove := [hostST op, hostER]

/-- SELTRK t = ST OPC_SELTRK; EW t[7:0]; EW t[15:8] (30_encoding.md R60). -/
def hostSELTRK (p : Params) (t : BitVec 16) : List HostMove :=
  [hostST p.op.seltrk, hostEW (t.extractLsb' 0 8), hostEW (t.extractLsb' 8 8)]

/-- WRSEC b0..b511 = ST OPC_WRTSCT; EW b0; ...; EW b511 (30_encoding.md R60). -/
def hostWRSEC (p : Params) (bytes : List Byte) : List HostMove :=
  hostST p.op.wrtsct :: bytes.map hostEW

/-- RDSEC = ST OPC_RDSECT; 512 times ER (30_encoding.md R60). -/
def hostRDSEC (p : Params) : List HostMove :=
  hostST p.op.rdsect :: List.replicate Board.sectorBytes hostER

/-- DATETIME = ST OPC_DATETIME; seven times ER (30_encoding.md R60). -/
def hostDATETIME (p : Params) : List HostMove :=
  hostST p.op.datetime :: List.replicate Board.datetimeLen hostER

end Sys2Proof.Machine
end

