-- ==== Sys2Proof/Safety.lean ====
section
/-! DEFINITION. The terms the claims use: the invariant of the machine, what a transaction leaves, the
traces of the releases, and sequences of exchanges (41_dispatcher.md R78, 40_bus_engine.md R70, R71, R72). -/

namespace Sys2Proof.Machine

/-- A file of the reference BlockStore is well formed: its image is in canonical form and lists no byte past
its length (20_memory.md R42). -/
def DiskFile.wf (f : DiskFile) : Bool := Memory.wf f.image && f.image.all (fun c => decide (c.1 < f.length))

/-- The reference BlockStore is well formed: every file is, no name stands twice, and the current file exists
with the position inside it (20_memory.md R35, R42). -/
def RefStore.wf (r : RefStore) : Bool :=
  r.files.all DiskFile.wf && decide (r.files.map DiskFile.name).Nodup &&
    match r.cur with
    | none => true
    | some name => (r.file name).isSome && decide (r.pos ≤ r.curLength)

/-- The BlockStore is well formed; the oracle's always is (20_memory.md R41, R42). -/
def BlockStore.wf : BlockStore → Bool
  | .oracle _ => true
  | .reference r => r.wf

/-- Every collaborator call returns (60_exceptions.md R116, 93_implementation_defined.md I17). -/
abbrev State.Responsive (s : State) : Prop := s.env.liveness = .returns

/-- No collaborator call has failed to return so far (60_exceptions.md R116). -/
abbrev State.NotStuck (s : State) : Prop := s.env.liveness ≠ .stalled

/-- The invariant of the machine between two passes: the parameters meet R56, the counter stays inside the
sequence of the opcode that owns it (R78), the interval is positive (R27), the last tick is not in the future
(R109), the data bus is free (R71, D37), and storage keeps its canonical form (R42). -/
structure State.Inv (s : State) : Prop where
  params : s.cfg.Wf
  cntBound : s.cnt.toNat ≤ 512
  writeCnt : s.opc = s.cfg.op.wrtsct → s.cnt.toNat < 512
  readCnt : s.opc = s.cfg.op.rdsect → s.cnt.toNat < 512
  datetimeCnt : s.opc = s.cfg.op.datetime → s.cnt.toNat < 7
  trackCnt : s.opc = s.cfg.op.seltrk → s.cnt.toNat < 2
  interval : s.tickIv ≠ 0
  lastTickPast : s.lastTick ≤ s.env.clock
  busReleased : s.busReq = false
  busInput : s.busDir = .input
  storage : s.env.bs.wf = true

/-- A legal disk error code (10_state.md R19). -/
abbrev errLegal (e : Byte) : Prop := e.toNat ≤ 6 ∨ (16 ≤ e.toNat ∧ e.toNat ≤ 19)

/-- The stored opcode after an Execute-Write dispatch (41_dispatcher.md R76). -/
def opcAfterWrite (s : State) : Byte :=
  if s.opc = s.cfg.op.seltrk ∨ s.opc = s.cfg.op.wrtsct then s.opc else s.cfg.op.nop

/-- The stored opcode after an Execute-Read dispatch (41_dispatcher.md R76). -/
def opcAfterRead (s : State) : Byte :=
  if s.opc = s.cfg.op.datetime ∨ s.opc = s.cfg.op.rdsect then s.opc else s.cfg.op.nop

/-- The release of a write or of an interrupt acknowledge as the Host sees it: WAIT deasserted, and the
events emitted (40_bus_engine.md R69, R70, R72). -/
def released (s : State) (events : List Event) : State :=
  { s with lines := { s.lines with wait := false }, trace := s.trace ++ events }

/-- RT(v): the seven events of a read release (40_bus_engine.md R71). -/
def readRelease (v : Byte) : List Event :=
  [.busVal v, .busDir .output, .busReq true, .waitReset, .hold, .busDir .input, .busReq false]

/-- The release of a read as the Host sees it: the byte on the bus, the bus free again, WAIT deasserted, and
the events emitted before the seven of the release (40_bus_engine.md R71). -/
def readReleased (s : State) (v : Byte) (events : List Event) : State :=
  { s with
    busOut := v
    busDir := .input
    busReq := false
    lines := { s.lines with wait := false }
    trace := s.trace ++ events ++ readRelease v }

/-- Where a collaborator call that never returns leaves the engine: stuck, the events emitted so far in the trace, WAIT
still asserted and all else as it stood at the call (60_exceptions.md R116, 93_implementation_defined.md I17). -/
def stalledAt (s : State) (events : List Event) : State :=
  { s with env := { s.env with liveness := .stalled }, trace := s.trace ++ events }

/-- The state with another BlockStore. -/
def State.withBs (s : State) (b : BlockStore) : State := { s with env := { s.env with bs := b } }

/-- One exchange after another, stopping at the first stop. -/
def execAll : List Instr → State → Host.Outcome State Fault Refusal
  | [], s => .next s
  | i :: is, s =>
    match exec i s with
    | .next t => execAll is t
    | .fault r => .fault r
    | .refused r => .refused r

/-- `n` Execute-Reads of RDSECT, with the bytes the Host gets (44_disk_transfer.md R99); `none` at a stop. -/
def readAll : Nat → State → Option (List Byte × State)
  | 0, s => some ([], s)
  | n + 1, s =>
    match exec .rdsect s with
    | .next t => (readAll n t).map (fun r => (t.busOut :: r.1, r.2))
    | .fault _ => none
    | .refused _ => none

/-- The bytes of another buffer that the transfer in progress can still use agree with this state's: in a
write those taken since the last flush, in a read those of the chunk being served (10_state.md R23). -/
def State.agreesOnLiveBytes (s : State) (b : Vector Byte 512) : Prop :=
  s.err = 0 →
    (s.opc = s.cfg.op.wrtsct → ∀ k : Fin 512, k.val < s.cnt.toNat % 32 → b[k.val] = s.buf[k.val]) ∧
    (s.opc = s.cfg.op.rdsect → s.cnt.toNat % 32 ≠ 0 →
      ∀ k : Fin 512, k.val < 32 → b[k.val] = s.buf[k.val])

/-- Two outcomes that differ at most in buffer bytes no later transfer can use (10_state.md R23). -/
def sameButDeadBytes : Host.Outcome State Fault Refusal → Host.Outcome State Fault Refusal → Prop
  | .next t, .next u => ∃ b, u = { t with buf := b } ∧ t.agreesOnLiveBytes b
  | .fault _, .fault _ => True
  | .refused _, .refused _ => True
  | .next _, .fault _ => False
  | .next _, .refused _ => False
  | .fault _, .next _ => False
  | .fault _, .refused _ => False
  | .refused _, .next _ => False
  | .refused _, .fault _ => False

/-- An outcome with the disk number forgotten (10_state.md R22). -/
def forgetDsk : Host.Outcome State Fault Refusal → Host.Outcome State Fault Refusal
  | .next t => .next { t with dsk := 0 }
  | .fault r => .fault r
  | .refused r => .refused r

end Sys2Proof.Machine
end

