-- ==== Sys2Proof/Certificates/Slice0/Obligations.lean ====
section
/-! DEFINITION. The statements for the provers. Each formalises rules of spec/ (named in its docstring); every
free value in them (Config) is arbitrary, so each holds for every value of it. -/

section

open Sys2Proof Sys2Proof.Machine

/-! Entry -/

/-- 10_state.md R13, 70_reset_and_hazards.md R119: the fields whose entry value the spec states, for every value
of what it leaves open (`e`, the parameters and unspecified fields of R120). -/
def Obligations.EntryStateOfTheEngine : Prop :=
  ∀ e : Entry,
    (State.entry e).opc = e.cfg.op.nop ∧ (State.entry e).cnt = 0 ∧ (State.entry e).irqTick = false ∧
    (State.entry e).tickEn = false ∧ (State.entry e).tickIv = 100 ∧
    (State.entry e).lastTick = e.env.clock ∧ (State.entry e).intOut = false ∧
    (State.entry e).busReq = false ∧ (State.entry e).busDir = .input ∧
    (State.entry e).lines.wait = false ∧ (State.entry e).err = e.err0 ∧ (State.entry e).trk = e.trk0 ∧
    (State.entry e).sec = e.sec0 ∧ (State.entry e).bank = e.bank0 ∧ (State.entry e).dsk = e.dsk0 ∧
    (State.entry e).buf = e.buf0 ∧ (State.entry e).busOut = e.busOut0 ∧ (State.entry e).env = e.env ∧
    (State.entry e).bankLineLevels = bankLevels e.cfg.bankLines e.bank0

/-- 70_reset_and_hazards.md R119, 30_encoding.md R56: the invariant holds at entry, for legal parameters and
well-formed storage, and at State.reset (whose open values are the model's choice, log 2 to log 10 and log 15). -/
def Obligations.InvariantHoldsAtEntry : Prop :=
  (∀ e : Entry, e.cfg.Wf → e.env.bs.wf = true → (State.entry e).Inv) ∧ State.reset.Inv

/-! Encoding and decoding -/

/-- 30_encoding.md R54, R55, R56: no bit of an encoding is dropped. -/
def Obligations.DecodeOfEncodeIsTheInstruction : Prop :=
  ∀ (p : Params) (i : Instr), p.Wf → i.Wf p → decodeWord p (encode p i) = i

/-- 30_encoding.md R54: the decoder agrees with the rows of opcode_table.json, taken as mask and match with the
two no-handler rows last. -/
def Obligations.DecoderAgreesWithOpcodeTable : Prop :=
  ∀ (p : Params) (w : DW), p.Wf →
    (selectRow p w).map OpcodeRow.mnemonic = some (decodeWord p w).mnemonic

/-- 30_encoding.md R54: every decode word matches exactly one row: one handler row, or none of them and exactly
one of the two defaults. -/
def Obligations.EveryWordMatchesExactlyOneRow : Prop :=
  ∀ (p : Params) (w : DW), p.Wf →
    ((handlerRows p).filter (rowMatches w)).length = 1 ∨
    ((handlerRows p).filter (rowMatches w) = [] ∧ (defaultRows.filter (rowMatches w)).length = 1)

/-- 30_encoding.md R58, 41_dispatcher.md R75: what is decoded is well formed; in particular a no-handler form
is decoded only for an opcode with no handler in its direction. -/
def Obligations.DecodedInstructionsAreWellFormed : Prop :=
  ∀ (p : Params) (w : DW), p.Wf → (decodeWord p w).Wf p

/-- 40_bus_engine.md R64, 20_memory.md R34: WR first, then RD, then neither. -/
def Obligations.LinePrecedenceSelectsTransaction : Prop :=
  ∀ (p : Params) (o d : Byte) (rd a : Bool),
    decodeWord p (packDW true rd true o d) = .store d ∧
    decodeWord p (packDW true rd false o d) = decodeWrite p o d ∧
    decodeWord p (packDW false true true o d) = .serrx ∧
    decodeWord p (packDW false true false o d) = decodeRead p o ∧
    decodeWord p (packDW false false a o d) = .intack

/-- 30_encoding.md R53, R54, R60, under the opcode bytes State.reset names (log 2): a few words written out. -/
def Obligations.WrittenOutWordsDecode : Prop :=
  decodeTableWord 24 0x500AB = some (.store 0xAB) ∧
  decodeTableWord 24 0x7FFAB = some (.store 0xAB) ∧
  decodeTableWord 24 0x30000 = some .serrx ∧
  decodeTableWord 24 0x1FFFF = some .intack ∧
  decodeTableWord 24 0x409C5 = some (.seldsk 0xC5) ∧
  decodeTableWord 24 0x60CC5 = some (.wrtsct 0xC5) ∧
  decodeTableWord 24 0x20C00 = some (.erNone 0x0C) ∧
  decodeTableWord 24 0x28600 = some .rdsect ∧
  decodeTableWord 24 0x486C5 = some (.ewNone 0x86 0xC5) ∧
  decodeTableWord 24 0x80000 = none

/-- 30_encoding.md R60, R53: the transaction words of ST b, EW b, ER, RX and IA, and what each is decoded as; the
acknowledge is decoded from 0x000 and from 0x100. -/
def Obligations.HostNotationDecodes : Prop :=
  ∀ (p : Params) (s : State) (b : Byte),
    hostST b = .start (BitVec.ofNat 11 (0x500 + b.toNat)) ∧
    hostEW b = .start (BitVec.ofNat 11 (0x400 + b.toNat)) ∧
    hostER = .start 0x200 ∧ hostRX = .start 0x300 ∧ hostIA = .start 0x000 ∧
    decodeWord p (sampleWord { s with lines := linesOf (BitVec.ofNat 11 (0x500 + b.toNat)) }) = .store b ∧
    decodeWord p (sampleWord { s with lines := linesOf (BitVec.ofNat 11 (0x400 + b.toNat)) }) =
      decodeWrite p s.opc b ∧
    decodeWord p (sampleWord { s with lines := linesOf 0x200 }) = decodeRead p s.opc ∧
    decodeWord p (sampleWord { s with lines := linesOf 0x300 }) = .serrx ∧
    decodeWord p (sampleWord { s with lines := linesOf 0x000 }) = .intack ∧
    decodeWord p (sampleWord { s with lines := linesOf 0x100 }) = .intack

/-! The loop -/

/-- 40_bus_engine.md R62, R63, R64: with WAIT asserted, a step decodes the sampled lines with the stored opcode,
runs that instruction, and then ends the pass; the Host, parked, makes no move. The second and third clauses speak of
the Host in the form the model gives it, a list of moves taken before the pass, which is the model's choice (log 7,
log 13): with WAIT deasserted, a Host that starts a transaction asserts WAIT and its lines and the same pass handles it;
a Host that idles, or whose list is empty, leaves a pass that is its end alone. -/
def Obligations.StepRunsTheDecodedTransaction : Prop :=
  (∀ s : State, s.lines.wait = true →
    step s =
      match exec (decodeWord s.cfg (packDW s.lines.wr s.lines.rd s.lines.ad0 s.opc s.lines.data)) s with
      | .next t => .next (endPass t)
      | .fault r => .fault r
      | .refused r => .refused r) ∧
  (∀ (s : State) (tw : TW) (rest : List HostMove), s.lines.wait = false → s.host = .start tw :: rest →
    step s =
      step { s with
        host := rest
        lines := { wait := true, wr := tw.getLsbD 10, rd := tw.getLsbD 9, ad0 := tw.getLsbD 8,
                   data := tw.extractLsb' 0 8 } }) ∧
  (∀ s : State, s.lines.wait = false →
    (∀ rest, s.host = .idle :: rest → step s = .next (endPass { s with host := rest })) ∧
    (s.host = [] → step s = .next (endPass s)))

/-- 40_bus_engine.md R62, 60_exceptions.md R109: an idle pass with the tick disabled changes no field of the engine and
emits nothing. That the Host's list loses its idle move and that the Environment's moment goes up by one are the model's
choices (log 7, log 10). -/
def Obligations.IdlePassWithTickDisabled : Prop :=
  ∀ s : State, s.NotStuck → s.lines.wait = false → s.tickEn = false →
    (∀ rest, s.host = .idle :: rest →
      step s = .next { s with host := rest, env := { s.env with moment := s.env.moment + 1 } }) ∧
    (s.host = [] → step s = .next { s with env := { s.env with moment := s.env.moment + 1 } })

/-- 60_exceptions.md R109, R110, 40_bus_engine.md R62: the end of every pass, whatever is pending and whatever its
transaction did. With the tick enabled the time read is never before the last one; the tick fires exactly when more
than the interval has passed, and then only `lastTick`, `intOut`, `irqTick` and the trace change (with the Environment's
clock). With the tick disabled no time is read. The count of passes is the model's own (log 10). -/
def Obligations.TickFiresPastTheInterval : Prop :=
  (∀ (s : State) (δ : Nat) (f : Feed Nat), s.call.NotStuck → s.tickEn = true →
    s.env.timeIn.next Config.timeStep = (δ, f) →
    let env' := { s.call.env with
                    clock := s.env.clock + δ, timeIn := f, moment := s.env.moment + 1 }
    (s.env.clock + δ - s.lastTick > s.tickIv.toNat →
      endPass s = { s with
        env := env', lastTick := s.env.clock + δ, intOut := true, irqTick := true,
        trace := s.trace ++ [.int true] }) ∧
    (s.env.clock + δ - s.lastTick ≤ s.tickIv.toNat → endPass s = { s with env := env' })) ∧
  (∀ s : State, s.NotStuck → s.tickEn = false →
    endPass s = { s with env := { s.env with moment := s.env.moment + 1 } }) ∧
  (∀ s : State, s.lines.wait = false → s.host = [] → step s = .next (endPass s))

/-- 20_memory.md R49 (4), 60_exceptions.md R106 (5): what a pass does after its transaction changes only
`irqTick`, `lastTick`, `intOut` and the Environment's time, and emits at most the Int(1) event; of a stuck engine it
changes nothing. -/
def Obligations.TickTouchesOnlyItsFields : Prop :=
  ∀ s : State,
    (¬ s.NotStuck → endPass s = s) ∧
    (s.NotStuck →
      ∃ (irqTick intOut : Bool) (lastTick clock : Nat) (timeIn : Feed Nat) (l : Liveness)
        (events : List Event),
        (events = [] ∨ events = [.int true]) ∧
        endPass s = { s with
          irqTick := irqTick, intOut := intOut, lastTick := lastTick, trace := s.trace ++ events
          env := { s.env with
            clock := clock, timeIn := timeIn, liveness := l, moment := s.env.moment + 1 } })

/-! The transactions without an opcode -/

/-- 40_bus_engine.md R65, R70: STORE, decoded whatever RD and the stored opcode are. -/
def Obligations.StoreArmsTheOpcode : Prop :=
  ∀ (s : State) (d : Byte),
    (∀ (rd : Bool) (o : Byte), decodeWord s.cfg (packDW true rd true o d) = .store d) ∧
    (s.NotStuck →
      exec (.store d) s = .next (released { s with opc := d, cnt := 0 } [.waitReset]))

/-- 40_bus_engine.md R67, R71: SERRX gives the next serial byte, or 0xFF, and leaves the stored opcode and the
counter. -/
def Obligations.SerialReceiveKeepsTheSequence : Prop :=
  ∀ (s : State) (q : Option Byte) (f : Feed (Option Byte)),
    s.env.serialIn.next Config.serialPoll = (q, f) →
    (∀ o d : Byte, decodeWord s.cfg (packDW false true true o d) = .serrx) ∧
    (s.call.NotStuck →
      exec .serrx s =
        .next (readReleased { s with env := { s.call.env with serialIn := f } }
          (match q with
            | some b => b
            | none => 0xFF) []))

/-- 40_bus_engine.md R69: INTACK clears the line and nothing else, and releases the Host. -/
def Obligations.InterruptAcknowledgeClearsTheLine : Prop :=
  ∀ s : State,
    (∀ (a : Bool) (o d : Byte), decodeWord s.cfg (packDW false false a o d) = .intack) ∧
    (s.NotStuck →
      exec .intack s = .next (released { s with intOut := false } [.int false, .waitReset]))

/-- 41_dispatcher.md R75: an Execute exchange whose stored opcode is no key of its direction (OPC_NOP and every key
of the other direction among them) runs no handler: a write does nothing, a read gives 0x00, and the reset after
dispatch follows. -/
def Obligations.NoHandlerDoesNothing : Prop :=
  ∀ (s : State) (o d : Byte),
    (o ∉ s.cfg.op.writeKeys → decodeWrite s.cfg o d = .ewNone o d) ∧
    (o ∉ s.cfg.op.readKeys → decodeRead s.cfg o = .erNone o) ∧
    (s.cfg.Wf →
      s.cfg.op.nop ∉ s.cfg.op.writeKeys ∧ s.cfg.op.nop ∉ s.cfg.op.readKeys ∧
      (o ∈ s.cfg.op.readKeys → o ∉ s.cfg.op.writeKeys)) ∧
    (s.NotStuck →
      exec (.ewNone o d) s = .next (released { s with opc := opcAfterWrite s } [.waitReset]) ∧
      exec (.erNone o) s = .next (readReleased { s with opc := opcAfterRead s } 0x00 []))

/-! The dispatcher -/

/-- 41_dispatcher.md R76: after every Execute dispatch of the stored opcode the opcode is OPC_NOP, unless it is
one of the two armed opcodes of that direction; an armed opcode stays, unless its handler ended its sequence
(R96: cnt >= 511; R101: the seventh byte). A dispatch whose handler is stuck in a call (60_exceptions.md R116) has not
reached its reset. -/
def Obligations.NopResetAfterDispatch : Prop :=
  ∀ (s t : State) (d : Byte), s.cfg.Wf →
    (exec (decodeWrite s.cfg s.opc d) s = .next t → t.NotStuck →
      t.opc =
        if s.opc = s.cfg.op.seltrk then s.opc
        else if s.opc = s.cfg.op.wrtsct ∧ s.cnt.toNat < 511 then s.opc
        else s.cfg.op.nop) ∧
    (exec (decodeRead s.cfg s.opc) s = .next t → t.NotStuck →
      t.opc =
        if s.opc = s.cfg.op.datetime ∧ s.cnt.toNat < 6 then s.opc
        else if s.opc = s.cfg.op.rdsect ∧ s.cnt.toNat < 511 then s.opc
        else s.cfg.op.nop)

/-- 40_bus_engine.md R70, R71, R72: every handled transaction (all but one stuck in a call) emits exactly one WaitReset, last but for the tail
of a read release; before its release it emits no bus event, and afterwards WAIT is deasserted. A write and an
interrupt acknowledge leave the data bus and BUSREQ alone. -/
def Obligations.EveryTransactionReleasesTheHostOnce : Prop :=
  ∀ (i : Instr) (s t : State), exec i s = .next t → t.NotStuck →
    t.lines.wait = false ∧
    ∃ events : List Event,
      (∀ e ∈ events, e ≠ .waitReset ∧ e ≠ .hold ∧ (∀ v, e ≠ .busVal v) ∧ (∀ d, e ≠ .busDir d) ∧
        (∀ b, e ≠ .busReq b)) ∧
      ((i.phase = .storeOpcode ∨ i.phase = .executeWrite ∨ i.phase = .interrupt) →
        t.busReq = s.busReq ∧ t.busDir = s.busDir ∧ t.trace = s.trace ++ events ++ [.waitReset]) ∧
      ((i.phase = .executeRead ∨ i.phase = .serialRx) →
        t.busReq = false ∧ t.busDir = .input ∧
        t.trace = s.trace ++ events ++
          [.busVal t.busOut, .busDir .output, .busReq true, .waitReset, .hold, .busDir .input, .busReq false])

/-! Single-exchange opcodes -/

/-- 42_single_exchange.md R80, R81, R87: LED, SERTX and SPKR forward every payload as one event, and the collaborator
receives it, after what it received before (the list of it is the model's form, log 15). -/
def Obligations.PassthroughForwardsThePayload : Prop :=
  ∀ (s : State) (d : Byte),
    (s.cfg.Wf → ∀ rd : Bool,
      decodeWord s.cfg (packDW true rd false s.cfg.op.led d) = .led d ∧
      decodeWord s.cfg (packDW true rd false s.cfg.op.sertx d) = .sertx d ∧
      decodeWord s.cfg (packDW true rd false s.cfg.op.spkr d) = .spkr d) ∧
    (s.call.NotStuck →
      exec (.led d) s =
        .next (released
          { s with
            opc := opcAfterWrite s
            env := { s.call.env with devices := { s.env.devices with led := s.env.devices.led ++ [d] } } }
          [.led d, .waitReset]) ∧
      exec (.sertx d) s =
        .next (released
          { s with
            opc := opcAfterWrite s
            env := { s.call.env with
              devices := { s.env.devices with serialOut := s.env.devices.serialOut ++ [d] } } }
          [.serTx d, .waitReset]) ∧
      exec (.spkr d) s =
        .next (released
          { s with
            opc := opcAfterWrite s
            env := { s.call.env with devices := { s.env.devices with spkr := s.env.devices.spkr ++ [d] } } }
          [.spkr d, .waitReset]))

/-- 42_single_exchange.md R82: GPIOWR writes the register its opcode names, after the writes the expander received
before (the list of them is the model's form, log 15), or does nothing without the expander. -/
def Obligations.GpioWriteReachesThePresentExpander : Prop :=
  ∀ (s : State) (r : GpioReg) (o d : Byte),
    (s.cfg.Wf → (r, o) ∈ s.cfg.op.gpioWr →
      ∀ rd : Bool, decodeWord s.cfg (packDW true rd false o d) = .gpiowr r d) ∧
    (s.cfg.gpioPresent = true → s.call.NotStuck →
      exec (.gpiowr r d) s =
        .next (released
          { s with
            opc := opcAfterWrite s
            env := { s.call.env with
              devices := { s.env.devices with gpio := s.env.devices.gpio ++ [(r, d)] } } }
          [.gpioWr r d, .waitReset])) ∧
    (s.cfg.gpioPresent = false → s.NotStuck →
      exec (.gpiowr r d) s = .next (released { s with opc := opcAfterWrite s } [.waitReset]))

/-- 42_single_exchange.md R83: GPIORD gives the expander's byte, or 0x00 without the expander. -/
def Obligations.GpioReadGivesZeroWhenAbsent : Prop :=
  ∀ (s : State) (r : GpioReg) (o v : Byte) (f : Feed Byte),
    s.env.gpioIn.next Config.gpioByte = (v, f) →
    (s.cfg.Wf → (r, o) ∈ s.cfg.op.gpioRd →
      ∀ d : Byte, decodeWord s.cfg (packDW false true false o d) = .gpiord r) ∧
    (s.cfg.gpioPresent = true → s.call.NotStuck →
      exec (.gpiord r) s =
        .next (readReleased
          { s with opc := opcAfterRead s, env := { s.call.env with gpioIn := f } } v [.gpioRd r])) ∧
    (s.cfg.gpioPresent = false → s.NotStuck →
      exec (.gpiord r) s = .next (readReleased { s with opc := opcAfterRead s } 0x00 []))

/-- 42_single_exchange.md R84: BANK selects one of three banks in one event; a payload above 2 is ignored. -/
def Obligations.BankSelectIgnoresIllegalIds : Prop :=
  ∀ (s : State) (d : Byte),
    (s.cfg.Wf → ∀ rd : Bool, decodeWord s.cfg (packDW true rd false s.cfg.op.bank d) = .bank d) ∧
    (∀ b : Fin 3, d.toNat = b.val → s.call.NotStuck →
      exec (.bank d) s =
        .next (released { s.call with bank := b, opc := opcAfterWrite s }
          [.bank (bankLevels s.cfg.bankLines b).1 (bankLevels s.cfg.bankLines b).2, .waitReset])) ∧
    (2 < d.toNat → s.NotStuck →
      exec (.bank d) s = .next (released { s with opc := opcAfterWrite s } [.waitReset]))

/-- 42_single_exchange.md R85: IRQEN takes the tick enable from bit 1 of the payload and changes no other tick
state. -/
def Obligations.IrqEnableTakesBitOne : Prop :=
  ∀ (s : State) (d : Byte),
    (s.cfg.Wf → ∀ rd : Bool, decodeWord s.cfg (packDW true rd false s.cfg.op.irqen d) = .irqen d) ∧
    (s.NotStuck →
      exec (.irqen d) s =
        .next (released { s with tickEn := d.getLsbD 1, opc := opcAfterWrite s } [.waitReset]))

/-- 42_single_exchange.md R86: TICK sets the interval; a payload of 0 is ignored. -/
def Obligations.TickIntervalIgnoresZero : Prop :=
  ∀ (s : State) (d : Byte),
    (s.cfg.Wf → ∀ rd : Bool, decodeWord s.cfg (packDW true rd false s.cfg.op.tick d) = .tick d) ∧
    (0 < d.toNat → s.NotStuck →
      exec (.tick d) s =
        .next (released { s with tickIv := d, opc := opcAfterWrite s } [.waitReset])) ∧
    (d = 0 → s.NotStuck →
      exec (.tick d) s = .next (released { s with opc := opcAfterWrite s } [.waitReset]))

/-! Disk control -/

/-- 43_disk_control.md R89: the name is exactly six characters: D, S, the set's digit, N, and two digits of the
disk; different (set, disk) pairs have different names. -/
def Obligations.DiskNameHasSixCharacters : Prop :=
  (∀ (ds : Fin 6) (n : Byte), n.toNat ≤ 99 →
    ∃ a b c : Nat, a = ds.val ∧ b < 10 ∧ c < 10 ∧ n.toNat = 10 * b + c ∧
      diskName ds n =
        [0x44, 0x53, BitVec.ofNat 8 (0x30 + a), 0x4E, BitVec.ofNat 8 (0x30 + b),
          BitVec.ofNat 8 (0x30 + c)]) ∧
  (∀ (ds ds' : Fin 6) (n n' : Byte), n.toNat ≤ 99 → n'.toNat ≤ 99 → diskName ds n = diskName ds' n' →
    ds = ds' ∧ n = n')

/-- 43_disk_control.md R90: SELDSK opens the named file and records the code, or records 16 above 99 without a
storage access. -/
def Obligations.SelectDiskOpensTheNamedFile : Prop :=
  ∀ (s : State) (d : Byte) (c : StoreCode) (b : BlockStore),
    (s.cfg.Wf → ∀ rd : Bool, decodeWord s.cfg (packDW true rd false s.cfg.op.seldsk d) = .seldsk d) ∧
    (d.toNat ≤ 99 → s.env.bs.open (diskName s.cfg.diskSet d) = (c, b) → s.call.NotStuck →
      exec (.seldsk d) s =
        .next (released
          { s with
            dsk := d, err := BitVec.ofNat 8 c.val, opc := opcAfterWrite s
            env := { s.call.env with bs := b } }
          [.bsOpen (diskName s.cfg.diskSet d) (some c), .waitReset])) ∧
    (99 < d.toNat → s.NotStuck →
      exec (.seldsk d) s = .next (released { s with err := 16, opc := opcAfterWrite s } [.waitReset]))

/-- 43_disk_control.md R91, R88: SELTRK's low byte, then its high byte with the validation. -/
def Obligations.SelectTrackTakesTwoBytes : Prop :=
  ∀ (s : State) (d : Byte),
    (s.cfg.Wf → ∀ rd : Bool, decodeWord s.cfg (packDW true rd false s.cfg.op.seltrk d) = .seltrk d) ∧
    (s.cnt = 0 → s.NotStuck →
      exec (.seltrk d) s =
        .next (released { s with trk := d.setWidth 16, cnt := 1, opc := opcAfterWrite s } [.waitReset])) ∧
    (s.cnt ≠ 0 → s.NotStuck →
      let trk' : BitVec 16 := BitVec.ofNat 16 (256 * d.toNat + s.trk.toNat % 256)
      exec (.seltrk d) s =
        .next (released
          { s with
            trk := trk', cnt := 0, opc := opcAfterWrite s
            err := if 32 ≤ s.sec.toNat then 18 else if 512 ≤ trk'.toNat then 17 else 0 }
          [.waitReset]))

/-- 43_disk_control.md R92, R88: SELSCT records the sector and validates the combined address, the sector
first. -/
def Obligations.SelectSectorValidatesTheAddress : Prop :=
  ∀ (s : State) (d : Byte),
    (s.cfg.Wf → ∀ rd : Bool, decodeWord s.cfg (packDW true rd false s.cfg.op.selsct d) = .selsct d) ∧
    (s.NotStuck →
      exec (.selsct d) s =
        .next (released
          { s with
            sec := d, opc := opcAfterWrite s
            err := if 32 ≤ d.toNat then 18 else if 512 ≤ s.trk.toNat then 17 else 0 }
          [.waitReset]))

/-- 43_disk_control.md R93: ERRDISK returns the error code and leaves it; a second Execute-Read without a new Store
gives 0x00. -/
def Obligations.ErrorReadIsNondestructive : Prop :=
  ∀ s : State,
    (s.cfg.Wf → ∀ d : Byte,
      decodeWord s.cfg (packDW false true false s.cfg.op.errdisk d) = .errdisk) ∧
    (s.NotStuck →
      exec .errdisk s = .next (readReleased { s with opc := opcAfterRead s } s.err [])) ∧
    (s.cfg.Wf → s.NotStuck → s.opc = s.cfg.op.errdisk →
      ∃ t u : State, exec .errdisk s = .next t ∧ exec (decodeRead t.cfg t.opc) t = .next u ∧
        t.busOut = s.err ∧ u.busOut = 0x00 ∧ u.err = s.err)

/-- 20_memory.md R47: in range, the block is 32 t + s, a number below 16384, and different addresses have
different blocks. -/
def Obligations.BlockTranslationIsOneToOne : Prop :=
  (∀ (t : BitVec 16) (s : Byte), t.toNat < 512 → s.toNat < 32 →
    blockIndex t s = 32 * t.toNat + s.toNat ∧ blockIndex t s < 16384) ∧
  (∀ (t t' : BitVec 16) (s s' : Byte), t.toNat < 512 → s.toNat < 32 → t'.toNat < 512 → s'.toNat < 32 →
    blockIndex t s = blockIndex t' s' → t = t' ∧ s = s')

/-! Sector writes -/

/-- 44_disk_transfer.md R94, R96, R98: with an error latched, a WRTSCT payload is discarded without touching
storage, and the exchange is counted; the 512th ends the sequence. -/
def Obligations.WriteWithErrorLatchedDiscards : Prop :=
  ∀ (s : State) (d : Byte), s.NotStuck → s.err ≠ 0 →
    exec (.wrtsct d) s =
      .next (released
        { s with
          cnt := s.cnt + 1
          opc := if 511 ≤ s.cnt.toNat then s.cfg.op.nop else opcAfterWrite s }
        [.waitReset])

/-- 44_disk_transfer.md R94, R98: the first WRTSCT exchange seeks to the block and takes the byte, or records why
the address is illegal. -/
def Obligations.WriteStartSeeksOrRejects : Prop :=
  ∀ (s : State) (d : Byte), s.cnt = 0 → s.err = 0 →
    (∀ (c : StoreCode) (b : BlockStore), s.trk.toNat < 512 → s.sec.toNat < 32 →
      s.env.bs.seek (32 * s.trk.toNat + s.sec.toNat) = (c, b) → s.call.NotStuck →
      exec (.wrtsct d) s =
        .next (released
          { s with
            cnt := 1, err := BitVec.ofNat 8 c.val, opc := opcAfterWrite s
            buf := if c = 0 then s.buf.set 0 d else s.buf
            env := { s.call.env with bs := b } }
          [.bsSeek (32 * s.trk.toNat + s.sec.toNat) (some c), .waitReset])) ∧
    (¬ (s.trk.toNat < 512 ∧ s.sec.toNat < 32) → s.NotStuck →
      exec (.wrtsct d) s =
        .next (released
          { s with
            cnt := 1, err := if 32 ≤ s.sec.toNat then 18 else 17, opc := opcAfterWrite s }
          [.waitReset]))

/-- 44_disk_transfer.md R98, 20_memory.md R48: a WRTSCT byte inside a chunk goes to the buffer alone. -/
def Obligations.WriteInsideChunkOnlyBuffers : Prop :=
  ∀ (s : State) (d : Byte) (p : Fin 512), s.NotStuck → s.err = 0 → s.cnt ≠ 0 → s.cnt.toNat < 511 →
    p.val = s.cnt.toNat % 32 → p.val ≠ 31 →
    exec (.wrtsct d) s =
      .next (released
        { s with cnt := s.cnt + 1, buf := s.buf.set p.val d, opc := opcAfterWrite s } [.waitReset])

/-- 44_disk_transfer.md R97, R98: the byte that fills a chunk flushes 32 bytes; a nonzero code stands, a short
count is 19. -/
def Obligations.WriteFullChunkIsFlushed : Prop :=
  ∀ (s : State) (d : Byte) (c : StoreCode) (k : Nat) (b : BlockStore),
    s.call.NotStuck → s.err = 0 → s.cnt.toNat < 511 → s.cnt.toNat % 32 = 31 →
    s.env.bs.write ((s.buf.set 31 d).toList.take 32) = ((c, k), b) →
    exec (.wrtsct d) s =
      .next (released
        { s with
          cnt := s.cnt + 1, buf := s.buf.set 31 d, opc := opcAfterWrite s
          err := if c = 0 ∧ k < 32 then 19 else BitVec.ofNat 8 c.val
          env := { s.call.env with bs := b } }
        [.bsWrite ((s.buf.set 31 d).toList.take 32) (some (c, k)), .waitReset])

/-- 44_disk_transfer.md R96, R98: the 512th exchange flushes the last chunk, finalizes unless that failed, and
ends the sequence. -/
def Obligations.WriteEndFinalizesAndDisarms : Prop :=
  ∀ (s : State) (d : Byte) (c : StoreCode) (k : Nat) (b : BlockStore),
    s.Responsive → s.err = 0 → s.cnt.toNat = 511 →
    s.env.bs.write ((s.buf.set 31 d).toList.take 32) = ((c, k), b) →
    (c = 0 → 32 ≤ k →
      exec (.wrtsct d) s =
        .next (released
          { s with
            cnt := 512, buf := s.buf.set 31 d, opc := s.cfg.op.nop
            err := BitVec.ofNat 8 b.finalize.1.val, env := { s.env with bs := b.finalize.2 } }
          [.bsWrite ((s.buf.set 31 d).toList.take 32) (some (c, k)), .bsFinalize (some b.finalize.1),
            .waitReset])) ∧
    (¬ (c = 0 ∧ 32 ≤ k) →
      exec (.wrtsct d) s =
        .next (released
          { s with
            cnt := 512, buf := s.buf.set 31 d, opc := s.cfg.op.nop
            err := if c = 0 then 19 else BitVec.ofNat 8 c.val, env := { s.env with bs := b } }
          [.bsWrite ((s.buf.set 31 d).toList.take 32) (some (c, k)), .waitReset]))

/-! Sector reads -/

/-- 44_disk_transfer.md R94, R96, R99: with an error latched, RDSECT gives 0x00 without touching storage. -/
def Obligations.ReadWithErrorLatchedGivesZero : Prop :=
  ∀ s : State, s.NotStuck → s.err ≠ 0 →
    exec .rdsect s =
      .next (readReleased
        { s with
          cnt := s.cnt + 1
          opc := if 511 ≤ s.cnt.toNat then s.cfg.op.nop else opcAfterRead s }
        0x00 [])

/-- 44_disk_transfer.md R99: inside a chunk RDSECT serves the next byte of the buffer. -/
def Obligations.ReadInsideChunkServesTheBuffer : Prop :=
  ∀ (s : State) (p : Fin 512), s.NotStuck → s.err = 0 → p.val = s.cnt.toNat % 32 → p.val ≠ 0 →
    exec .rdsect s =
      .next (readReleased
        { s with
          cnt := s.cnt + 1
          opc := if 511 ≤ s.cnt.toNat then s.cfg.op.nop else opcAfterRead s }
        s.buf[p.val] [])

/-- 44_disk_transfer.md R97, R99: at a chunk start after the first, RDSECT pulls 32 bytes; a full chunk is
buffered and its first byte served, a failed or short one gives 0x00 and leaves the buffer. -/
def Obligations.ReadChunkStartPullsStorage : Prop :=
  ∀ (s : State) (c : StoreCode) (bytes : List Byte) (b : BlockStore),
    s.call.NotStuck → s.err = 0 → s.cnt ≠ 0 → s.cnt.toNat % 32 = 0 →
    s.env.bs.read 32 = ((c, bytes), b) →
    let opc' := if 511 ≤ s.cnt.toNat then s.cfg.op.nop else opcAfterRead s
    (c = 0 → bytes.length = 32 →
      exec .rdsect s =
        .next (readReleased
          { s with
            cnt := s.cnt + 1, opc := opc', env := { s.call.env with bs := b }
            buf := Vector.ofFn fun k => if k.val < 32 then bytes.getD k.val 0 else s.buf[k] }
          (bytes.getD 0 0) [.bsRead 32 (some (c, bytes))])) ∧
    (¬ (c = 0 ∧ bytes.length = 32) →
      exec .rdsect s =
        .next (readReleased
          { s with
            cnt := s.cnt + 1, opc := opc', env := { s.call.env with bs := b }
            err := if c = 0 then 19 else BitVec.ofNat 8 c.val }
          0x00 [.bsRead 32 (some (c, bytes))]))

/-- 44_disk_transfer.md R94, R99: the first RDSECT exchange seeks to the block and pulls the first chunk, or gives
0x00 after a failed seek or at an illegal address. -/
def Obligations.ReadStartSeeksThenPulls : Prop :=
  ∀ s : State, s.Responsive → s.cnt = 0 → s.err = 0 →
    (∀ (c c' : StoreCode) (bytes : List Byte) (b b' : BlockStore), s.trk.toNat < 512 → s.sec.toNat < 32 →
      s.env.bs.seek (32 * s.trk.toNat + s.sec.toNat) = (c, b) → b.read 32 = ((c', bytes), b') →
      (c ≠ 0 →
        exec .rdsect s =
          .next (readReleased
            { s with
              cnt := 1, err := BitVec.ofNat 8 c.val, opc := opcAfterRead s
              env := { s.env with bs := b } }
            0x00 [.bsSeek (32 * s.trk.toNat + s.sec.toNat) (some c)])) ∧
      (c = 0 → c' = 0 → bytes.length = 32 →
        exec .rdsect s =
          .next (readReleased
            { s with
              cnt := 1, opc := opcAfterRead s, env := { s.env with bs := b' }
              buf := Vector.ofFn fun k => if k.val < 32 then bytes.getD k.val 0 else s.buf[k] }
            (bytes.getD 0 0)
            [.bsSeek (32 * s.trk.toNat + s.sec.toNat) (some c), .bsRead 32 (some (c', bytes))])) ∧
      (c = 0 → ¬ (c' = 0 ∧ bytes.length = 32) →
        exec .rdsect s =
          .next (readReleased
            { s with
              cnt := 1, opc := opcAfterRead s, env := { s.env with bs := b' }
              err := if c' = 0 then 19 else BitVec.ofNat 8 c'.val }
            0x00 [.bsSeek (32 * s.trk.toNat + s.sec.toNat) (some c), .bsRead 32 (some (c', bytes))]))) ∧
    (¬ (s.trk.toNat < 512 ∧ s.sec.toNat < 32) →
      exec .rdsect s =
        .next (readReleased
          { s with cnt := 1, err := if 32 ≤ s.sec.toNat then 18 else 17, opc := opcAfterRead s } 0x00 []))

/-- 44_disk_transfer.md R100, 20_memory.md R43: with the reference BlockStore holding a well-formed image, 512 bytes
written at an address are the 512 bytes read back at it, and no error is left. The k-th byte written lies at byte
512 (32 t + s) + k of the open file, and every other byte of every file is as before. The two Stores start the
sequences. -/
def Obligations.SectorRoundTripReturnsTheBytes : Prop :=
  ∀ (s : State) (r : RefStore) (name : FileName) (f : DiskFile) (bytes : List Byte),
    s.cfg.Wf → s.Responsive → s.env.bs = .reference r → r.wf = true → r.cur = some name →
    r.file name = some f → f.length = 8388608 → s.trk.toNat < 512 → s.sec.toNat < 32 → s.err = 0 →
    bytes.length = 512 →
    ∃ t u v : State,
      execAll (.store s.cfg.op.wrtsct :: bytes.map Instr.wrtsct) s = .next t ∧
      t.err = 0 ∧ t.opc = s.cfg.op.nop ∧
      (∀ k < 512, t.env.bs.fileByte name (512 * (32 * s.trk.toNat + s.sec.toNat) + k) = bytes[k]?) ∧
      (∀ (n : FileName) (a : Nat),
        ¬ (n = name ∧ 512 * (32 * s.trk.toNat + s.sec.toNat) ≤ a ∧
          a < 512 * (32 * s.trk.toNat + s.sec.toNat) + 512) →
        t.env.bs.fileByte n a = s.env.bs.fileByte n a) ∧
      exec (.store s.cfg.op.rdsect) t = .next u ∧
      readAll 512 u = some (bytes, v) ∧ v.err = 0 ∧ v.opc = s.cfg.op.nop

/-! Date and time, status, IRQ status -/

/-- 45_datetime_status_irq.md R101: the first DATETIME byte refreshes the clock and gives the seconds; the next
six give the other fields without a refresh; the seventh ends the sequence. The refresh and each field read are calls
(00_scope.md R10; which call does not return is the model's field, log 8). -/
def Obligations.DatetimeGivesSevenBytes : Prop :=
  ∀ (s : State) (rtc : Rtc) (f : Feed Rtc), s.env.rtcIn.next Config.rtcFields = (rtc, f) →
    (s.cfg.Wf → ∀ d : Byte,
      decodeWord s.cfg (packDW false true false s.cfg.op.datetime d) = .datetime) ∧
    (s.cnt = 0 → s.call.call.NotStuck →
      exec .datetime s =
        .next (readReleased
          { s with cnt := 1, opc := opcAfterRead s, env := { s.call.call.env with rtc := rtc, rtcIn := f } }
          (BitVec.ofNat 8 rtc.seconds) [.rtcRefresh])) ∧
    (∀ k v : Nat,
      (k, v) ∈ [(1, s.env.rtc.minutes), (2, s.env.rtc.hours), (3, s.env.rtc.day), (4, s.env.rtc.month),
                (5, s.env.rtc.year), (6, s.env.rtc.temperature)] →
      s.cnt.toNat = k → s.call.NotStuck →
      exec .datetime s =
        .next (readReleased
          { s.call with cnt := s.cnt + 1, opc := if k = 6 then s.cfg.op.nop else opcAfterRead s }
          (BitVec.ofNat 8 v) [])) ∧
    (7 ≤ s.cnt.toNat → s.NotStuck →
      exec .datetime s = .next (readReleased { s with opc := s.cfg.op.nop } 0x00 []))

/-- 45_datetime_status_irq.md R102: STATUS gives STATUS_FN of the collaborators' present state (the Environment, the
bank lines, the expander's presence and the disk set; the form of it is the model's, log 10 and log 15) and has no side
effect. -/
def Obligations.StatusReadHasNoSideEffect : Prop :=
  ∀ s : State,
    (s.cfg.Wf → ∀ d : Byte,
      decodeWord s.cfg (packDW false true false s.cfg.op.status d) = .status) ∧
    (s.NotStuck →
      exec .status s =
        .next (readReleased { s with opc := opcAfterRead s }
          (Config.statusFn
            { env := s.env, bankLines := bankLevels s.cfg.bankLines s.bank,
              gpioPresent := s.cfg.gpioPresent, diskSet := s.cfg.diskSet }) []))

/-- 45_datetime_status_irq.md R103: IRQSTAT gives the tick bit in bit 1 and a draw in the others, and clears the
tick bit but not the INT line. -/
def Obligations.IrqStatusReadClearsTheTickBit : Prop :=
  ∀ (s : State) (x : Byte) (f : Feed Byte), s.env.irqBits.next Config.irqDraw = (x, f) →
    (s.cfg.Wf → ∀ d : Byte,
      decodeWord s.cfg (packDW false true false s.cfg.op.irqstat d) = .irqstat) ∧
    (s.NotStuck → ∃ v : Byte,
      v.getLsbD 1 = s.irqTick ∧ (∀ k < 8, k ≠ 1 → v.getLsbD k = x.getLsbD k) ∧
      exec .irqstat s =
        .next (readReleased
          { s with irqTick := false, opc := opcAfterRead s, env := { s.env with irqBits := f } } v []))

/-! Whole-machine rules -/

/-- 00_scope.md R12, 60_exceptions.md R104, 40_bus_engine.md R72: with collaborators that answer, every
transaction completes and releases the Host. -/
def Obligations.EveryTransactionCompletes : Prop :=
  ∀ (i : Instr) (s : State), s.Responsive →
    ∃ t, exec i s = .next t ∧ t.Responsive ∧ t.lines.wait = false

/-- 60_exceptions.md R116, 93_implementation_defined.md I17: once a collaborator call has not returned (`stalled`; that
this is a field of the Environment, and which calls it counts, is the model's choice, log 8) no transaction does
anything, every state survives, and a step is the Host's turn alone: nothing for a parked Host, and for one whose
transaction had been released (the call was now()) the start of the next, in which it is parked for good. A transaction
stuck in a call leaves the lines, WAIT among them, and the bus as they were and has emitted no event of a release.
70_reset_and_hazards.md R130: a Host parked by a stuck engine, or with a transaction still to come, has no end of run;
nor has one whose transaction gets stuck. Where every call returns, the run of every list of moves ends, with one
observation however many passes are looked at; and with the last transaction of the list pending, the run ends once that
transaction's release has been emitted, before the tick check of its pass, with the engine state, the trace and the
Environment of that moment as its observation (that the moment is before the tick check is deduced, log 17; that one
move is taken in a pass, and that the run of a list with no transaction has ended at its start, is the model's choice,
log 7, log 17). -/
def Obligations.StalledCallStopsTheEngine : Prop :=
  (∀ (i : Instr) (s : State), s.env.liveness = .stalled → exec i s = .next s) ∧
  (∀ s : State, s.env.liveness = .stalled → s.lines.wait = true → step s = .next s) ∧
  (∀ (s : State) (tw : TW) (rest : List HostMove), s.env.liveness = .stalled → s.lines.wait = false →
    s.host = .start tw :: rest →
    step s = .next { s with
      host := rest
      lines := { wait := true, wr := tw.getLsbD 10, rd := tw.getLsbD 9, ad0 := tw.getLsbD 8,
                 data := tw.extractLsb' 0 8 } }) ∧
  (∀ s : State, s.env.liveness = .stalled → s.lines.wait = false →
    (∀ rest, s.host = .idle :: rest → step s = .next { s with host := rest }) ∧
    (s.host = [] → step s = .next s)) ∧
  (∀ (i : Instr) (s t : State), exec i s = .next t → t.env.liveness = .stalled →
    t.lines = s.lines ∧ t.busReq = s.busReq ∧ t.busDir = s.busDir ∧ t.busOut = s.busOut ∧ t.host = s.host ∧
    ∃ events : List Event, t.trace = s.trace ++ events ∧
      ∀ e ∈ events, e ≠ .waitReset ∧ e ≠ .hold ∧ (∀ v, e ≠ .busVal v) ∧ (∀ d, e ≠ .busDir d) ∧
        (∀ b, e ≠ .busReq b)) ∧
  (∀ (n : Nat) (s : State), s.env.liveness = .stalled →
    (s.lines.wait = true ∨ ∃ tw, .start tw ∈ s.host) → observeRun n s = none) ∧
  (∀ (n : Nat) (s t : State), s.lines.wait = true →
    exec (decodeWord s.cfg (sampleWord s)) s = .next t → t.env.liveness = .stalled → observeRun n s = none) ∧
  (∀ s : State, s.Responsive → ∃ o, ∀ n, s.host.length < n → observeRun n s = some o) ∧
  (∀ (n : Nat) (s t : State), s.lines.wait = true → (∀ m ∈ s.host, m = .idle) →
    exec (decodeWord s.cfg (sampleWord s)) s = .next t → t.NotStuck →
    observeRun (n + 1) s = some { engine := t.engine, trace := t.trace, env := t.env })

/-- 60_exceptions.md R116, 93_implementation_defined.md I17, with the model's choices of log 8 (the next call is the one
that does not return: `stallsAfter 0`; its event is in the trace; a payload sent counts as received): where the call of
each single-exchange opcode, of SERRX and of DATETIME (the refresh, a field read, the first field read after its
refresh), and the call of now(), leaves the engine. A now() that does not
return keeps the whole effect of the transaction before it, its release included. -/
def Obligations.StalledSingleCallKeepsTheState : Prop :=
  (∀ s : State, s.env.liveness = .stallsAfter 0 →
    (∀ d : Byte,
      exec (.led d) s =
        .next (stalledAt
          { s with env := { s.env with devices := { s.env.devices with led := s.env.devices.led ++ [d] } } }
          [.led d]) ∧
      exec (.sertx d) s =
        .next (stalledAt
          { s with env := { s.env with
              devices := { s.env.devices with serialOut := s.env.devices.serialOut ++ [d] } } }
          [.serTx d]) ∧
      exec (.spkr d) s =
        .next (stalledAt
          { s with env := { s.env with devices := { s.env.devices with spkr := s.env.devices.spkr ++ [d] } } }
          [.spkr d])) ∧
    (∀ (d : Byte) (b : Fin 3), d.toNat = b.val →
      exec (.bank d) s =
        .next (stalledAt { s with bank := b }
          [.bank (bankLevels s.cfg.bankLines b).1 (bankLevels s.cfg.bankLines b).2])) ∧
    (s.cfg.gpioPresent = true → ∀ (r : GpioReg) (d : Byte),
      exec (.gpiowr r d) s =
        .next (stalledAt
          { s with env := { s.env with
              devices := { s.env.devices with gpio := s.env.devices.gpio ++ [(r, d)] } } }
          [.gpioWr r d]) ∧
      exec (.gpiord r) s = .next (stalledAt s [.gpioRd r])) ∧
    exec .serrx s = .next (stalledAt s []) ∧
    (s.cnt = 0 → exec .datetime s = .next (stalledAt s [.rtcRefresh])) ∧
    (0 < s.cnt.toNat → s.cnt.toNat < 7 → exec .datetime s = .next (stalledAt s [])) ∧
    (s.tickEn = true →
      endPass s = stalledAt { s with env := { s.env with moment := s.env.moment + 1 } } [])) ∧
  (∀ (s : State) (rtc : Rtc) (f : Feed Rtc), s.env.liveness = .stallsAfter 1 → s.cnt = 0 →
    s.env.rtcIn.next Config.rtcFields = (rtc, f) →
    exec .datetime s =
      .next (stalledAt { s with env := { s.env with rtc := rtc, rtcIn := f } } [.rtcRefresh]))

/-- 60_exceptions.md R116, 93_implementation_defined.md I17, with the model's choices of log 8 (`stallsAfter n`: the
call after the next n does not return; its event is in the trace, with no answer; a write that has not returned has
stored nothing): where a call to storage leaves the engine, for SELDSK's open, the seek of a first exchange, a chunk's
write and read, the first chunk's read after its seek, and the finalize. -/
def Obligations.StalledStorageCallKeepsTheState : Prop :=
  (∀ s : State, s.env.liveness = .stallsAfter 0 →
    (∀ d : Byte, d.toNat ≤ 99 →
      exec (.seldsk d) s = .next (stalledAt { s with dsk := d } [.bsOpen (diskName s.cfg.diskSet d) none])) ∧
    (s.err = 0 → s.cnt = 0 → s.trk.toNat < 512 → s.sec.toNat < 32 →
      (∀ d : Byte,
        exec (.wrtsct d) s = .next (stalledAt s [.bsSeek (32 * s.trk.toNat + s.sec.toNat) none])) ∧
      exec .rdsect s = .next (stalledAt s [.bsSeek (32 * s.trk.toNat + s.sec.toNat) none])) ∧
    (s.err = 0 → s.cnt.toNat % 32 = 31 → ∀ d : Byte,
      exec (.wrtsct d) s =
        .next (stalledAt { s with buf := s.buf.set 31 d }
          [.bsWrite ((s.buf.set 31 d).toList.take 32) none])) ∧
    (s.err = 0 → s.cnt ≠ 0 → s.cnt.toNat % 32 = 0 →
      exec .rdsect s = .next (stalledAt s [.bsRead 32 none]))) ∧
  (∀ s : State, s.env.liveness = .stallsAfter 1 → s.err = 0 →
    (∀ b : BlockStore, s.cnt = 0 → s.trk.toNat < 512 → s.sec.toNat < 32 →
      s.env.bs.seek (32 * s.trk.toNat + s.sec.toNat) = (0, b) →
      exec .rdsect s =
        .next (stalledAt { s with env := { s.env with bs := b } }
          [.bsSeek (32 * s.trk.toNat + s.sec.toNat) (some 0), .bsRead 32 none])) ∧
    (∀ (d : Byte) (k : Nat) (b : BlockStore), s.cnt.toNat = 511 → 32 ≤ k →
      s.env.bs.write ((s.buf.set 31 d).toList.take 32) = ((0, k), b) →
      exec (.wrtsct d) s =
        .next (stalledAt { s with buf := s.buf.set 31 d, env := { s.env with bs := b } }
          [.bsWrite ((s.buf.set 31 d).toList.take 32) (some (0, k)), .bsFinalize none])))

/-- 10_state.md R13: each field of the engine changes only by the transactions the table names as its writers
(the tick's own writes happen outside the transactions, R49 (4)); 42_single_exchange.md R80, R81, R82, R87,
45_datetime_status_irq.md R101: so does what each collaborator has received and what the clock shows, and Settings is
constant (60_exceptions.md R117). -/
def Obligations.OnlyTheNamedWritersChangeAField : Prop :=
  ∀ (i : Instr) (s t : State), exec i s = .next t →
    (t.opc ≠ s.opc → i.phase = .storeOpcode ∨ i.phase = .executeWrite ∨ i.phase = .executeRead) ∧
    (t.cnt ≠ s.cnt → (∃ d, i = .store d) ∨ (∃ d, i = .seltrk d) ∨ (∃ d, i = .wrtsct d) ∨ i = .rdsect ∨
      i = .datetime) ∧
    (t.err ≠ s.err → (∃ d, i = .seldsk d) ∨ (∃ d, i = .seltrk d) ∨ (∃ d, i = .selsct d) ∨
      (∃ d, i = .wrtsct d) ∨ i = .rdsect) ∧
    (t.trk ≠ s.trk → ∃ d, i = .seltrk d) ∧ (t.sec ≠ s.sec → ∃ d, i = .selsct d) ∧
    (t.dsk ≠ s.dsk → ∃ d, i = .seldsk d) ∧
    (t.buf ≠ s.buf → (∃ d, i = .wrtsct d) ∨ i = .rdsect) ∧
    (t.irqTick ≠ s.irqTick → i = .irqstat) ∧ (t.tickEn ≠ s.tickEn → ∃ d, i = .irqen d) ∧
    (t.tickIv ≠ s.tickIv → ∃ d, i = .tick d) ∧ t.lastTick = s.lastTick ∧
    (t.bank ≠ s.bank → ∃ d, i = .bank d) ∧ (t.intOut ≠ s.intOut → i = .intack) ∧
    (t.busReq ≠ s.busReq → i.phase = .executeRead ∨ i.phase = .serialRx) ∧
    (t.busDir ≠ s.busDir → i.phase = .executeRead ∨ i.phase = .serialRx) ∧
    (t.busOut ≠ s.busOut → i.phase = .executeRead ∨ i.phase = .serialRx) ∧
    (t.env.devices.led ≠ s.env.devices.led → ∃ d, i = .led d) ∧
    (t.env.devices.spkr ≠ s.env.devices.spkr → ∃ d, i = .spkr d) ∧
    (t.env.devices.serialOut ≠ s.env.devices.serialOut → ∃ d, i = .sertx d) ∧
    (t.env.devices.gpio ≠ s.env.devices.gpio → ∃ r d, i = .gpiowr r d) ∧
    (t.env.rtc ≠ s.env.rtc → i = .datetime) ∧ t.env.settings = s.env.settings ∧
    t.host = s.host ∧ t.cfg = s.cfg

/-- 10_state.md R19: a step leaves the disk error code as it was or at a value of R19's table. -/
def Obligations.NewErrorCodesAreLegal : Prop :=
  ∀ s t : State, step s = .next t → t.err = s.err ∨ t.err.toNat ≤ 6 ∨ (16 ≤ t.err.toNat ∧ t.err.toNat ≤ 19)

/-- 40_bus_engine.md R61: a step only appends to the trace. -/
def Obligations.TraceOnlyGrows : Prop :=
  ∀ s t : State, step s = .next t → ∃ events, t.trace = s.trace ++ events

/-- 10_state.md R22: nothing reads `dsk`: two states that differ in it alone step to outcomes that differ in it at
most. -/
def Obligations.DiskNumberIsNeverRead : Prop :=
  ∀ (s : State) (n : Byte), forgetDsk (step { s with dsk := n }) = forgetDsk (step s)

/-- 10_state.md R23: only bytes 0..31 of the buffer are ever written. -/
def Obligations.BufferTailIsNeverWritten : Prop :=
  ∀ (i : Instr) (s t : State), exec i s = .next t → ∀ k : Fin 512, 32 ≤ k.val → t.buf[k.val] = s.buf[k.val]

/-- 10_state.md R23: no transaction can observe a byte of the buffer that the current transfer has not first
written or filled: two states whose buffers agree on the bytes in use step to the same outcome, but for bytes no
longer in use. -/
def Obligations.UnfilledBufferBytesAreUnobservable : Prop :=
  ∀ (s : State) (b : Vector Byte 512), s.cfg.Wf → s.agreesOnLiveBytes b →
    sameButDeadBytes (step s) (step { s with buf := b })

/-- 41_dispatcher.md R78, 42_single_exchange.md R86, 60_exceptions.md R109, 40_bus_engine.md R71, 20_memory.md R42:
every step keeps the invariant, from every state that meets it. -/
def Obligations.EveryStepKeepsTheInvariant : Prop :=
  ∀ s t : State, s.Inv → step s = .next t → t.Inv

/-! Storage -/

/-- 20_memory.md R41: whatever answers, a read gives at most the bytes asked for, a write counts at most the bytes
sent, and a failure code is 1..6. R35 to R40, 43_disk_control.md R90: over the oracle, a successful open makes the file
current and resets the position, and after a failed one what is current is the oracle's answer; a successful seek sets the position to block * 512; a read and a
write move it on by their count; finalize moves nothing; and every call is kept with its answer (the list of calls, and
that the position after a failed open or seek is the oracle's, is the model's form, log 16). -/
def Obligations.StorageAnswersAreBounded : Prop :=
  (∀ (b : BlockStore) (n : Nat) (v : List Byte) (name : FileName),
    (b.read n).1.2.length ≤ n ∧ (b.write v).1.2 ≤ v.length ∧ (b.open name).1.val ≤ 6 ∧
    (b.seek n).1.val ≤ 6 ∧ (b.read n).1.1.val ≤ 6 ∧ (b.write v).1.1.val ≤ 6 ∧ b.finalize.1.val ≤ 6) ∧
  (∀ (o : OracleStore) (name : FileName) (block n : Nat) (v : List Byte),
    let kept (q : StoreRequest) (a : BsAnswer) : List StoreCall :=
      o.calls ++ [{ cur := o.cur, pos := o.pos, request := q, answer := a }]
    (∃ (a : BsAnswer) (f : Feed BsAnswer),
      (BlockStore.oracle o).open name =
        (a.code, .oracle {
          answers := f
          cur := if a.code = 0 then some name else a.cur
          pos := if a.code = 0 then 0 else a.pos
          calls := kept (.open name) a })) ∧
    (∃ (a : BsAnswer) (f : Feed BsAnswer),
      (BlockStore.oracle o).seek block =
        (a.code, .oracle {
          answers := f, cur := o.cur, pos := if a.code = 0 then block * 512 else a.pos
          calls := kept (.seek block) a })) ∧
    (∃ (a : BsAnswer) (f : Feed BsAnswer),
      (BlockStore.oracle o).read n =
        ((a.code, a.bytes), .oracle {
          answers := f, cur := o.cur, pos := o.pos + a.bytes.length, calls := kept (.read n) a })) ∧
    (∃ (a : BsAnswer) (f : Feed BsAnswer),
      (BlockStore.oracle o).write v =
        ((a.code, a.count), .oracle {
          answers := f, cur := o.cur, pos := o.pos + a.count, calls := kept (.write v) a })) ∧
    (∃ (a : BsAnswer) (f : Feed BsAnswer),
      (BlockStore.oracle o).finalize =
        (a.code, .oracle { answers := f, cur := o.cur, pos := o.pos, calls := kept .finalize a })))

/-- 20_memory.md R42, R35 to R40: the calls of the reference BlockStore. Opening a listed name makes it current at
position 0, an unlisted one leaves no current file and gives C_NOFILE. With no current file every other call gives
C_NOTOPEN and changes nothing. With a current file of L bytes, a seek to block b sets the position to min (b * 512) L; a
read of n gives the min n (L - pos) bytes from the position on; a write stores the first min (len v) (L - pos) bytes
there and nothing else; both advance the position by the count; finalize gives 0. -/
def Obligations.ReferenceStoreCallsDoAsTheSpecSays : Prop :=
  ∀ (r : RefStore) (name : FileName) (blk n : Nat) (v : List Byte),
    ((∃ f ∈ r.files, f.name = name) →
      (BlockStore.reference r).open name = (0, .reference { r with cur := some name, pos := 0 })) ∧
    ((∀ f ∈ r.files, f.name ≠ name) →
      (BlockStore.reference r).open name = (r.cNoFile.succ, .reference { r with cur := none })) ∧
    (r.cur = none →
      (BlockStore.reference r).seek blk = (r.cNotOpen.succ, .reference r) ∧
      (BlockStore.reference r).read n = ((r.cNotOpen.succ, []), .reference r) ∧
      (BlockStore.reference r).write v = ((r.cNotOpen.succ, 0), .reference r) ∧
      (BlockStore.reference r).finalize = (r.cNotOpen.succ, .reference r)) ∧
    (∀ f : DiskFile, r.cur = some name → r.file name = some f →
      (BlockStore.reference r).seek blk = (0, .reference { r with pos := min (blk * 512) f.length }) ∧
      (∃ bytes : List Byte,
        (BlockStore.reference r).read n =
          ((0, bytes), .reference { r with pos := r.pos + min n (f.length - r.pos) }) ∧
        bytes.length = min n (f.length - r.pos) ∧
        ∀ k < min n (f.length - r.pos),
          bytes[k]? = (BlockStore.reference r).fileByte name (r.pos + k)) ∧
      (r.wf = true → ∃ files : List DiskFile,
        (BlockStore.reference r).write v =
          ((0, min v.length (f.length - r.pos)),
            .reference { r with files := files, pos := r.pos + min v.length (f.length - r.pos) }) ∧
        ∀ (m : FileName) (a : Nat),
          (BlockStore.reference { r with files := files }).fileByte m a =
            if m = name ∧ r.pos ≤ a ∧ a < r.pos + min v.length (f.length - r.pos) then v[a - r.pos]?
            else (BlockStore.reference r).fileByte m a) ∧
      (BlockStore.reference r).finalize = (0, .reference r))

/-- 20_memory.md R32, R35, R42: a transaction that is no WRTSCT leaves every byte of every file. -/
def Obligations.OnlySectorWritesChangeFiles : Prop :=
  ∀ (i : Instr) (s t : State), (∀ d, i ≠ .wrtsct d) → exec i s = .next t →
    ∀ (name : FileName) (a : Nat), t.env.bs.fileByte name a = s.env.bs.fileByte name a

/-- 44_disk_transfer.md R98, 20_memory.md R42, R48: a WRTSCT exchange whose call returns stores only when it fills a chunk with no
error latched, and then exactly the chunk's bytes at the current position of the current file, as far as the file
reaches; every other byte of every file is unchanged. -/
def Obligations.SectorWriteStoresOnlyTheChunk : Prop :=
  ∀ (s t : State) (d : Byte) (r : RefStore), s.env.bs = .reference r → r.wf = true → s.call.NotStuck →
    exec (.wrtsct d) s = .next t →
    ∀ (name : FileName) (a : Nat),
      t.env.bs.fileByte name a =
        if s.err = 0 ∧ s.cnt.toNat % 32 = 31 ∧ r.cur = some name ∧ r.pos ≤ a ∧ a < r.pos + 32 ∧
            a < r.curLength then
          some (if a - r.pos = 31 then d else s.buf.toList.getD (a - r.pos) 0)
        else s.env.bs.fileByte name a

/-- 20_memory.md R42: a file never grows, shrinks or is renamed. -/
def Obligations.FilesKeepNamesAndLengths : Prop :=
  ∀ (i : Instr) (s t : State) (r : RefStore), s.env.bs = .reference r → exec i s = .next t →
    ∃ r' : RefStore, t.env.bs = .reference r' ∧
      r'.files.map (fun f => (f.name, f.length)) = r.files.map (fun f => (f.name, f.length)) ∧
      (r.wf = true → r'.wf = true)

end
end

