-- ==== Sys2Proof/Laws/State.lean ====
section
/-! SUPPORT. What each update of the state leaves in each field: one lemma per field and update. -/

namespace Sys2Proof.Machine

@[simp] theorem emit_opc (s : State) (e : Event) : (s.emit e).opc = s.opc := rfl
@[simp] theorem emit_cnt (s : State) (e : Event) : (s.emit e).cnt = s.cnt := rfl
@[simp] theorem emit_err (s : State) (e : Event) : (s.emit e).err = s.err := rfl
@[simp] theorem emit_trk (s : State) (e : Event) : (s.emit e).trk = s.trk := rfl
@[simp] theorem emit_sec (s : State) (e : Event) : (s.emit e).sec = s.sec := rfl
@[simp] theorem emit_dsk (s : State) (e : Event) : (s.emit e).dsk = s.dsk := rfl
@[simp] theorem emit_buf (s : State) (e : Event) : (s.emit e).buf = s.buf := rfl
@[simp] theorem emit_irqTick (s : State) (e : Event) : (s.emit e).irqTick = s.irqTick := rfl
@[simp] theorem emit_tickEn (s : State) (e : Event) : (s.emit e).tickEn = s.tickEn := rfl
@[simp] theorem emit_tickIv (s : State) (e : Event) : (s.emit e).tickIv = s.tickIv := rfl
@[simp] theorem emit_lastTick (s : State) (e : Event) : (s.emit e).lastTick = s.lastTick := rfl
@[simp] theorem emit_bank (s : State) (e : Event) : (s.emit e).bank = s.bank := rfl
@[simp] theorem emit_intOut (s : State) (e : Event) : (s.emit e).intOut = s.intOut := rfl
@[simp] theorem emit_busReq (s : State) (e : Event) : (s.emit e).busReq = s.busReq := rfl
@[simp] theorem emit_busDir (s : State) (e : Event) : (s.emit e).busDir = s.busDir := rfl
@[simp] theorem emit_busOut (s : State) (e : Event) : (s.emit e).busOut = s.busOut := rfl
@[simp] theorem emit_lines (s : State) (e : Event) : (s.emit e).lines = s.lines := rfl
@[simp] theorem emit_trace (s : State) (e : Event) : (s.emit e).trace = s.trace ++ [e] := rfl
@[simp] theorem emit_host (s : State) (e : Event) : (s.emit e).host = s.host := rfl
@[simp] theorem emit_env (s : State) (e : Event) : (s.emit e).env = s.env := rfl
@[simp] theorem emit_cfg (s : State) (e : Event) : (s.emit e).cfg = s.cfg := rfl

@[simp] theorem call_opc (s : State) : s.call.opc = s.opc := rfl
@[simp] theorem call_cnt (s : State) : s.call.cnt = s.cnt := rfl
@[simp] theorem call_err (s : State) : s.call.err = s.err := rfl
@[simp] theorem call_trk (s : State) : s.call.trk = s.trk := rfl
@[simp] theorem call_sec (s : State) : s.call.sec = s.sec := rfl
@[simp] theorem call_dsk (s : State) : s.call.dsk = s.dsk := rfl
@[simp] theorem call_buf (s : State) : s.call.buf = s.buf := rfl
@[simp] theorem call_irqTick (s : State) : s.call.irqTick = s.irqTick := rfl
@[simp] theorem call_tickEn (s : State) : s.call.tickEn = s.tickEn := rfl
@[simp] theorem call_tickIv (s : State) : s.call.tickIv = s.tickIv := rfl
@[simp] theorem call_lastTick (s : State) : s.call.lastTick = s.lastTick := rfl
@[simp] theorem call_bank (s : State) : s.call.bank = s.bank := rfl
@[simp] theorem call_intOut (s : State) : s.call.intOut = s.intOut := rfl
@[simp] theorem call_busReq (s : State) : s.call.busReq = s.busReq := rfl
@[simp] theorem call_busDir (s : State) : s.call.busDir = s.busDir := rfl
@[simp] theorem call_busOut (s : State) : s.call.busOut = s.busOut := rfl
@[simp] theorem call_lines (s : State) : s.call.lines = s.lines := rfl
@[simp] theorem call_trace (s : State) : s.call.trace = s.trace := rfl
@[simp] theorem call_host (s : State) : s.call.host = s.host := rfl
@[simp] theorem call_env (s : State) : s.call.env = { s.env with liveness := s.env.liveness.afterCall } := rfl
@[simp] theorem call_cfg (s : State) : s.call.cfg = s.cfg := rfl

@[simp] theorem send_opc (s : State) (e : Event) : (s.send e).opc = s.opc := rfl
@[simp] theorem send_cnt (s : State) (e : Event) : (s.send e).cnt = s.cnt := rfl
@[simp] theorem send_err (s : State) (e : Event) : (s.send e).err = s.err := rfl
@[simp] theorem send_trk (s : State) (e : Event) : (s.send e).trk = s.trk := rfl
@[simp] theorem send_sec (s : State) (e : Event) : (s.send e).sec = s.sec := rfl
@[simp] theorem send_dsk (s : State) (e : Event) : (s.send e).dsk = s.dsk := rfl
@[simp] theorem send_buf (s : State) (e : Event) : (s.send e).buf = s.buf := rfl
@[simp] theorem send_irqTick (s : State) (e : Event) : (s.send e).irqTick = s.irqTick := rfl
@[simp] theorem send_tickEn (s : State) (e : Event) : (s.send e).tickEn = s.tickEn := rfl
@[simp] theorem send_tickIv (s : State) (e : Event) : (s.send e).tickIv = s.tickIv := rfl
@[simp] theorem send_lastTick (s : State) (e : Event) : (s.send e).lastTick = s.lastTick := rfl
@[simp] theorem send_bank (s : State) (e : Event) : (s.send e).bank = s.bank := rfl
@[simp] theorem send_intOut (s : State) (e : Event) : (s.send e).intOut = s.intOut := rfl
@[simp] theorem send_busReq (s : State) (e : Event) : (s.send e).busReq = s.busReq := rfl
@[simp] theorem send_busDir (s : State) (e : Event) : (s.send e).busDir = s.busDir := rfl
@[simp] theorem send_busOut (s : State) (e : Event) : (s.send e).busOut = s.busOut := rfl
@[simp] theorem send_lines (s : State) (e : Event) : (s.send e).lines = s.lines := rfl
@[simp] theorem send_trace (s : State) (e : Event) : (s.send e).trace = s.trace ++ [e] := rfl
@[simp] theorem send_host (s : State) (e : Event) : (s.send e).host = s.host := rfl
@[simp] theorem send_env (s : State) (e : Event) : (s.send e).env = { s.env with liveness := s.env.liveness.afterCall } := rfl
@[simp] theorem send_cfg (s : State) (e : Event) : (s.send e).cfg = s.cfg := rfl

@[simp] theorem deliver_opc (s : State) (e : Event) (f : Devices → Devices) : (s.deliver e f).opc = s.opc := rfl
@[simp] theorem deliver_cnt (s : State) (e : Event) (f : Devices → Devices) : (s.deliver e f).cnt = s.cnt := rfl
@[simp] theorem deliver_err (s : State) (e : Event) (f : Devices → Devices) : (s.deliver e f).err = s.err := rfl
@[simp] theorem deliver_trk (s : State) (e : Event) (f : Devices → Devices) : (s.deliver e f).trk = s.trk := rfl
@[simp] theorem deliver_sec (s : State) (e : Event) (f : Devices → Devices) : (s.deliver e f).sec = s.sec := rfl
@[simp] theorem deliver_dsk (s : State) (e : Event) (f : Devices → Devices) : (s.deliver e f).dsk = s.dsk := rfl
@[simp] theorem deliver_buf (s : State) (e : Event) (f : Devices → Devices) : (s.deliver e f).buf = s.buf := rfl
@[simp] theorem deliver_irqTick (s : State) (e : Event) (f : Devices → Devices) : (s.deliver e f).irqTick = s.irqTick := rfl
@[simp] theorem deliver_tickEn (s : State) (e : Event) (f : Devices → Devices) : (s.deliver e f).tickEn = s.tickEn := rfl
@[simp] theorem deliver_tickIv (s : State) (e : Event) (f : Devices → Devices) : (s.deliver e f).tickIv = s.tickIv := rfl
@[simp] theorem deliver_lastTick (s : State) (e : Event) (f : Devices → Devices) : (s.deliver e f).lastTick = s.lastTick := rfl
@[simp] theorem deliver_bank (s : State) (e : Event) (f : Devices → Devices) : (s.deliver e f).bank = s.bank := rfl
@[simp] theorem deliver_intOut (s : State) (e : Event) (f : Devices → Devices) : (s.deliver e f).intOut = s.intOut := rfl
@[simp] theorem deliver_busReq (s : State) (e : Event) (f : Devices → Devices) : (s.deliver e f).busReq = s.busReq := rfl
@[simp] theorem deliver_busDir (s : State) (e : Event) (f : Devices → Devices) : (s.deliver e f).busDir = s.busDir := rfl
@[simp] theorem deliver_busOut (s : State) (e : Event) (f : Devices → Devices) : (s.deliver e f).busOut = s.busOut := rfl
@[simp] theorem deliver_lines (s : State) (e : Event) (f : Devices → Devices) : (s.deliver e f).lines = s.lines := rfl
@[simp] theorem deliver_trace (s : State) (e : Event) (f : Devices → Devices) : (s.deliver e f).trace = s.trace ++ [e] := rfl
@[simp] theorem deliver_host (s : State) (e : Event) (f : Devices → Devices) : (s.deliver e f).host = s.host := rfl
@[simp] theorem deliver_env (s : State) (e : Event) (f : Devices → Devices) : (s.deliver e f).env = { s.env with liveness := s.env.liveness.afterCall, devices := f s.env.devices } := rfl
@[simp] theorem deliver_cfg (s : State) (e : Event) (f : Devices → Devices) : (s.deliver e f).cfg = s.cfg := rfl

@[simp] theorem waitReset_opc (s : State) : (waitReset s).opc = s.opc := rfl
@[simp] theorem waitReset_cnt (s : State) : (waitReset s).cnt = s.cnt := rfl
@[simp] theorem waitReset_err (s : State) : (waitReset s).err = s.err := rfl
@[simp] theorem waitReset_trk (s : State) : (waitReset s).trk = s.trk := rfl
@[simp] theorem waitReset_sec (s : State) : (waitReset s).sec = s.sec := rfl
@[simp] theorem waitReset_dsk (s : State) : (waitReset s).dsk = s.dsk := rfl
@[simp] theorem waitReset_buf (s : State) : (waitReset s).buf = s.buf := rfl
@[simp] theorem waitReset_irqTick (s : State) : (waitReset s).irqTick = s.irqTick := rfl
@[simp] theorem waitReset_tickEn (s : State) : (waitReset s).tickEn = s.tickEn := rfl
@[simp] theorem waitReset_tickIv (s : State) : (waitReset s).tickIv = s.tickIv := rfl
@[simp] theorem waitReset_lastTick (s : State) : (waitReset s).lastTick = s.lastTick := rfl
@[simp] theorem waitReset_bank (s : State) : (waitReset s).bank = s.bank := rfl
@[simp] theorem waitReset_intOut (s : State) : (waitReset s).intOut = s.intOut := rfl
@[simp] theorem waitReset_busReq (s : State) : (waitReset s).busReq = s.busReq := rfl
@[simp] theorem waitReset_busDir (s : State) : (waitReset s).busDir = s.busDir := rfl
@[simp] theorem waitReset_busOut (s : State) : (waitReset s).busOut = s.busOut := rfl
@[simp] theorem waitReset_lines (s : State) : (waitReset s).lines = { s.lines with wait := false } := rfl
@[simp] theorem waitReset_trace (s : State) : (waitReset s).trace = s.trace ++ [.waitReset] := rfl
@[simp] theorem waitReset_host (s : State) : (waitReset s).host = s.host := rfl
@[simp] theorem waitReset_env (s : State) : (waitReset s).env = s.env := rfl
@[simp] theorem waitReset_cfg (s : State) : (waitReset s).cfg = s.cfg := rfl

@[simp] theorem postWriteReset_opc (s : State) : (postWriteReset s).opc = if armedWrite s.cfg s.opc then s.opc else s.cfg.op.nop := rfl
@[simp] theorem postWriteReset_cnt (s : State) : (postWriteReset s).cnt = s.cnt := rfl
@[simp] theorem postWriteReset_err (s : State) : (postWriteReset s).err = s.err := rfl
@[simp] theorem postWriteReset_trk (s : State) : (postWriteReset s).trk = s.trk := rfl
@[simp] theorem postWriteReset_sec (s : State) : (postWriteReset s).sec = s.sec := rfl
@[simp] theorem postWriteReset_dsk (s : State) : (postWriteReset s).dsk = s.dsk := rfl
@[simp] theorem postWriteReset_buf (s : State) : (postWriteReset s).buf = s.buf := rfl
@[simp] theorem postWriteReset_irqTick (s : State) : (postWriteReset s).irqTick = s.irqTick := rfl
@[simp] theorem postWriteReset_tickEn (s : State) : (postWriteReset s).tickEn = s.tickEn := rfl
@[simp] theorem postWriteReset_tickIv (s : State) : (postWriteReset s).tickIv = s.tickIv := rfl
@[simp] theorem postWriteReset_lastTick (s : State) : (postWriteReset s).lastTick = s.lastTick := rfl
@[simp] theorem postWriteReset_bank (s : State) : (postWriteReset s).bank = s.bank := rfl
@[simp] theorem postWriteReset_intOut (s : State) : (postWriteReset s).intOut = s.intOut := rfl
@[simp] theorem postWriteReset_busReq (s : State) : (postWriteReset s).busReq = s.busReq := rfl
@[simp] theorem postWriteReset_busDir (s : State) : (postWriteReset s).busDir = s.busDir := rfl
@[simp] theorem postWriteReset_busOut (s : State) : (postWriteReset s).busOut = s.busOut := rfl
@[simp] theorem postWriteReset_lines (s : State) : (postWriteReset s).lines = s.lines := rfl
@[simp] theorem postWriteReset_trace (s : State) : (postWriteReset s).trace = s.trace := rfl
@[simp] theorem postWriteReset_host (s : State) : (postWriteReset s).host = s.host := rfl
@[simp] theorem postWriteReset_env (s : State) : (postWriteReset s).env = s.env := rfl
@[simp] theorem postWriteReset_cfg (s : State) : (postWriteReset s).cfg = s.cfg := rfl

@[simp] theorem postReadReset_opc (s : State) : (postReadReset s).opc = if armedRead s.cfg s.opc then s.opc else s.cfg.op.nop := rfl
@[simp] theorem postReadReset_cnt (s : State) : (postReadReset s).cnt = s.cnt := rfl
@[simp] theorem postReadReset_err (s : State) : (postReadReset s).err = s.err := rfl
@[simp] theorem postReadReset_trk (s : State) : (postReadReset s).trk = s.trk := rfl
@[simp] theorem postReadReset_sec (s : State) : (postReadReset s).sec = s.sec := rfl
@[simp] theorem postReadReset_dsk (s : State) : (postReadReset s).dsk = s.dsk := rfl
@[simp] theorem postReadReset_buf (s : State) : (postReadReset s).buf = s.buf := rfl
@[simp] theorem postReadReset_irqTick (s : State) : (postReadReset s).irqTick = s.irqTick := rfl
@[simp] theorem postReadReset_tickEn (s : State) : (postReadReset s).tickEn = s.tickEn := rfl
@[simp] theorem postReadReset_tickIv (s : State) : (postReadReset s).tickIv = s.tickIv := rfl
@[simp] theorem postReadReset_lastTick (s : State) : (postReadReset s).lastTick = s.lastTick := rfl
@[simp] theorem postReadReset_bank (s : State) : (postReadReset s).bank = s.bank := rfl
@[simp] theorem postReadReset_intOut (s : State) : (postReadReset s).intOut = s.intOut := rfl
@[simp] theorem postReadReset_busReq (s : State) : (postReadReset s).busReq = s.busReq := rfl
@[simp] theorem postReadReset_busDir (s : State) : (postReadReset s).busDir = s.busDir := rfl
@[simp] theorem postReadReset_busOut (s : State) : (postReadReset s).busOut = s.busOut := rfl
@[simp] theorem postReadReset_lines (s : State) : (postReadReset s).lines = s.lines := rfl
@[simp] theorem postReadReset_trace (s : State) : (postReadReset s).trace = s.trace := rfl
@[simp] theorem postReadReset_host (s : State) : (postReadReset s).host = s.host := rfl
@[simp] theorem postReadReset_env (s : State) : (postReadReset s).env = s.env := rfl
@[simp] theorem postReadReset_cfg (s : State) : (postReadReset s).cfg = s.cfg := rfl

@[simp] theorem released_opc (s : State) (es : List Event) : (released s es).opc = s.opc := rfl
@[simp] theorem released_cnt (s : State) (es : List Event) : (released s es).cnt = s.cnt := rfl
@[simp] theorem released_err (s : State) (es : List Event) : (released s es).err = s.err := rfl
@[simp] theorem released_trk (s : State) (es : List Event) : (released s es).trk = s.trk := rfl
@[simp] theorem released_sec (s : State) (es : List Event) : (released s es).sec = s.sec := rfl
@[simp] theorem released_dsk (s : State) (es : List Event) : (released s es).dsk = s.dsk := rfl
@[simp] theorem released_buf (s : State) (es : List Event) : (released s es).buf = s.buf := rfl
@[simp] theorem released_irqTick (s : State) (es : List Event) : (released s es).irqTick = s.irqTick := rfl
@[simp] theorem released_tickEn (s : State) (es : List Event) : (released s es).tickEn = s.tickEn := rfl
@[simp] theorem released_tickIv (s : State) (es : List Event) : (released s es).tickIv = s.tickIv := rfl
@[simp] theorem released_lastTick (s : State) (es : List Event) : (released s es).lastTick = s.lastTick := rfl
@[simp] theorem released_bank (s : State) (es : List Event) : (released s es).bank = s.bank := rfl
@[simp] theorem released_intOut (s : State) (es : List Event) : (released s es).intOut = s.intOut := rfl
@[simp] theorem released_busReq (s : State) (es : List Event) : (released s es).busReq = s.busReq := rfl
@[simp] theorem released_busDir (s : State) (es : List Event) : (released s es).busDir = s.busDir := rfl
@[simp] theorem released_busOut (s : State) (es : List Event) : (released s es).busOut = s.busOut := rfl
@[simp] theorem released_lines (s : State) (es : List Event) : (released s es).lines = { s.lines with wait := false } := rfl
@[simp] theorem released_trace (s : State) (es : List Event) : (released s es).trace = s.trace ++ es := rfl
@[simp] theorem released_host (s : State) (es : List Event) : (released s es).host = s.host := rfl
@[simp] theorem released_env (s : State) (es : List Event) : (released s es).env = s.env := rfl
@[simp] theorem released_cfg (s : State) (es : List Event) : (released s es).cfg = s.cfg := rfl

@[simp] theorem readReleased_opc (s : State) (v : Byte) (es : List Event) : (readReleased s v es).opc = s.opc := rfl
@[simp] theorem readReleased_cnt (s : State) (v : Byte) (es : List Event) : (readReleased s v es).cnt = s.cnt := rfl
@[simp] theorem readReleased_err (s : State) (v : Byte) (es : List Event) : (readReleased s v es).err = s.err := rfl
@[simp] theorem readReleased_trk (s : State) (v : Byte) (es : List Event) : (readReleased s v es).trk = s.trk := rfl
@[simp] theorem readReleased_sec (s : State) (v : Byte) (es : List Event) : (readReleased s v es).sec = s.sec := rfl
@[simp] theorem readReleased_dsk (s : State) (v : Byte) (es : List Event) : (readReleased s v es).dsk = s.dsk := rfl
@[simp] theorem readReleased_buf (s : State) (v : Byte) (es : List Event) : (readReleased s v es).buf = s.buf := rfl
@[simp] theorem readReleased_irqTick (s : State) (v : Byte) (es : List Event) : (readReleased s v es).irqTick = s.irqTick := rfl
@[simp] theorem readReleased_tickEn (s : State) (v : Byte) (es : List Event) : (readReleased s v es).tickEn = s.tickEn := rfl
@[simp] theorem readReleased_tickIv (s : State) (v : Byte) (es : List Event) : (readReleased s v es).tickIv = s.tickIv := rfl
@[simp] theorem readReleased_lastTick (s : State) (v : Byte) (es : List Event) : (readReleased s v es).lastTick = s.lastTick := rfl
@[simp] theorem readReleased_bank (s : State) (v : Byte) (es : List Event) : (readReleased s v es).bank = s.bank := rfl
@[simp] theorem readReleased_intOut (s : State) (v : Byte) (es : List Event) : (readReleased s v es).intOut = s.intOut := rfl
@[simp] theorem readReleased_busReq (s : State) (v : Byte) (es : List Event) : (readReleased s v es).busReq = false := rfl
@[simp] theorem readReleased_busDir (s : State) (v : Byte) (es : List Event) : (readReleased s v es).busDir = .input := rfl
@[simp] theorem readReleased_busOut (s : State) (v : Byte) (es : List Event) : (readReleased s v es).busOut = v := rfl
@[simp] theorem readReleased_lines (s : State) (v : Byte) (es : List Event) : (readReleased s v es).lines = { s.lines with wait := false } := rfl
@[simp] theorem readReleased_trace (s : State) (v : Byte) (es : List Event) : (readReleased s v es).trace = s.trace ++ es ++ readRelease v := rfl
@[simp] theorem readReleased_host (s : State) (v : Byte) (es : List Event) : (readReleased s v es).host = s.host := rfl
@[simp] theorem readReleased_env (s : State) (v : Byte) (es : List Event) : (readReleased s v es).env = s.env := rfl
@[simp] theorem readReleased_cfg (s : State) (v : Byte) (es : List Event) : (readReleased s v es).cfg = s.cfg := rfl

@[simp] theorem withBs_opc (s : State) (b : BlockStore) : (s.withBs b).opc = s.opc := rfl
@[simp] theorem withBs_cnt (s : State) (b : BlockStore) : (s.withBs b).cnt = s.cnt := rfl
@[simp] theorem withBs_err (s : State) (b : BlockStore) : (s.withBs b).err = s.err := rfl
@[simp] theorem withBs_trk (s : State) (b : BlockStore) : (s.withBs b).trk = s.trk := rfl
@[simp] theorem withBs_sec (s : State) (b : BlockStore) : (s.withBs b).sec = s.sec := rfl
@[simp] theorem withBs_dsk (s : State) (b : BlockStore) : (s.withBs b).dsk = s.dsk := rfl
@[simp] theorem withBs_buf (s : State) (b : BlockStore) : (s.withBs b).buf = s.buf := rfl
@[simp] theorem withBs_irqTick (s : State) (b : BlockStore) : (s.withBs b).irqTick = s.irqTick := rfl
@[simp] theorem withBs_tickEn (s : State) (b : BlockStore) : (s.withBs b).tickEn = s.tickEn := rfl
@[simp] theorem withBs_tickIv (s : State) (b : BlockStore) : (s.withBs b).tickIv = s.tickIv := rfl
@[simp] theorem withBs_lastTick (s : State) (b : BlockStore) : (s.withBs b).lastTick = s.lastTick := rfl
@[simp] theorem withBs_bank (s : State) (b : BlockStore) : (s.withBs b).bank = s.bank := rfl
@[simp] theorem withBs_intOut (s : State) (b : BlockStore) : (s.withBs b).intOut = s.intOut := rfl
@[simp] theorem withBs_busReq (s : State) (b : BlockStore) : (s.withBs b).busReq = s.busReq := rfl
@[simp] theorem withBs_busDir (s : State) (b : BlockStore) : (s.withBs b).busDir = s.busDir := rfl
@[simp] theorem withBs_busOut (s : State) (b : BlockStore) : (s.withBs b).busOut = s.busOut := rfl
@[simp] theorem withBs_lines (s : State) (b : BlockStore) : (s.withBs b).lines = s.lines := rfl
@[simp] theorem withBs_trace (s : State) (b : BlockStore) : (s.withBs b).trace = s.trace := rfl
@[simp] theorem withBs_host (s : State) (b : BlockStore) : (s.withBs b).host = s.host := rfl
@[simp] theorem withBs_env (s : State) (b : BlockStore) : (s.withBs b).env = { s.env with bs := b } := rfl
@[simp] theorem withBs_cfg (s : State) (b : BlockStore) : (s.withBs b).cfg = s.cfg := rfl

@[simp] theorem validate_opc (s : State) : (validate s).opc = s.opc := rfl
@[simp] theorem validate_cnt (s : State) : (validate s).cnt = s.cnt := rfl
@[simp] theorem validate_err (s : State) : (validate s).err = addressCode s.trk s.sec := rfl
@[simp] theorem validate_trk (s : State) : (validate s).trk = s.trk := rfl
@[simp] theorem validate_sec (s : State) : (validate s).sec = s.sec := rfl
@[simp] theorem validate_dsk (s : State) : (validate s).dsk = s.dsk := rfl
@[simp] theorem validate_buf (s : State) : (validate s).buf = s.buf := rfl
@[simp] theorem validate_irqTick (s : State) : (validate s).irqTick = s.irqTick := rfl
@[simp] theorem validate_tickEn (s : State) : (validate s).tickEn = s.tickEn := rfl
@[simp] theorem validate_tickIv (s : State) : (validate s).tickIv = s.tickIv := rfl
@[simp] theorem validate_lastTick (s : State) : (validate s).lastTick = s.lastTick := rfl
@[simp] theorem validate_bank (s : State) : (validate s).bank = s.bank := rfl
@[simp] theorem validate_intOut (s : State) : (validate s).intOut = s.intOut := rfl
@[simp] theorem validate_busReq (s : State) : (validate s).busReq = s.busReq := rfl
@[simp] theorem validate_busDir (s : State) : (validate s).busDir = s.busDir := rfl
@[simp] theorem validate_busOut (s : State) : (validate s).busOut = s.busOut := rfl
@[simp] theorem validate_lines (s : State) : (validate s).lines = s.lines := rfl
@[simp] theorem validate_trace (s : State) : (validate s).trace = s.trace := rfl
@[simp] theorem validate_host (s : State) : (validate s).host = s.host := rfl
@[simp] theorem validate_env (s : State) : (validate s).env = s.env := rfl
@[simp] theorem validate_cfg (s : State) : (validate s).cfg = s.cfg := rfl

@[simp] theorem endSequence_opc (s : State) : (endSequence s).opc = s.cfg.op.nop := rfl
@[simp] theorem endSequence_cnt (s : State) : (endSequence s).cnt = s.cnt := rfl
@[simp] theorem endSequence_err (s : State) : (endSequence s).err = s.err := rfl
@[simp] theorem endSequence_trk (s : State) : (endSequence s).trk = s.trk := rfl
@[simp] theorem endSequence_sec (s : State) : (endSequence s).sec = s.sec := rfl
@[simp] theorem endSequence_dsk (s : State) : (endSequence s).dsk = s.dsk := rfl
@[simp] theorem endSequence_buf (s : State) : (endSequence s).buf = s.buf := rfl
@[simp] theorem endSequence_irqTick (s : State) : (endSequence s).irqTick = s.irqTick := rfl
@[simp] theorem endSequence_tickEn (s : State) : (endSequence s).tickEn = s.tickEn := rfl
@[simp] theorem endSequence_tickIv (s : State) : (endSequence s).tickIv = s.tickIv := rfl
@[simp] theorem endSequence_lastTick (s : State) : (endSequence s).lastTick = s.lastTick := rfl
@[simp] theorem endSequence_bank (s : State) : (endSequence s).bank = s.bank := rfl
@[simp] theorem endSequence_intOut (s : State) : (endSequence s).intOut = s.intOut := rfl
@[simp] theorem endSequence_busReq (s : State) : (endSequence s).busReq = s.busReq := rfl
@[simp] theorem endSequence_busDir (s : State) : (endSequence s).busDir = s.busDir := rfl
@[simp] theorem endSequence_busOut (s : State) : (endSequence s).busOut = s.busOut := rfl
@[simp] theorem endSequence_lines (s : State) : (endSequence s).lines = s.lines := rfl
@[simp] theorem endSequence_trace (s : State) : (endSequence s).trace = s.trace := rfl
@[simp] theorem endSequence_host (s : State) : (endSequence s).host = s.host := rfl
@[simp] theorem endSequence_env (s : State) : (endSequence s).env = s.env := rfl
@[simp] theorem endSequence_cfg (s : State) : (endSequence s).cfg = s.cfg := rfl

@[simp] theorem countExchange_opc (s : State) : (countExchange s).opc = s.opc := rfl
@[simp] theorem countExchange_cnt (s : State) : (countExchange s).cnt = s.cnt + 1 := rfl
@[simp] theorem countExchange_err (s : State) : (countExchange s).err = s.err := rfl
@[simp] theorem countExchange_trk (s : State) : (countExchange s).trk = s.trk := rfl
@[simp] theorem countExchange_sec (s : State) : (countExchange s).sec = s.sec := rfl
@[simp] theorem countExchange_dsk (s : State) : (countExchange s).dsk = s.dsk := rfl
@[simp] theorem countExchange_buf (s : State) : (countExchange s).buf = s.buf := rfl
@[simp] theorem countExchange_irqTick (s : State) : (countExchange s).irqTick = s.irqTick := rfl
@[simp] theorem countExchange_tickEn (s : State) : (countExchange s).tickEn = s.tickEn := rfl
@[simp] theorem countExchange_tickIv (s : State) : (countExchange s).tickIv = s.tickIv := rfl
@[simp] theorem countExchange_lastTick (s : State) : (countExchange s).lastTick = s.lastTick := rfl
@[simp] theorem countExchange_bank (s : State) : (countExchange s).bank = s.bank := rfl
@[simp] theorem countExchange_intOut (s : State) : (countExchange s).intOut = s.intOut := rfl
@[simp] theorem countExchange_busReq (s : State) : (countExchange s).busReq = s.busReq := rfl
@[simp] theorem countExchange_busDir (s : State) : (countExchange s).busDir = s.busDir := rfl
@[simp] theorem countExchange_busOut (s : State) : (countExchange s).busOut = s.busOut := rfl
@[simp] theorem countExchange_lines (s : State) : (countExchange s).lines = s.lines := rfl
@[simp] theorem countExchange_trace (s : State) : (countExchange s).trace = s.trace := rfl
@[simp] theorem countExchange_host (s : State) : (countExchange s).host = s.host := rfl
@[simp] theorem countExchange_env (s : State) : (countExchange s).env = s.env := rfl
@[simp] theorem countExchange_cfg (s : State) : (countExchange s).cfg = s.cfg := rfl

@[simp] theorem stalledAt_opc (s : State) (es : List Event) : (stalledAt s es).opc = s.opc := rfl
@[simp] theorem stalledAt_cnt (s : State) (es : List Event) : (stalledAt s es).cnt = s.cnt := rfl
@[simp] theorem stalledAt_err (s : State) (es : List Event) : (stalledAt s es).err = s.err := rfl
@[simp] theorem stalledAt_trk (s : State) (es : List Event) : (stalledAt s es).trk = s.trk := rfl
@[simp] theorem stalledAt_sec (s : State) (es : List Event) : (stalledAt s es).sec = s.sec := rfl
@[simp] theorem stalledAt_dsk (s : State) (es : List Event) : (stalledAt s es).dsk = s.dsk := rfl
@[simp] theorem stalledAt_buf (s : State) (es : List Event) : (stalledAt s es).buf = s.buf := rfl
@[simp] theorem stalledAt_irqTick (s : State) (es : List Event) : (stalledAt s es).irqTick = s.irqTick := rfl
@[simp] theorem stalledAt_tickEn (s : State) (es : List Event) : (stalledAt s es).tickEn = s.tickEn := rfl
@[simp] theorem stalledAt_tickIv (s : State) (es : List Event) : (stalledAt s es).tickIv = s.tickIv := rfl
@[simp] theorem stalledAt_lastTick (s : State) (es : List Event) : (stalledAt s es).lastTick = s.lastTick := rfl
@[simp] theorem stalledAt_bank (s : State) (es : List Event) : (stalledAt s es).bank = s.bank := rfl
@[simp] theorem stalledAt_intOut (s : State) (es : List Event) : (stalledAt s es).intOut = s.intOut := rfl
@[simp] theorem stalledAt_busReq (s : State) (es : List Event) : (stalledAt s es).busReq = s.busReq := rfl
@[simp] theorem stalledAt_busDir (s : State) (es : List Event) : (stalledAt s es).busDir = s.busDir := rfl
@[simp] theorem stalledAt_busOut (s : State) (es : List Event) : (stalledAt s es).busOut = s.busOut := rfl
@[simp] theorem stalledAt_lines (s : State) (es : List Event) : (stalledAt s es).lines = s.lines := rfl
@[simp] theorem stalledAt_trace (s : State) (es : List Event) : (stalledAt s es).trace = s.trace ++ es := rfl
@[simp] theorem stalledAt_host (s : State) (es : List Event) : (stalledAt s es).host = s.host := rfl
@[simp] theorem stalledAt_env (s : State) (es : List Event) : (stalledAt s es).env = { s.env with liveness := .stalled } := rfl
@[simp] theorem stalledAt_cfg (s : State) (es : List Event) : (stalledAt s es).cfg = s.cfg := rfl

end Sys2Proof.Machine
end

