-- ==== Sys2Proof/Laws/Decode.lean ====
section
/-! SUPPORT. The fields of a packed decode word, the two dispatch tables under legal parameters, and what the
rows of the opcode table match. -/

namespace Sys2Proof

theorem packDW_wr (wr rd a : Bool) (o d : Byte) : (packDW wr rd a o d).getLsbD 18 = wr := by
  cases wr <;> simp [packDW]

theorem packDW_rd (wr rd a : Bool) (o d : Byte) : (packDW wr rd a o d).getLsbD 17 = rd := by
  cases rd <;> simp [packDW]

theorem packDW_ad0 (wr rd a : Bool) (o d : Byte) : (packDW wr rd a o d).getLsbD 16 = a := by
  cases a <;> simp [packDW]

@[simp] theorem opcField_packDW (wr rd a : Bool) (o d : Byte) : opcField (packDW wr rd a o d) = o := by
  refine BitVec.eq_of_getLsbD_eq fun i hi => ?_
  have h8 : ¬ 8 + i < 8 := by omega
  have h10 : 8 + i < 16 := by omega
  have h11 : 8 + i < 17 := by omega
  have h12 : 8 + i < 18 := by omega
  have h19 : 8 + i < 19 := by omega
  simp [opcField, packDW, hi, h10, h11, h12, h19]

@[simp] theorem dataField_packDW (wr rd a : Bool) (o d : Byte) : dataField (packDW wr rd a o d) = d := by
  refine BitVec.eq_of_getLsbD_eq fun i hi => ?_
  have h10 : i < 16 := by omega
  have h11 : i < 17 := by omega
  have h12 : i < 18 := by omega
  have h19 : i < 19 := by omega
  simp [dataField, packDW, hi, h10, h11, h12, h19]

/-- Decoding a packed word: the precedence of the lines, and the fields as they were packed
(40_bus_engine.md R64). -/
theorem decodeWord_packDW (p : Params) (wr rd a : Bool) (o d : Byte) :
    decodeWord p (packDW wr rd a o d) =
      match phaseOf wr rd a with
      | .storeOpcode => .store d
      | .executeWrite => decodeWrite p o d
      | .executeRead => decodeRead p o
      | .serialRx => .serrx
      | .interrupt => .intack := by
  cases hp : phaseOf wr rd a <;>
    simp only [decodeWord, packDW_wr, packDW_rd, packDW_ad0, opcField_packDW, dataField_packDW, hp]

@[simp] theorem decodeWord_store (p : Params) (rd : Bool) (o d : Byte) :
    decodeWord p (packDW true rd true o d) = .store d := decodeWord_packDW p true rd true o d

@[simp] theorem decodeWord_write (p : Params) (rd : Bool) (o d : Byte) :
    decodeWord p (packDW true rd false o d) = decodeWrite p o d := decodeWord_packDW p true rd false o d

@[simp] theorem decodeWord_serrx (p : Params) (o d : Byte) :
    decodeWord p (packDW false true true o d) = .serrx := decodeWord_packDW p false true true o d

@[simp] theorem decodeWord_read (p : Params) (o d : Byte) :
    decodeWord p (packDW false true false o d) = decodeRead p o := decodeWord_packDW p false true false o d

@[simp] theorem decodeWord_intack (p : Params) (a : Bool) (o d : Byte) :
    decodeWord p (packDW false false a o d) = .intack := decodeWord_packDW p false false a o d

/-- Every decode word is packed from its own fields (30_encoding.md R54). -/
theorem eq_packDW (w : DW) :
    w = packDW (w.getLsbD 18) (w.getLsbD 17) (w.getLsbD 16) (opcField w) (dataField w) := by
  refine BitVec.eq_of_getLsbD_eq fun i hi => ?_
  interval_cases i <;> simp [packDW, opcField, dataField]

theorem packDW_inj {wr rd a wr' rd' a' : Bool} {o d o' d' : Byte} :
    packDW wr rd a o d = packDW wr' rd' a' o' d' ↔ wr = wr' ∧ rd = rd' ∧ a = a' ∧ o = o' ∧ d = d' := by
  constructor
  · intro h
    refine ⟨?_, ?_, ?_, ?_, ?_⟩
    · simpa only [packDW_wr] using congrArg (BitVec.getLsbD · 18) h
    · simpa only [packDW_rd] using congrArg (BitVec.getLsbD · 17) h
    · simpa only [packDW_ad0] using congrArg (BitVec.getLsbD · 16) h
    · simpa using congrArg opcField h
    · simpa using congrArg dataField h
  · rintro ⟨rfl, rfl, rfl, rfl, rfl⟩
    rfl

theorem writeRow_pattern (o : Byte) :
    (0x40000 + (o.setWidth 19 <<< 8) : DW) = packDW true false false o 0 := by
  revert o
  decide

theorem readRow_pattern (o : Byte) :
    (0x20000 + (o.setWidth 19 <<< 8) : DW) = packDW false true false o 0 := by
  revert o
  decide

theorem packDW_mask_write (wr rd a : Bool) (o d : Byte) :
    packDW wr rd a o d &&& 0x5FF00 = packDW wr false a o 0 := by
  refine BitVec.eq_of_getLsbD_eq fun i hi => ?_
  interval_cases i <;> simp [packDW]

theorem packDW_mask_read (wr rd a : Bool) (o d : Byte) :
    packDW wr rd a o d &&& 0x7FF00 = packDW wr rd a o 0 := by
  refine BitVec.eq_of_getLsbD_eq fun i hi => ?_
  interval_cases i <;> simp [packDW]

/-- A write-direction row matches exactly the Execute-Writes of its key (30_encoding.md R54). -/
theorem rowMatches_writeRow (wr rd a : Bool) (o o' d : Byte) (n : String) :
    rowMatches (packDW wr rd a o d) (writeRow n o') = (wr && !a && (o == o')) := by
  rw [Bool.eq_iff_iff]
  simp only [rowMatches, writeRow, writeRow_pattern, packDW_mask_write, packDW_inj, beq_iff_eq]
  simp [and_assoc]

/-- A read-direction row matches exactly the Execute-Reads of its key (30_encoding.md R54). -/
theorem rowMatches_readRow (wr rd a : Bool) (o o' d : Byte) (n : String) :
    rowMatches (packDW wr rd a o d) (readRow n o') = (!wr && rd && !a && (o == o')) := by
  rw [Bool.eq_iff_iff]
  simp only [rowMatches, readRow, readRow_pattern, packDW_mask_read, packDW_inj, beq_iff_eq]
  simp [and_assoc]

/-- A row that looks at the lines alone (30_encoding.md R54): masking leaves the chosen lines. -/
theorem packDW_mask_lines (wr rd a m1 m2 m3 : Bool) (o d : Byte) :
    packDW wr rd a o d &&& packDW m1 m2 m3 0 0 = packDW (wr && m1) (rd && m2) (a && m3) 0 0 := by
  refine BitVec.eq_of_getLsbD_eq fun i hi => ?_
  interval_cases i <;> simp [packDW]

/-- A lines-only row, by the lines it masks and the levels it wants. -/
theorem rowMatches_lines (wr rd a m1 m2 m3 w1 w2 w3 : Bool) (o d : Byte) (n : String) :
    rowMatches (packDW wr rd a o d)
        { mnemonic := n, mask := packDW m1 m2 m3 0 0, pattern := packDW w1 w2 w3 0 0 } =
      (((wr && m1) == w1) && ((rd && m2) == w2) && ((a && m3) == w3)) := by
  rw [Bool.eq_iff_iff]
  simp only [rowMatches, packDW_mask_lines, packDW_inj, beq_iff_eq]
  simp [and_assoc]

theorem gpioOpcodeOf_mem {table : List (GpioReg × Byte)} {r : GpioReg} (hr : r ∈ table.map Prod.fst) :
    ∃ o, gpioOpcodeOf table r = some o ∧ (r, o) ∈ table := by
  cases hf : table.find? (fun e => e.1 == r) with
  | none =>
    obtain ⟨e, he, rfl⟩ := List.mem_map.1 hr
    exact absurd (List.find?_eq_none.1 hf e he) (by simp)
  | some e =>
    obtain ⟨a, b⟩ := e
    have hb : a = r := by simpa using List.find?_some hf
    exact ⟨b, by simp [gpioOpcodeOf, hf], hb ▸ List.mem_of_find?_eq_some hf⟩

/-- An entry of a dispatch table with distinct keys is found under its key. -/
theorem dispatchEntry_of_mem {α : Type} {table : List (Byte × α)} (h : (table.map Prod.fst).Nodup)
    {o : Byte} {a : α} (hm : (o, a) ∈ table) : dispatchEntry table o = some a := by
  induction table with
  | nil => simp at hm
  | cons e table ih =>
    rw [List.map_cons, List.nodup_cons] at h
    rcases List.mem_cons.1 hm with rfl | hm
    · simp [dispatchEntry]
    · have hne : e.1 ≠ o := fun he => h.1 (he ▸ List.mem_map.2 ⟨_, hm, rfl⟩)
      have := ih h.2 hm
      simpa [dispatchEntry, List.find?_cons, hne] using this

theorem mem_of_dispatchEntry {α : Type} {table : List (Byte × α)} {o : Byte} {a : α}
    (h : dispatchEntry table o = some a) : (o, a) ∈ table := by
  simp only [dispatchEntry, Option.map_eq_some_iff] at h
  obtain ⟨⟨o', a'⟩, hf, rfl⟩ := h
  have hb : o' = o := by simpa using List.find?_some hf
  exact hb ▸ List.mem_of_find?_eq_some hf

theorem dispatchEntry_none_iff {α : Type} {table : List (Byte × α)} {o : Byte} :
    dispatchEntry table o = none ↔ o ∉ table.map Prod.fst := by
  simp only [dispatchEntry, Option.map_eq_none_iff, List.find?_eq_none, List.mem_map, not_exists, not_and]
  exact ⟨fun h e he heq => h e he (by simp [heq]), fun h e he heq => h e he (by simpa using heq)⟩

theorem writeTable_keys (m : OpcodeMap) : (writeTable m).map Prod.fst = m.writeKeys := by
  simp [writeTable, OpcodeMap.writeKeys, Function.comp_def]

theorem readTable_keys (m : OpcodeMap) : (readTable m).map Prod.fst = m.readKeys := by
  simp [readTable, OpcodeMap.readKeys, Function.comp_def]

/-- Under legal parameters every entry of WRITE_DISPATCH is reached by its key (41_dispatcher.md R74). -/
theorem decodeWrite_of_mem {p : Params} (hp : p.Wf) {o : Byte} {h : Byte → Instr}
    (hm : (o, h) ∈ writeTable p.op) (d : Byte) : decodeWrite p o d = h d := by
  have hn : ((writeTable p.op).map Prod.fst).Nodup :=
    writeTable_keys p.op ▸ (List.nodup_append.1 hp.1).1
  simp [decodeWrite, dispatchEntry_of_mem hn hm]

/-- Under legal parameters every entry of READ_DISPATCH is reached by its key (41_dispatcher.md R74). -/
theorem decodeRead_of_mem {p : Params} (hp : p.Wf) {o : Byte} {i : Instr}
    (hm : (o, i) ∈ readTable p.op) : decodeRead p o = i := by
  have hn : ((readTable p.op).map Prod.fst).Nodup :=
    readTable_keys p.op ▸ (List.nodup_append.1 hp.1).2.1
  simp [decodeRead, dispatchEntry_of_mem hn hm]

/-- The GPIOWR entry of a register is in WRITE_DISPATCH (30_encoding.md R56). -/
theorem gpiowr_mem_writeTable {m : OpcodeMap} {r : GpioReg} {o : Byte} (h : (r, o) ∈ m.gpioWr) :
    (o, Instr.gpiowr r) ∈ writeTable m :=
  List.mem_append_left _ (List.mem_append_right _ (List.mem_map.2 ⟨_, h, rfl⟩))

/-- The GPIORD entry of a register is in READ_DISPATCH (30_encoding.md R56). -/
theorem gpiord_mem_readTable {m : OpcodeMap} {r : GpioReg} {o : Byte} (h : (r, o) ∈ m.gpioRd) :
    (o, Instr.gpiord r) ∈ readTable m := List.mem_append_left _ (List.mem_map.2 ⟨_, h, rfl⟩)

/-- What an Execute-Write can decode to: an entry of WRITE_DISPATCH under its key, or no handler. -/
theorem decodeWrite_cases (p : Params) (o d : Byte) :
    (∃ h, (o, h) ∈ writeTable p.op ∧ decodeWrite p o d = h d) ∨
    (o ∉ p.op.writeKeys ∧ decodeWrite p o d = .ewNone o d) := by
  cases hd : dispatchEntry (writeTable p.op) o with
  | none => exact .inr ⟨writeTable_keys p.op ▸ dispatchEntry_none_iff.1 hd, by simp [decodeWrite, hd]⟩
  | some h => exact .inl ⟨h, mem_of_dispatchEntry hd, by simp [decodeWrite, hd]⟩

/-- What an Execute-Read can decode to: an entry of READ_DISPATCH under its key, or no handler. -/
theorem decodeRead_cases (p : Params) (o : Byte) :
    (o, decodeRead p o) ∈ readTable p.op ∨
    (o ∉ p.op.readKeys ∧ decodeRead p o = .erNone o) := by
  cases hd : dispatchEntry (readTable p.op) o with
  | none => exact .inr ⟨readTable_keys p.op ▸ dispatchEntry_none_iff.1 hd, by simp [decodeRead, hd]⟩
  | some i => exact .inl (by simpa [decodeRead, hd] using mem_of_dispatchEntry hd)

end Sys2Proof
end

