-- ==== Sys2Proof/Laws/Ops.lean ====
section
/-! SUPPORT. What each shared operation can do, said once: the ends of a meaning, the releases, the reset after
dispatch, and the collaborator calls. -/

namespace Sys2Proof.Machine

theorem andThen_of_stuck {s : State} (h : s.env.liveness = .stalled) (f : State → State) :
    s.andThen f = s := if_pos h

theorem andThen_of_notStuck {s : State} (h : s.NotStuck) (f : State → State) : s.andThen f = f s := if_neg h

/-- What holds of a state and of what follows it holds of the state the engine goes on to (60_exceptions.md R116). -/
theorem andThen_induct {P : State → Prop} {s : State} {f : State → State} (h : P s) (hf : P (f s)) :
    P (s.andThen f) := by
  unfold State.andThen
  split
  · exact h
  · exact hf

theorem armedWrite_iff {p : Params} {o : Byte} :
    armedWrite p o = true ↔ o = p.op.seltrk ∨ o = p.op.wrtsct := by simp [armedWrite]

theorem armedRead_iff {p : Params} {o : Byte} :
    armedRead p o = true ↔ o = p.op.datetime ∨ o = p.op.rdsect := by simp [armedRead]

theorem postWriteReset_eq (s : State) : postWriteReset s = { s with opc := opcAfterWrite s } := by
  simp [postWriteReset, opcAfterWrite, armedWrite_iff]

theorem postReadReset_eq (s : State) : postReadReset s = { s with opc := opcAfterRead s } := by
  simp [postReadReset, opcAfterRead, armedRead_iff]

theorem releaseWrite_eq (s : State) : releaseWrite s = released s [.waitReset] := rfl

theorem releaseRead_eq (v : Byte) (s : State) : releaseRead v s = readReleased s v [] := by
  simp [releaseRead, readReleased, readRelease, setBusReq, setBusDir, setBusVal, waitReset, State.emit]

/-- What an Execute-Write can do, said once (40_bus_engine.md R66, R70, 60_exceptions.md R116): nothing in a stuck
engine, get stuck in its handler, or complete. -/
theorem runWrite_cases (h : State → State) (s : State) :
    (s.env.liveness = .stalled ∧ runWrite h s = .next s) ∨
    (s.NotStuck ∧ (h s).env.liveness = .stalled ∧ runWrite h s = .next (h s)) ∨
    (s.NotStuck ∧ (h s).NotStuck ∧
      runWrite h s = .next (released { h s with opc := opcAfterWrite (h s) } [.waitReset])) := by
  unfold runWrite
  by_cases hs : s.env.liveness = .stalled
  · exact .inl ⟨hs, by rw [andThen_of_stuck hs, andThen_of_stuck hs]⟩
  · rw [andThen_of_notStuck hs]
    by_cases hh : (h s).env.liveness = .stalled
    · exact .inr (.inl ⟨hs, hh, by rw [andThen_of_stuck hh]⟩)
    · exact .inr (.inr ⟨hs, hh, by rw [andThen_of_notStuck hh, postWriteReset_eq, releaseWrite_eq]⟩)

/-- An Execute-Write whose calls return completes (40_bus_engine.md R66, R70). -/
theorem runWrite_of_notStuck {h : State → State} {s : State} (hs : s.NotStuck) (hh : (h s).NotStuck) :
    runWrite h s = .next (released { h s with opc := opcAfterWrite (h s) } [.waitReset]) := by
  rcases runWrite_cases h s with ⟨h', _⟩ | ⟨_, h', _⟩ | ⟨_, _, e⟩
  · exact absurd h' hs
  · exact absurd h' hh
  · exact e

/-- An Execute-Write stuck in a call stands where its handler stands (60_exceptions.md R116). -/
theorem runWrite_of_stuck {h : State → State} {s : State} (hs : s.NotStuck)
    (hh : (h s).env.liveness = .stalled) : runWrite h s = .next (h s) := by
  rcases runWrite_cases h s with ⟨h', _⟩ | ⟨_, _, e⟩ | ⟨_, h', _⟩
  · exact absurd h' hs
  · exact e
  · exact absurd hh h'

/-- What an Execute-Read can do, said once (40_bus_engine.md R68, R71, 60_exceptions.md R116): nothing in a stuck
engine, get stuck in its handler, or complete. -/
theorem runRead_cases (h : State → Byte × State) (s : State) :
    (s.env.liveness = .stalled ∧ runRead h s = .next s) ∨
    (s.NotStuck ∧ (h s).2.env.liveness = .stalled ∧ runRead h s = .next (h s).2) ∨
    (s.NotStuck ∧ (h s).2.NotStuck ∧
      runRead h s = .next (readReleased { (h s).2 with opc := opcAfterRead (h s).2 } (h s).1 [])) := by
  unfold runRead
  by_cases hs : s.env.liveness = .stalled
  · exact .inl ⟨hs, by rw [andThen_of_stuck hs]⟩
  · rw [andThen_of_notStuck hs]
    by_cases hh : (h s).2.env.liveness = .stalled
    · exact .inr (.inl ⟨hs, hh, by rw [andThen_of_stuck hh]⟩)
    · exact .inr (.inr ⟨hs, hh, by rw [andThen_of_notStuck hh, postReadReset_eq, releaseRead_eq]⟩)

/-- An Execute-Read whose calls return completes (40_bus_engine.md R68, R71). -/
theorem runRead_of_notStuck {h : State → Byte × State} {s : State} (hs : s.NotStuck)
    (hh : (h s).2.NotStuck) :
    runRead h s = .next (readReleased { (h s).2 with opc := opcAfterRead (h s).2 } (h s).1 []) := by
  rcases runRead_cases h s with ⟨h', _⟩ | ⟨_, h', _⟩ | ⟨_, _, e⟩
  · exact absurd h' hs
  · exact absurd h' hh
  · exact e

/-- An Execute-Read stuck in a call stands where its handler stands (60_exceptions.md R116). -/
theorem runRead_of_stuck {h : State → Byte × State} {s : State} (hs : s.NotStuck)
    (hh : (h s).2.env.liveness = .stalled) : runRead h s = .next (h s).2 := by
  rcases runRead_cases h s with ⟨h', _⟩ | ⟨_, _, e⟩ | ⟨_, h', _⟩
  · exact absurd h' hs
  · exact e
  · exact absurd hh h'

@[simp] theorem afterCall_returns : Liveness.returns.afterCall = .returns := rfl

@[simp] theorem afterCall_stalled : Liveness.stalled.afterCall = .stalled := rfl

@[simp] theorem afterCall_stallsNext : (Liveness.stallsAfter 0).afterCall = .stalled := rfl

@[simp] theorem afterCall_stallsLater (n : Nat) :
    (Liveness.stallsAfter (n + 1)).afterCall = .stallsAfter n := rfl

/-- A call in a state whose collaborators all return changes nothing (60_exceptions.md R116). -/
theorem call_of_responsive {s : State} (h : s.Responsive) : s.call = s := by
  cases s with
  | mk => rename_i env _; cases env; simp_all [State.call, State.Responsive]

theorem send_of_responsive {s : State} (h : s.Responsive) (e : Event) : s.send e = s.emit e := by
  rw [State.send, call_of_responsive h]

theorem notStuck_of_responsive {s : State} (h : s.Responsive) : s.NotStuck := by
  simp [State.NotStuck, h]

/-- A state from which a call returns is not stuck. -/
theorem notStuck_of_call {s : State} (h : s.call.NotStuck) : s.NotStuck := by
  intro hs
  exact h (by simp [hs])

/-- A state whose next call does not return is not stuck yet, and stuck after it. -/
theorem stallsNext {s : State} (h : s.env.liveness = .stallsAfter 0) :
    s.NotStuck ∧ s.call.env.liveness = .stalled := by simp [State.NotStuck, h]

/-- What a collaborator call can do, said once (60_exceptions.md R116, R117): return with its answer, or not return. -/
theorem ask_cases {α : Type} (s : State) (a : α) (f : Env → Env) :
    (s.call.env.liveness = .stalled ∧ s.ask a f = (none, s.call)) ∨
    (s.call.NotStuck ∧ s.ask a f = (some a, { s.call with env := f s.call.env })) := by
  unfold State.ask
  by_cases h : s.call.env.liveness = .stalled
  · exact .inl ⟨h, if_pos h⟩
  · exact .inr ⟨h, if_neg h⟩

theorem ask_of_returns {α : Type} {s : State} (h : s.call.NotStuck) (a : α) (f : Env → Env) :
    s.ask a f = (some a, { s.call with env := f s.call.env }) := if_neg h

theorem ask_of_stalls {α : Type} {s : State} (h : s.call.env.liveness = .stalled) (a : α) (f : Env → Env) :
    s.ask a f = (none, s.call) := if_pos h

/-- What a BlockStore call can do, said once (20_memory.md R35, 60_exceptions.md R116). -/
theorem askStore_of_returns {α : Type} {s : State} (h : s.call.NotStuck) (r : α × BlockStore)
    (e : Option α → Event) :
    s.askStore r e = (some r.1, (s.call.withBs r.2).emit (e (some r.1))) := by
  rw [State.askStore, ask_of_returns h]
  rfl

theorem askStore_of_stalls {α : Type} {s : State} (h : s.call.env.liveness = .stalled) (r : α × BlockStore)
    (e : Option α → Event) : s.askStore r e = (none, s.call.emit (e none)) := by
  rw [State.askStore, ask_of_stalls h]

theorem askStore_cases {α : Type} (s : State) (r : α × BlockStore) (e : Option α → Event) :
    (s.call.env.liveness = .stalled ∧ s.askStore r e = (none, s.call.emit (e none))) ∨
    (s.call.NotStuck ∧ s.askStore r e = (some r.1, (s.call.withBs r.2).emit (e (some r.1)))) := by
  by_cases h : s.call.env.liveness = .stalled
  · exact .inl ⟨h, askStore_of_stalls h r e⟩
  · exact .inr ⟨h, askStore_of_returns h r e⟩

theorem recordCode_some (c : StoreCode) (t : State) : recordCode (some c, t) = { t with err := storeErr c } := rfl

theorem recordCode_none (t : State) : recordCode (none, t) = t := rfl

/-- What reading a field of the clock can do, said once (45_datetime_status_irq.md R101). -/
theorem rtcField_snd (i : Nat) (s : State) : (rtcField i s).2 = s.call := by
  unfold rtcField
  rcases ask_cases s (s.env.rtc.field i) (fun env => env) with ⟨_, e⟩ | ⟨_, e⟩ <;> rw [e]

theorem rtcField_of_returns {s : State} (h : s.call.NotStuck) (i : Nat) :
    rtcField i s = (some (s.env.rtc.field i), s.call) := ask_of_returns h _ _

theorem rtcField_of_stalls {s : State} (h : s.call.env.liveness = .stalled) (i : Nat) :
    rtcField i s = (none, s.call) := ask_of_stalls h _ _

/-- What reading the time can do, said once (60_exceptions.md R109). -/
theorem readTime_of_returns {s : State} (h : s.call.NotStuck) :
    readTime s =
      (some (s.env.clock + (s.env.timeIn.next Config.timeStep).1),
        { s.call with env := { s.call.env with
            clock := s.env.clock + (s.env.timeIn.next Config.timeStep).1
            timeIn := (s.env.timeIn.next Config.timeStep).2 } }) := ask_of_returns h _ _

theorem readTime_of_stalls {s : State} (h : s.call.env.liveness = .stalled) : readTime s = (none, s.call) :=
  ask_of_stalls h _ _

theorem drawIrqBits_snd (s : State) :
    (drawIrqBits s).2 =
      { s with env := { s.env with irqBits := (s.env.irqBits.next Config.irqDraw).2 } } := rfl

theorem raiseTick_eq (n : Nat) (s : State) :
    raiseTick n s =
      { s with lastTick := n, intOut := true, irqTick := true, trace := s.trace ++ [.int true] } := rfl

/-- What the tick check can do, said once (60_exceptions.md R109): nothing while disabled, get stuck reading the time,
only read the time, or raise the tick. -/
theorem tickCheck_cases (s : State) :
    (s.tickEn = false ∧ tickCheck s = s) ∨
    (s.tickEn = true ∧ s.call.env.liveness = .stalled ∧ tickCheck s = s.call) ∨
    (s.tickEn = true ∧ s.call.NotStuck ∧ ∃ (now : Nat) (f : Feed Nat),
      now = s.env.clock + (s.env.timeIn.next Config.timeStep).1 ∧
      f = (s.env.timeIn.next Config.timeStep).2 ∧
      tickCheck s =
        if tickDue now s.lastTick s.tickIv then
          raiseTick now { s.call with env := { s.call.env with clock := now, timeIn := f } }
        else { s.call with env := { s.call.env with clock := now, timeIn := f } }) := by
  unfold tickCheck
  cases hE : s.tickEn with
  | false => exact .inl ⟨rfl, rfl⟩
  | true =>
    by_cases h : s.call.env.liveness = .stalled
    · exact .inr (.inl ⟨rfl, h, by simp [readTime_of_stalls h]⟩)
    · exact .inr (.inr ⟨rfl, h, _, _, rfl, rfl, by simp [readTime_of_returns h]⟩)

end Sys2Proof.Machine
end

