-- ==== Sys2Proof/Laws/Transfer.lean ====
section
/-! SUPPORT. What each step of a sector transfer can do, said once (44_disk_transfer.md R94 to R99), and the
disk handlers' cases (43_disk_control.md R90, R91). -/

namespace Sys2Proof.Machine

theorem addressLegal_iff {trk : BitVec 16} {sec : Byte} :
    addressLegal trk sec = true ↔ trk.toNat < 512 ∧ sec.toNat < 32 := by simp [addressLegal]

theorem lastExchange_iff {cnt : BitVec 16} : lastExchange cnt = true ↔ 511 ≤ cnt.toNat := by
  simp [lastExchange]

@[simp] theorem chunkPos_val (cnt : BitVec 16) : (chunkPos cnt).val = cnt.toNat % 32 := rfl

/-- The block of an address in range is 32 t + s (20_memory.md R47). -/
theorem blockIndex_eq {trk : BitVec 16} {sec : Byte} (h : sec.toNat < 32) :
    blockIndex trk sec = 32 * trk.toNat + sec.toNat := by
  rw [blockIndex, Nat.shiftLeft_eq, Nat.mul_comm, ← Nat.two_pow_add_eq_or_of_lt (i := 5) h]

theorem storeErr_eq_zero {c : StoreCode} : storeErr c = 0 ↔ c = 0 := by
  revert c
  decide

theorem chunkCode_eq_zero {c : StoreCode} {k : Nat} : chunkCode c k = 0 ↔ c = 0 ∧ 32 ≤ k := by
  unfold chunkCode Board.chunk
  split
  · rename_i h
    simp only [errEof]
    constructor
    · intro h'
      exact absurd h' (by decide)
    · intro h'
      have := h.2
      omega
  · rename_i h
    rw [storeErr_eq_zero]
    constructor
    · intro hc
      exact ⟨hc, by_contra fun hk => h ⟨hc, by omega⟩⟩
    · exact fun h' => h'.1

/-- Recording the code of a BlockStore call: the call does not return, or its code is in the error register
(10_state.md R19, 60_exceptions.md R116). -/
theorem recordCode_askStore (s : State) (r : StoreCode × BlockStore) (e : Option StoreCode → Event) :
    (s.call.env.liveness = .stalled ∧ recordCode (s.askStore r e) = s.call.emit (e none)) ∨
    (s.call.NotStuck ∧
      recordCode (s.askStore r e) =
        { s.call with
          err := storeErr r.1
          env := { s.call.env with bs := r.2 }
          trace := s.trace ++ [e (some r.1)] }) := by
  rcases askStore_cases s r e with ⟨h, q⟩ | ⟨h, q⟩
  · exact .inl ⟨h, by rw [q, recordCode_none]⟩
  · exact .inr ⟨h, by rw [q, recordCode_some]; rfl⟩

/-- X_START() does one of four things: nothing, a seek that does not return, a seek, or the validation
(44_disk_transfer.md R94). -/
theorem transferStart_cases (s : State) :
    (¬ (s.cnt = 0 ∧ s.err = 0) ∧ transferStart s = s) ∨
    ((s.cnt = 0 ∧ s.err = 0) ∧ (s.trk.toNat < 512 ∧ s.sec.toNat < 32) ∧ s.call.env.liveness = .stalled ∧
      transferStart s = s.call.emit (.bsSeek (32 * s.trk.toNat + s.sec.toNat) none)) ∨
    ((s.cnt = 0 ∧ s.err = 0) ∧ (s.trk.toNat < 512 ∧ s.sec.toNat < 32) ∧ s.call.NotStuck ∧
      transferStart s =
        { s.call with
          err := storeErr (s.env.bs.seek (32 * s.trk.toNat + s.sec.toNat)).1
          env := { s.call.env with bs := (s.env.bs.seek (32 * s.trk.toNat + s.sec.toNat)).2 }
          trace := s.trace ++ [.bsSeek (32 * s.trk.toNat + s.sec.toNat)
            (some (s.env.bs.seek (32 * s.trk.toNat + s.sec.toNat)).1)] }) ∨
    ((s.cnt = 0 ∧ s.err = 0) ∧ ¬ (s.trk.toNat < 512 ∧ s.sec.toNat < 32) ∧ transferStart s = validate s) := by
  unfold transferStart
  split
  · rename_i h
    split
    · rename_i hl
      have hl := addressLegal_iff.1 hl
      rw [blockIndex_eq hl.2]
      rcases recordCode_askStore s (s.env.bs.seek (32 * s.trk.toNat + s.sec.toNat))
        (.bsSeek (32 * s.trk.toNat + s.sec.toNat)) with ⟨hc, e⟩ | ⟨hc, e⟩
      · exact .inr (.inl ⟨h, hl, hc, e⟩)
      · exact .inr (.inr (.inl ⟨h, hl, hc, e⟩))
    · rename_i hl
      exact .inr (.inr (.inr ⟨h, fun hl' => hl (addressLegal_iff.2 hl'), rfl⟩))
  · rename_i h
    exact .inl ⟨h, rfl⟩

/-- At an illegal address the validation records 18 or 17, never 0 (43_disk_control.md R88). -/
theorem addressCode_of_illegal {trk : BitVec 16} {sec : Byte}
    (h : ¬ (trk.toNat < 512 ∧ sec.toNat < 32)) :
    addressCode trk sec = if 32 ≤ sec.toNat then 18 else 17 := by
  simp only [addressCode, Board.maxSectors, Board.maxTracks, errSector, errTrack]
  split
  · rfl
  · rw [if_pos (by omega)]

theorem addressCode_ne_zero {trk : BitVec 16} {sec : Byte}
    (h : ¬ (trk.toNat < 512 ∧ sec.toNat < 32)) : addressCode trk sec ≠ 0 := by
  rw [addressCode_of_illegal h]
  split <;> decide

/-- One byte of a write does one of three things: it is discarded, it goes to the buffer, or it fills a chunk that
is flushed (44_disk_transfer.md R98). -/
theorem writeByte_cases (d : Byte) (s : State) :
    (s.err ≠ 0 ∧ writeByte d s = s) ∨
    (s.err = 0 ∧ (chunkPos s.cnt).val ≠ 31 ∧
      writeByte d s = { s with buf := s.buf.set (chunkPos s.cnt).val d }) ∨
    (s.err = 0 ∧ (chunkPos s.cnt).val = 31 ∧
      writeByte d s = flushChunk { s with buf := s.buf.set (chunkPos s.cnt).val d }) := by
  unfold writeByte takeByte
  split
  · rename_i h
    split
    · rename_i hp
      exact .inr (.inr ⟨h, hp, rfl⟩)
    · rename_i hp
      exact .inr (.inl ⟨h, hp, rfl⟩)
  · rename_i h
    exact .inl ⟨h, rfl⟩

/-- A flush does not return, or its count and code decide the error register (44_disk_transfer.md R97, R98). -/
theorem flushChunk_cases (s : State) :
    (s.call.env.liveness = .stalled ∧ flushChunk s = s.call.emit (.bsWrite (chunkBytes s.buf) none)) ∨
    (s.call.NotStuck ∧
      flushChunk s =
        { s.call with
          err := chunkCode (s.env.bs.write (chunkBytes s.buf)).1.1 (s.env.bs.write (chunkBytes s.buf)).1.2
          env := { s.call.env with bs := (s.env.bs.write (chunkBytes s.buf)).2 }
          trace := s.trace ++ [.bsWrite (chunkBytes s.buf) (some (s.env.bs.write (chunkBytes s.buf)).1)] }) := by
  unfold flushChunk bsWrite
  rcases askStore_cases s (s.env.bs.write (chunkBytes s.buf)) (.bsWrite (chunkBytes s.buf)) with
    ⟨h, e⟩ | ⟨h, e⟩
  · exact .inl ⟨h, by rw [e]⟩
  · exact .inr ⟨h, by rw [e]; rfl⟩

/-- The end of a write finalizes unless an error is latched (44_disk_transfer.md R98). -/
theorem finalizeSector_cases (s : State) :
    (s.err ≠ 0 ∧ finalizeSector s = s) ∨
    (s.err = 0 ∧ s.call.env.liveness = .stalled ∧ finalizeSector s = s.call.emit (.bsFinalize none)) ∨
    (s.err = 0 ∧ s.call.NotStuck ∧
      finalizeSector s =
        { s.call with
          err := storeErr s.env.bs.finalize.1
          env := { s.call.env with bs := s.env.bs.finalize.2 }
          trace := s.trace ++ [.bsFinalize (some s.env.bs.finalize.1)] }) := by
  unfold finalizeSector
  split
  · rename_i h
    rcases recordCode_askStore s s.env.bs.finalize .bsFinalize with ⟨hc, e⟩ | ⟨hc, e⟩
    · exact .inr (.inl ⟨h, hc, e⟩)
    · exact .inr (.inr ⟨h, hc, e⟩)
  · rename_i h
    exact .inl ⟨h, rfl⟩

/-- A fill does not return, or its bytes and code decide the buffer and the error register (44_disk_transfer.md R97,
R99). -/
theorem fillChunk_cases (s : State) :
    (s.call.env.liveness = .stalled ∧ fillChunk s = s.call.emit (.bsRead 32 none)) ∨
    (s.call.NotStuck ∧
      fillChunk s =
        { s.call with
          err := chunkCode (s.env.bs.read 32).1.1 (s.env.bs.read 32).1.2.length
          buf :=
            if chunkCode (s.env.bs.read 32).1.1 (s.env.bs.read 32).1.2.length = 0 then
              putBytes s.buf 0 (s.env.bs.read 32).1.2
            else s.buf
          env := { s.call.env with bs := (s.env.bs.read 32).2 }
          trace := s.trace ++ [.bsRead 32 (some (s.env.bs.read 32).1)] }) := by
  unfold fillChunk bsRead
  rcases askStore_cases s (s.env.bs.read 32) (.bsRead 32) with ⟨h, e⟩ | ⟨h, e⟩
  · exact .inl ⟨h, by rw [Board.chunk, e]⟩
  · exact .inr ⟨h, by rw [Board.chunk, e]; rfl⟩

/-- The chunk start of a read pulls a chunk or does nothing (44_disk_transfer.md R99). -/
theorem readChunk_cases (s : State) :
    (¬ (s.err = 0 ∧ (chunkPos s.cnt).val = 0) ∧ readChunk s = s) ∨
    (s.err = 0 ∧ (chunkPos s.cnt).val = 0 ∧ readChunk s = fillChunk s) := by
  unfold readChunk
  split
  · rename_i h
    exact .inr ⟨h.1, h.2, rfl⟩
  · rename_i h
    exact .inl ⟨h, rfl⟩

/-- The bytes stored into the buffer stand at their indices, the others as before (44_disk_transfer.md R99). -/
theorem getElem_putBytes (buf : Vector Byte 512) (i : Nat) (bs : List Byte) (k : Fin 512) :
    (putBytes buf i bs)[k.val] =
      if i ≤ k.val ∧ k.val < i + bs.length then bs.getD (k.val - i) 0 else buf[k.val] := by
  induction bs generalizing buf i with
  | nil =>
    have : ¬ (i ≤ k.val ∧ k.val < i + ([] : List Byte).length) := by simp
    rw [if_neg this]
    rfl
  | cons b bs ih =>
    rw [putBytes, ih]
    by_cases h : i + 1 ≤ k.val ∧ k.val < i + 1 + bs.length
    · have h' : i ≤ k.val ∧ k.val < i + (b :: bs).length := by simp; omega
      have e : k.val - i = (k.val - (i + 1)) + 1 := by omega
      rw [if_pos h, if_pos h', e]
      rfl
    · rw [if_neg h, Vector.getElem_setIfInBounds]
      by_cases hk : i = k.val
      · have h' : i ≤ k.val ∧ k.val < i + (b :: bs).length := by simp; omega
        rw [if_pos hk, if_pos h', hk, Nat.sub_self]
        rfl
      · have h' : ¬ (i ≤ k.val ∧ k.val < i + (b :: bs).length) := by simp; omega
        rw [if_neg hk, if_neg h']

/-- The chunk a write flushes has 32 bytes (44_disk_transfer.md R98). -/
@[simp] theorem length_chunkBytes (buf : Vector Byte 512) : (chunkBytes buf).length = 32 := by
  simp [chunkBytes, Board.chunk]

/-- After the first exchange, or with an error latched, X_START() does nothing (44_disk_transfer.md R94). -/
theorem transferStart_of_started {s : State} (h : s.cnt ≠ 0 ∨ s.err ≠ 0) : transferStart s = s := by
  rw [transferStart, if_neg fun h' => h.elim (fun h => h h'.1) fun h => h h'.2]

/-- What a chunk call that failed or was short leaves in the error register (44_disk_transfer.md R97). -/
theorem chunkCode_of_failed {c : StoreCode} {k : Nat} (h : ¬ (c = 0 ∧ 32 ≤ k)) :
    chunkCode c k = if c = 0 then 19 else BitVec.ofNat 8 c.val := by
  by_cases hc : c = 0
  · have hk : k < 32 := by
      by_contra hk
      exact h ⟨hc, by omega⟩
    simp [chunkCode, hc, hk, errEof, Board.chunk]
  · simp [chunkCode, hc, storeErr]

/-- A full chunk replaces the bytes 0..31 of the buffer (44_disk_transfer.md R99). -/
theorem putBytes_chunk (buf : Vector Byte 512) {bytes : List Byte} (h : bytes.length = 32) :
    putBytes buf 0 bytes = Vector.ofFn fun k => if k.val < 32 then bytes.getD k.val 0 else buf[k] := by
  refine Vector.ext fun i hi => ?_
  have e := getElem_putBytes buf 0 bytes ⟨i, hi⟩
  simp only [h, Nat.zero_le, true_and, Nat.zero_add, Nat.sub_zero] at e
  simp [e]

/-- H_RDSECT when its calls return: the result, the counter moved on, and the sequence ended by its last exchange
(44_disk_transfer.md R96, R99). -/
theorem readSector_of_notStuck {s u : State} (hu : (transferStart s).andThen readChunk = u) (hn : u.NotStuck) :
    readSector s =
      (readResult u, if lastExchange s.cnt then countExchange (endSequence u) else countExchange u) := by
  rw [readSector, hu, andThen_of_notStuck hn, andThen_of_notStuck hn]

/-- A RDSECT exchange whose calls return, after a handler state `u` that kept the opcode and the parameters
(44_disk_transfer.md R96, R99, 41_dispatcher.md R76). -/
theorem execRdsect_of_chunk {s u : State} (hu : (transferStart s).andThen readChunk = u) (hs : s.NotStuck)
    (hc : u.cfg = s.cfg) (ho : u.opc = s.opc) (hn : u.NotStuck) :
    execRdsect s =
      .next (readReleased
        { u with
          cnt := u.cnt + 1
          opc := if 511 ≤ s.cnt.toNat then s.cfg.op.nop else opcAfterRead s } (readResult u) []) := by
  have hr := readSector_of_notStuck hu hn
  by_cases h : 511 ≤ s.cnt.toNat
  · rw [if_pos (lastExchange_iff.2 h)] at hr
    rw [execRdsect, runRead_of_notStuck hs (by rw [hr]; exact hn), hr, if_pos h]
    have e : opcAfterRead (countExchange (endSequence u)) = s.cfg.op.nop := by
      unfold opcAfterRead
      simp only [countExchange_opc, countExchange_cfg, endSequence_cfg, endSequence_opc, hc]
      split <;> rfl
    rw [e]
    rfl
  · rw [if_neg fun h' => h (lastExchange_iff.1 h')] at hr
    rw [execRdsect, runRead_of_notStuck hs (by rw [hr]; exact hn), hr, if_neg h]
    have e : opcAfterRead (countExchange u) = opcAfterRead s := by
      unfold opcAfterRead
      simp only [countExchange_opc, countExchange_cfg, hc, ho]
    rw [e]
    rfl

end Sys2Proof.Machine
end

