-- ==== Sys2Proof/Laws/Quiet.lean ====
section
/-! SUPPORT. What every handler leaves alone: the lines, the bus, the Host, the parameters and the last tick, and
that it emits no event of a release (40_bus_engine.md R61, R70, R71). Said once per shared operation, and once for
every instruction. -/

namespace Sys2Proof.Machine

/-- An event that belongs to no release (40_bus_engine.md R70, R71). -/
abbrev Event.beforeRelease (e : Event) : Prop :=
  e ≠ .waitReset ∧ e ≠ .hold ∧ (∀ v, e ≠ .busVal v) ∧ (∀ d, e ≠ .busDir d) ∧ ∀ b, e ≠ .busReq b

/-- What a handler run from `s` to `u` leaves alone. -/
structure Quiet (s u : State) : Prop where
  trace : ∃ events, u.trace = s.trace ++ events ∧ ∀ e ∈ events, e.beforeRelease
  lines : u.lines = s.lines
  busReq : u.busReq = s.busReq
  busDir : u.busDir = s.busDir
  busOut : u.busOut = s.busOut
  host : u.host = s.host
  cfg : u.cfg = s.cfg
  lastTick : u.lastTick = s.lastTick
  responsive : s.Responsive → u.Responsive
  stuck : s.env.liveness = .stalled → u.env.liveness = .stalled

theorem Quiet.refl (s : State) : Quiet s s :=
  ⟨⟨[], by simp⟩, rfl, rfl, rfl, rfl, rfl, rfl, rfl, id, id⟩

theorem Quiet.trans {s u v : State} (h : Quiet s u) (k : Quiet u v) : Quiet s v := by
  obtain ⟨es, he, hq⟩ := h.trace
  obtain ⟨fs, hf, hr⟩ := k.trace
  exact
    { trace := ⟨es ++ fs, by rw [hf, he, List.append_assoc],
        fun e h => (List.mem_append.1 h).elim (hq e) (hr e)⟩
      lines := k.lines.trans h.lines
      busReq := k.busReq.trans h.busReq
      busDir := k.busDir.trans h.busDir
      busOut := k.busOut.trans h.busOut
      host := k.host.trans h.host
      cfg := k.cfg.trans h.cfg
      lastTick := k.lastTick.trans h.lastTick
      responsive := fun hs => k.responsive (h.responsive hs)
      stuck := fun hs => k.stuck (h.stuck hs) }

/-- A change of fields a handler may write, with no event. -/
theorem Quiet.of_eq {s u : State} (ht : u.trace = s.trace) (hl : u.lines = s.lines)
    (hq : u.busReq = s.busReq) (hd : u.busDir = s.busDir) (ho : u.busOut = s.busOut) (hh : u.host = s.host)
    (hc : u.cfg = s.cfg) (hk : u.lastTick = s.lastTick) (hv : u.env.liveness = s.env.liveness) : Quiet s u :=
  ⟨⟨[], by simp [ht]⟩, hl, hq, hd, ho, hh, hc, hk, fun h => hv.trans h, fun h => hv.trans h⟩

theorem quiet_emit (s : State) {e : Event} (h : e.beforeRelease) : Quiet s (s.emit e) :=
  ⟨⟨[e], rfl, by simpa using h⟩, rfl, rfl, rfl, rfl, rfl, rfl, rfl, id, id⟩

theorem quiet_call (s : State) : Quiet s s.call :=
  ⟨⟨[], by simp⟩, rfl, rfl, rfl, rfl, rfl, rfl, rfl, fun h => by simp_all [State.Responsive, State.call],
    fun h => by simp_all [State.call]⟩

theorem quiet_send (s : State) {e : Event} (h : e.beforeRelease) : Quiet s (s.send e) :=
  (quiet_call s).trans (quiet_emit _ h)

theorem quiet_withBs (s : State) (b : BlockStore) : Quiet s (s.withBs b) :=
  .of_eq rfl rfl rfl rfl rfl rfl rfl rfl rfl

/-- A call that changes other parts of the Environment than its liveness. -/
theorem quiet_ask {α : Type} (s : State) (a : α) {f : Env → Env} (hf : ∀ e, (f e).liveness = e.liveness) :
    Quiet s (s.ask a f).2 := by
  rcases ask_cases s a f with ⟨_, e⟩ | ⟨_, e⟩
  · rw [e]
    exact quiet_call s
  · rw [e]
    exact (quiet_call s).trans (.of_eq rfl rfl rfl rfl rfl rfl rfl rfl (hf _))

theorem quiet_askStore {α : Type} (s : State) (r : α × BlockStore) {e : Option α → Event}
    (he : ∀ a, (e a).beforeRelease) : Quiet s (s.askStore r e).2 :=
  (quiet_ask s r.1 (f := fun env => { env with bs := r.2 }) fun _ => rfl).trans (quiet_emit _ (he _))

theorem quiet_recordCode {s : State} {r : Option StoreCode × State} (h : Quiet s r.2) :
    Quiet s (recordCode r) := by
  unfold recordCode
  split
  · exact h.trans (.of_eq rfl rfl rfl rfl rfl rfl rfl rfl rfl)
  · exact h

theorem quiet_andThen {s u : State} {f : State → State} (h : Quiet s u) (hf : Quiet u (f u)) :
    Quiet s (u.andThen f) := by
  unfold State.andThen
  split
  · exact h
  · exact h.trans hf

theorem quiet_deliver (s : State) {e : Event} (f : Devices → Devices) (h : e.beforeRelease) :
    Quiet s (s.deliver e f) :=
  (Quiet.of_eq rfl rfl rfl rfl rfl rfl rfl rfl rfl :
    Quiet s { s with env := { s.env with devices := f s.env.devices } }).trans (quiet_send _ h)

theorem quiet_bsOpen (n : FileName) (s : State) : Quiet s (bsOpen n s).2 :=
  quiet_askStore s _ fun _ => by simp [Event.beforeRelease]

theorem quiet_bsSeek (b : Nat) (s : State) : Quiet s (bsSeek b s).2 :=
  quiet_askStore s _ fun _ => by simp [Event.beforeRelease]

theorem quiet_bsRead (n : Nat) (s : State) : Quiet s (bsRead n s).2 :=
  quiet_askStore s _ fun _ => by simp [Event.beforeRelease]

theorem quiet_bsWrite (v : List Byte) (s : State) : Quiet s (bsWrite v s).2 :=
  quiet_askStore s _ fun _ => by simp [Event.beforeRelease]

theorem quiet_bsFinalize (s : State) : Quiet s (bsFinalize s).2 :=
  quiet_askStore s _ fun _ => by simp [Event.beforeRelease]

theorem quiet_serialPoll (s : State) : Quiet s (serialPoll s).2 := quiet_ask s _ fun _ => rfl

theorem quiet_gpioRead (r : GpioReg) (s : State) : Quiet s (gpioRead r s).2 :=
  (quiet_emit s (by simp [Event.beforeRelease])).trans (quiet_ask _ _ fun _ => rfl)

theorem quiet_rtcRefresh (s : State) : Quiet s (rtcRefresh s) :=
  (quiet_emit s (by simp [Event.beforeRelease])).trans (quiet_ask _ _ fun _ => rfl)

theorem quiet_rtcField (i : Nat) (s : State) : Quiet s (rtcField i s).2 := quiet_ask s _ fun _ => rfl

theorem quiet_drawIrqBits (s : State) : Quiet s (drawIrqBits s).2 :=
  .of_eq rfl rfl rfl rfl rfl rfl rfl rfl rfl

theorem quiet_setBank (b : Fin 3) (s : State) : Quiet s (setBank b s) :=
  (Quiet.of_eq rfl rfl rfl rfl rfl rfl rfl rfl rfl : Quiet s { s with bank := b }).trans
    (quiet_send _ (by simp [Event.beforeRelease]))

theorem quiet_validate (s : State) : Quiet s (validate s) := .of_eq rfl rfl rfl rfl rfl rfl rfl rfl rfl

theorem quiet_selectBank (d : Byte) (s : State) : Quiet s (selectBank d s) := by
  unfold selectBank
  split
  · exact quiet_setBank _ s
  · exact .refl s

theorem quiet_writeGpio (r : GpioReg) (d : Byte) (s : State) : Quiet s (writeGpio r d s) := by
  unfold writeGpio
  split
  · exact quiet_deliver s _ (by simp [Event.beforeRelease])
  · exact .refl s

theorem quiet_readGpio (r : GpioReg) (s : State) : Quiet s (readGpio r s).2 := by
  unfold readGpio
  split
  · exact quiet_gpioRead r s
  · exact .refl s

theorem quiet_selectDisk (d : Byte) (s : State) : Quiet s (selectDisk d s) := by
  unfold selectDisk
  split
  · exact quiet_recordCode ((Quiet.of_eq rfl rfl rfl rfl rfl rfl rfl rfl rfl : Quiet s { s with dsk := d }).trans
      (quiet_bsOpen _ _))
  · exact .of_eq rfl rfl rfl rfl rfl rfl rfl rfl rfl

theorem quiet_selectTrack (d : Byte) (s : State) : Quiet s (selectTrack d s) := by
  unfold selectTrack
  split <;> exact .of_eq rfl rfl rfl rfl rfl rfl rfl rfl rfl

theorem quiet_transferStart (s : State) : Quiet s (transferStart s) := by
  unfold transferStart
  split
  · split
    · exact quiet_recordCode (quiet_bsSeek _ s)
    · exact quiet_validate s
  · exact .refl s

theorem quiet_flushChunk (s : State) : Quiet s (flushChunk s) := by
  have h := quiet_bsWrite (chunkBytes s.buf) s
  unfold flushChunk
  split
  all_goals
    rename_i e
    rw [e] at h
  · exact h.trans (.of_eq rfl rfl rfl rfl rfl rfl rfl rfl rfl)
  · exact h

theorem quiet_fillChunk (s : State) : Quiet s (fillChunk s) := by
  have h := quiet_bsRead Board.chunk s
  unfold fillChunk
  split
  all_goals
    rename_i e
    rw [e] at h
  · exact h.trans (.of_eq rfl rfl rfl rfl rfl rfl rfl rfl rfl)
  · exact h

theorem quiet_takeByte (d : Byte) (s : State) : Quiet s (takeByte d s) := by
  have h : Quiet s { s with buf := s.buf.set (chunkPos s.cnt).val d } :=
    .of_eq rfl rfl rfl rfl rfl rfl rfl rfl rfl
  unfold takeByte
  split
  · exact h.trans (quiet_flushChunk _)
  · exact h

theorem quiet_writeByte (d : Byte) (s : State) : Quiet s (writeByte d s) := by
  unfold writeByte
  split
  · exact quiet_takeByte d s
  · exact .refl s

theorem quiet_finalizeSector (s : State) : Quiet s (finalizeSector s) := by
  unfold finalizeSector
  split
  · exact quiet_recordCode (quiet_bsFinalize s)
  · exact .refl s

theorem quiet_endSequence (s : State) : Quiet s (endSequence s) :=
  .of_eq rfl rfl rfl rfl rfl rfl rfl rfl rfl

theorem quiet_countExchange (s : State) : Quiet s (countExchange s) :=
  .of_eq rfl rfl rfl rfl rfl rfl rfl rfl rfl

theorem quiet_writeSector (d : Byte) (s : State) : Quiet s (writeSector d s) := by
  have h := quiet_andThen (quiet_transferStart s) (quiet_writeByte d _)
  unfold writeSector
  split
  · exact quiet_andThen (quiet_andThen h (quiet_finalizeSector _))
      ((quiet_endSequence _).trans (quiet_countExchange _))
  · exact quiet_andThen h (quiet_countExchange _)

theorem quiet_readChunk (s : State) : Quiet s (readChunk s) := by
  unfold readChunk
  split
  · exact quiet_fillChunk s
  · exact .refl s

theorem quiet_readSector (s : State) : Quiet s (readSector s).2 := by
  have h := quiet_andThen (quiet_transferStart s) (quiet_readChunk _)
  unfold readSector
  split
  · refine quiet_andThen (f := fun t => countExchange (endSequence t)) h ?_
    exact (quiet_endSequence _).trans (quiet_countExchange _)
  · exact quiet_andThen h (quiet_countExchange _)

theorem quiet_startDatetime (s : State) : Quiet s (startDatetime s) := by
  unfold startDatetime
  split
  · exact quiet_rtcRefresh s
  · exact .refl s

theorem quiet_readDatetime (s : State) : Quiet s (readDatetime s).2 := by
  unfold readDatetime
  split
  · dsimp only
    refine quiet_andThen (quiet_andThen (quiet_startDatetime s) (quiet_rtcField _ _)) ?_
    exact .of_eq rfl rfl rfl rfl rfl rfl rfl rfl rfl
  · exact .of_eq rfl rfl rfl rfl rfl rfl rfl rfl rfl

theorem quiet_readIrqStatus (s : State) : Quiet s (readIrqStatus s).2 :=
  (quiet_drawIrqBits s).trans (.of_eq rfl rfl rfl rfl rfl rfl rfl rfl rfl)

/-- Whether an instruction gives the Host a byte (10_state.md R16). -/
abbrev Instr.givesByte (i : Instr) : Prop := i.phase = .executeRead ∨ i.phase = .serialRx

/-- What every meaning does, said once (40_bus_engine.md R64, R70, R71, 60_exceptions.md R116): a quiet handler, and then
one release, unless a call of the handler has not returned. -/
def Shaped (i : Instr) (s : State) : Prop :=
  (∃ w, Quiet s w ∧ w.env.liveness = .stalled ∧ exec i s = .next w) ∨
  (¬ Instr.givesByte i ∧ s.NotStuck ∧ ∃ w, Quiet s w ∧ w.NotStuck ∧ exec i s = .next (released w [.waitReset])) ∨
  (Instr.givesByte i ∧ s.NotStuck ∧ ∃ w v, Quiet s w ∧ w.NotStuck ∧ exec i s = .next (readReleased w v []))

theorem shaped_runWrite {i : Instr} {s : State} {h : State → State} (hi : ¬ Instr.givesByte i)
    (he : exec i s = runWrite h s) (hq : Quiet s (h s)) : Shaped i s := by
  unfold Shaped
  rcases runWrite_cases h s with ⟨hs, e⟩ | ⟨_, hs, e⟩ | ⟨hn, hs, e⟩
  · exact .inl ⟨s, .refl s, hs, he.trans e⟩
  · exact .inl ⟨h s, hq, hs, he.trans e⟩
  · exact .inr (.inl ⟨hi, hn, { h s with opc := opcAfterWrite (h s) }, hq.trans (.of_eq rfl rfl rfl rfl rfl rfl rfl rfl rfl), hs, he.trans e⟩)

theorem shaped_runRead {i : Instr} {s : State} {h : State → Byte × State} (hi : Instr.givesByte i)
    (he : exec i s = runRead h s) (hq : Quiet s (h s).2) : Shaped i s := by
  unfold Shaped
  rcases runRead_cases h s with ⟨hs, e⟩ | ⟨_, hs, e⟩ | ⟨hn, hs, e⟩
  · exact .inl ⟨s, .refl s, hs, he.trans e⟩
  · exact .inl ⟨(h s).2, hq, hs, he.trans e⟩
  · exact .inr (.inr ⟨hi, hn, { (h s).2 with opc := opcAfterRead (h s).2 }, _, hq.trans (.of_eq rfl rfl rfl rfl rfl rfl rfl rfl rfl), hs, he.trans e⟩)

/-- A transaction without an opcode that makes no call. -/
theorem shaped_plain {i : Instr} {s : State} {u : State} (hi : ¬ Instr.givesByte i)
    (he : exec i s = .next (s.andThen fun _ => released u [.waitReset])) (hq : Quiet s u)
    (hn : s.NotStuck → u.NotStuck) : Shaped i s := by
  unfold Shaped
  by_cases hs : s.env.liveness = .stalled
  · exact .inl ⟨s, .refl s, hs, he.trans (by rw [andThen_of_stuck hs])⟩
  · exact .inr (.inl ⟨hi, hs, u, hq, hn hs, he.trans (by rw [andThen_of_notStuck hs])⟩)

theorem shaped_serrx (s : State) : Shaped .serrx s := by
  have hq := quiet_serialPoll s
  by_cases hs : s.env.liveness = .stalled
  · exact .inl ⟨s, .refl s, hs, by rw [exec, execSerrx, andThen_of_stuck hs]⟩
  · by_cases hh : (serialPoll s).2.env.liveness = .stalled
    · exact .inl ⟨_, hq, hh, by rw [exec, execSerrx, andThen_of_notStuck hs, andThen_of_stuck hh]⟩
    · exact .inr (.inr ⟨.inr rfl, hs, _, _, hq, hh,
        by rw [exec, execSerrx, andThen_of_notStuck hs, andThen_of_notStuck hh, releaseRead_eq]⟩)

theorem exec_shape (i : Instr) (s : State) : Shaped i s := by
  have hw {i : Instr} (h : i.phase = .executeWrite) : ¬ Instr.givesByte i := by simp [Instr.givesByte, h]
  have hd {e : Event} (f : Devices → Devices) (h : e.beforeRelease) := quiet_deliver s f h
  cases i with
  | store d =>
    exact shaped_plain (u := { s with opc := d, cnt := 0 }) (by simp [Instr.givesByte, Instr.phase]) rfl
      (.of_eq rfl rfl rfl rfl rfl rfl rfl rfl rfl) id
  | intack =>
    exact shaped_plain (u := setInt false s) (by simp [Instr.givesByte, Instr.phase]) rfl
      ((Quiet.of_eq rfl rfl rfl rfl rfl rfl rfl rfl rfl : Quiet s { s with intOut := false }).trans
        (quiet_emit _ (by simp [Event.beforeRelease]))) id
  | serrx => exact shaped_serrx s
  | led d => exact shaped_runWrite (hw rfl) rfl (hd _ (by simp [Event.beforeRelease]))
  | sertx d => exact shaped_runWrite (hw rfl) rfl (hd _ (by simp [Event.beforeRelease]))
  | spkr d => exact shaped_runWrite (hw rfl) rfl (hd _ (by simp [Event.beforeRelease]))
  | gpiowr r d => exact shaped_runWrite (hw rfl) rfl (quiet_writeGpio r d s)
  | bank d => exact shaped_runWrite (hw rfl) rfl (quiet_selectBank d s)
  | irqen d => exact shaped_runWrite (hw rfl) rfl (.of_eq rfl rfl rfl rfl rfl rfl rfl rfl rfl)
  | tick d => exact shaped_runWrite (hw rfl) rfl (.of_eq rfl rfl rfl rfl rfl rfl rfl rfl rfl)
  | seldsk d => exact shaped_runWrite (hw rfl) rfl (quiet_selectDisk d s)
  | seltrk d => exact shaped_runWrite (hw rfl) rfl (quiet_selectTrack d s)
  | selsct d => exact shaped_runWrite (hw rfl) rfl (.of_eq rfl rfl rfl rfl rfl rfl rfl rfl rfl)
  | wrtsct d => exact shaped_runWrite (hw rfl) rfl (quiet_writeSector d s)
  | gpiord r => exact shaped_runRead (.inl rfl) rfl (quiet_readGpio r s)
  | status => exact shaped_runRead (.inl rfl) rfl (.refl s)
  | datetime => exact shaped_runRead (.inl rfl) rfl (quiet_readDatetime s)
  | errdisk => exact shaped_runRead (.inl rfl) rfl (.refl s)
  | rdsect => exact shaped_runRead (.inl rfl) rfl (quiet_readSector s)
  | irqstat => exact shaped_runRead (.inl rfl) rfl (quiet_readIrqStatus s)
  | ewNone o d => exact shaped_runWrite (hw rfl) rfl (.refl s)
  | erNone o => exact shaped_runRead (.inl rfl) rfl (.refl s)

/-- A stuck engine handles no transaction (60_exceptions.md R116). -/
theorem exec_of_stuck {s : State} (h : s.env.liveness = .stalled) (i : Instr) : exec i s = .next s := by
  have hw (f : State → State) : runWrite f s = .next s := by
    rw [runWrite, andThen_of_stuck h, andThen_of_stuck h]
  have hr (f : State → Byte × State) : runRead f s = .next s := by rw [runRead, andThen_of_stuck h]
  cases i
  case store => exact congrArg _ (andThen_of_stuck h _)
  case serrx => exact congrArg _ (andThen_of_stuck h _)
  case intack => exact congrArg _ (andThen_of_stuck h _)
  all_goals first | exact hw _ | exact hr _

/-- Every instruction answers a next state (00_scope.md R12, 60_exceptions.md R104). -/
theorem exec_answers (i : Instr) (s : State) : ∃ t, exec i s = .next t := by
  rcases exec_shape i s with ⟨w, _, _, e⟩ | ⟨_, _, w, _, _, e⟩ | ⟨_, _, w, v, _, _, e⟩ <;> exact ⟨_, e⟩

end Sys2Proof.Machine
end

