-- ==== Sys2Proof/Laws/Handlers.lean ====
section
/-! SUPPORT. Where the multi-byte handlers leave the stored opcode and the counter (41_dispatcher.md R77,
44_disk_transfer.md R96, 45_datetime_status_irq.md R101). -/

namespace Sys2Proof.Machine

theorem transferStart_seq (s : State) :
    (transferStart s).opc = s.opc ∧ (transferStart s).cnt = s.cnt ∧ (transferStart s).buf = s.buf := by
  rcases transferStart_cases s with ⟨_, e⟩ | ⟨_, _, _, e⟩ | ⟨_, _, _, e⟩ | ⟨_, _, e⟩ <;> rw [e] <;>
    exact ⟨rfl, rfl, rfl⟩

theorem flushChunk_seq (s : State) :
    (flushChunk s).opc = s.opc ∧ (flushChunk s).cnt = s.cnt ∧ (flushChunk s).buf = s.buf := by
  rcases flushChunk_cases s with ⟨_, e⟩ | ⟨_, e⟩ <;> rw [e] <;> exact ⟨rfl, rfl, rfl⟩

theorem writeByte_seq (d : Byte) (s : State) :
    (writeByte d s).opc = s.opc ∧ (writeByte d s).cnt = s.cnt := by
  rcases writeByte_cases d s with ⟨_, e⟩ | ⟨_, _, e⟩ | ⟨_, _, e⟩ <;> rw [e]
  · exact ⟨rfl, rfl⟩
  · exact ⟨rfl, rfl⟩
  · exact ⟨(flushChunk_seq _).1, (flushChunk_seq _).2.1⟩

theorem finalizeSector_seq (s : State) :
    (finalizeSector s).opc = s.opc ∧ (finalizeSector s).cnt = s.cnt ∧ (finalizeSector s).buf = s.buf := by
  rcases finalizeSector_cases s with ⟨_, e⟩ | ⟨_, _, e⟩ | ⟨_, _, e⟩ <;> rw [e] <;> exact ⟨rfl, rfl, rfl⟩

theorem readChunk_seq (s : State) : (readChunk s).opc = s.opc ∧ (readChunk s).cnt = s.cnt := by
  rcases readChunk_cases s with ⟨_, e⟩ | ⟨_, _, e⟩ <;> rw [e]
  · exact ⟨rfl, rfl⟩
  · rcases fillChunk_cases s with ⟨_, e⟩ | ⟨_, e⟩ <;> rw [e] <;> exact ⟨rfl, rfl⟩

/-- The state of a WRTSCT exchange before its counter moves on: a prefix of the handler that keeps opcode and counter. -/
theorem writeSector_prefix (d : Byte) (s : State) :
    ∃ u, Quiet s u ∧ u.opc = s.opc ∧ u.cnt = s.cnt ∧
      writeSector d s =
        u.andThen fun t => if 511 ≤ s.cnt.toNat then countExchange (endSequence t) else countExchange t := by
  have hb : ((transferStart s).andThen (writeByte d)).opc = s.opc ∧
      ((transferStart s).andThen (writeByte d)).cnt = s.cnt :=
    andThen_induct (P := fun t => t.opc = s.opc ∧ t.cnt = s.cnt)
      ⟨(transferStart_seq s).1, (transferStart_seq s).2.1⟩
      ⟨(writeByte_seq d _).1.trans (transferStart_seq s).1,
        (writeByte_seq d _).2.trans (transferStart_seq s).2.1⟩
  have hq := quiet_andThen (quiet_transferStart s) (quiet_writeByte d _)
  unfold writeSector
  by_cases h : 511 ≤ s.cnt.toNat
  · have hf := andThen_induct (P := fun t => t.opc = s.opc ∧ t.cnt = s.cnt) (f := finalizeSector) hb
      ⟨(finalizeSector_seq _).1.trans hb.1, (finalizeSector_seq _).2.1.trans hb.2⟩
    exact ⟨_, quiet_andThen hq (quiet_finalizeSector _), hf.1, hf.2, by
      rw [if_pos (lastExchange_iff.2 h)]; simp [h]⟩
  · exact ⟨_, hq, hb.1, hb.2, by rw [if_neg fun h' => h (lastExchange_iff.1 h')]; simp only [h, if_false]⟩

/-- The state of a RDSECT exchange before its counter moves on. -/
theorem readSector_prefix (s : State) :
    ∃ u, Quiet s u ∧ u.opc = s.opc ∧ u.cnt = s.cnt ∧ (readSector s).1 = readResult u ∧
      (readSector s).2 =
        u.andThen fun t => if 511 ≤ s.cnt.toNat then countExchange (endSequence t) else countExchange t := by
  have hb : ((transferStart s).andThen readChunk).opc = s.opc ∧
      ((transferStart s).andThen readChunk).cnt = s.cnt :=
    andThen_induct (P := fun t => t.opc = s.opc ∧ t.cnt = s.cnt)
      ⟨(transferStart_seq s).1, (transferStart_seq s).2.1⟩
      ⟨(readChunk_seq _).1.trans (transferStart_seq s).1,
        (readChunk_seq _).2.trans (transferStart_seq s).2.1⟩
  refine ⟨_, quiet_andThen (quiet_transferStart s) (quiet_readChunk _), hb.1, hb.2, rfl, ?_⟩
  unfold readSector
  by_cases h : 511 ≤ s.cnt.toNat
  · rw [if_pos (lastExchange_iff.2 h)]; simp [h]
  · rw [if_neg fun h' => h (lastExchange_iff.1 h')]; simp only [h, if_false]

/-- Where the end of an exchange leaves the opcode and the counter (44_disk_transfer.md R96): it moves them on, unless
the engine is stuck before it. -/
theorem exchange_seq {s u v : State} (hc : u.cfg = s.cfg) (ho : u.opc = s.opc) (hn : u.cnt = s.cnt)
    (hv : v = u.andThen fun t =>
      if 511 ≤ s.cnt.toNat then countExchange (endSequence t) else countExchange t) :
    (v.env.liveness = .stalled ∧ v.opc = s.opc ∧ v.cnt = s.cnt) ∨
    (v.NotStuck ∧ v.opc = (if 511 ≤ s.cnt.toNat then s.cfg.op.nop else s.opc) ∧ v.cnt = s.cnt + 1) := by
  by_cases hs : u.env.liveness = .stalled
  · rw [andThen_of_stuck hs] at hv
    subst hv
    exact .inl ⟨hs, ho, hn⟩
  · rw [andThen_of_notStuck hs] at hv
    refine .inr ?_
    by_cases h : 511 ≤ s.cnt.toNat
    · rw [if_pos h] at hv
      subst hv
      rw [if_pos h]
      exact ⟨hs, congrArg (fun c => c.op.nop) hc, congrArg (· + 1) hn⟩
    · rw [if_neg h] at hv
      subst hv
      rw [if_neg h]
      exact ⟨hs, ho, congrArg (· + 1) hn⟩

/-- H_WRTSCT's opcode and counter (44_disk_transfer.md R96, 60_exceptions.md R116). -/
theorem writeSector_seq (d : Byte) (s : State) :
    ((writeSector d s).env.liveness = .stalled ∧ (writeSector d s).opc = s.opc ∧
      (writeSector d s).cnt = s.cnt) ∨
    ((writeSector d s).NotStuck ∧
      (writeSector d s).opc = (if 511 ≤ s.cnt.toNat then s.cfg.op.nop else s.opc) ∧
      (writeSector d s).cnt = s.cnt + 1) := by
  obtain ⟨u, hq, ho, hn, e⟩ := writeSector_prefix d s
  exact exchange_seq hq.cfg ho hn e

/-- H_RDSECT's opcode and counter (44_disk_transfer.md R96, 60_exceptions.md R116). -/
theorem readSector_seq (s : State) :
    ((readSector s).2.env.liveness = .stalled ∧ (readSector s).2.opc = s.opc ∧
      (readSector s).2.cnt = s.cnt) ∨
    ((readSector s).2.NotStuck ∧
      (readSector s).2.opc = (if 511 ≤ s.cnt.toNat then s.cfg.op.nop else s.opc) ∧
      (readSector s).2.cnt = s.cnt + 1) := by
  obtain ⟨u, hq, ho, hn, _, e⟩ := readSector_prefix s
  exact exchange_seq hq.cfg ho hn e

/-- The refresh of a DATETIME sequence keeps the opcode and the counter (45_datetime_status_irq.md R101). -/
theorem startDatetime_seq (s : State) : (startDatetime s).opc = s.opc ∧ (startDatetime s).cnt = s.cnt := by
  unfold startDatetime rtcRefresh
  split
  · rcases ask_cases (s.emit .rtcRefresh) () (fun env => { env with
      rtc := (s.env.rtcIn.next Config.rtcFields).1, rtcIn := (s.env.rtcIn.next Config.rtcFields).2 }) with
      ⟨_, e⟩ | ⟨_, e⟩ <;> rw [e] <;> exact ⟨rfl, rfl⟩
  · exact ⟨rfl, rfl⟩

/-- H_DATETIME's opcode and counter (45_datetime_status_irq.md R101, 60_exceptions.md R116). -/
theorem readDatetime_seq {s : State} (hs : s.NotStuck) :
    ((readDatetime s).2.env.liveness = .stalled ∧ (readDatetime s).2.opc = s.opc ∧
      (readDatetime s).2.cnt = s.cnt) ∨
    ((readDatetime s).2.NotStuck ∧
      (readDatetime s).2.opc = (if 6 ≤ s.cnt.toNat then s.cfg.op.nop else s.opc) ∧
      (readDatetime s).2.cnt = if s.cnt.toNat < 7 then s.cnt + 1 else s.cnt) := by
  simp only [readDatetime, Board.datetimeLen, rtcField_snd]
  by_cases h : s.cnt.toNat < 7
  · rw [if_pos h, if_pos h]
    have hq : ((startDatetime s).andThen State.call).opc = s.opc ∧
        ((startDatetime s).andThen State.call).cnt = s.cnt :=
      andThen_induct (P := fun t => t.opc = s.opc ∧ t.cnt = s.cnt) (startDatetime_seq s) (startDatetime_seq s)
    by_cases hd : ((startDatetime s).andThen State.call).env.liveness = .stalled
    · exact .inl (by
        dsimp only
        rw [andThen_of_stuck hd]
        exact ⟨hd, hq⟩)
    · refine .inr ?_
      dsimp only
      rw [andThen_of_notStuck hd]
      refine ⟨hd, ?_, rfl⟩
      by_cases h6 : 6 ≤ s.cnt.toNat
      · rw [if_pos h6]
        exact if_pos (by omega)
      · rw [if_neg h6]
        exact if_neg (by omega)
  · rw [if_neg h, if_neg h, if_pos (by omega)]
    exact .inr ⟨hs, rfl, rfl⟩

/-- Under legal parameters OPC_NOP is none of the four armed opcodes (30_encoding.md R56 (b)). -/
theorem nop_not_armed {p : Params} (hp : p.Wf) :
    p.op.nop ≠ p.op.seltrk ∧ p.op.nop ≠ p.op.wrtsct ∧ p.op.nop ≠ p.op.datetime ∧ p.op.nop ≠ p.op.rdsect := by
  have h := hp.2.1
  simp only [OpcodeMap.writeKeys, OpcodeMap.readKeys, List.mem_append, List.mem_cons, not_or] at h
  tauto

end Sys2Proof.Machine
end

