-- ==== Sys2Proof/Laws/Memory.lean ====
section
/-! SUPPORT. The bytes of a disk image: a read after a write, and every operation keeps the canonical form. -/

namespace Sys2Proof.Machine

@[simp] theorem Memory.read_nil (a : Nat) : Memory.read [] a = Memory.unlisted := rfl

theorem Memory.wfFrom_mono {lo lo' : Nat} {m : Memory} (h : lo' ≤ lo) (hm : Memory.wfFrom lo m = true) :
    Memory.wfFrom lo' m = true := by
  cases m with
  | nil => rfl
  | cons c m =>
    simp only [Memory.wfFrom, Bool.and_eq_true, decide_eq_true_eq] at hm ⊢
    exact ⟨⟨by omega, hm.1.2⟩, hm.2⟩

/-- Below its first cell an image reads as an unlisted byte. -/
theorem Memory.read_below {lo a : Nat} {m : Memory} (hm : Memory.wfFrom lo m = true) (h : a < lo) :
    Memory.read m a = Memory.unlisted := by
  induction m generalizing lo with
  | nil => rfl
  | cons c m ih =>
    simp only [Memory.wfFrom, Bool.and_eq_true, decide_eq_true_eq] at hm
    have : a ≠ c.1 := by omega
    simp only [Memory.read, this, if_false]
    exact ih hm.2 (by omega)

theorem Memory.wfFrom_put {lo a : Nat} {v : Byte} {m : Memory} (hlo : lo ≤ a)
    (hm : Memory.wfFrom (a + 1) m = true) : Memory.wfFrom lo (Memory.put a v m) = true := by
  unfold Memory.put
  split
  · exact Memory.wfFrom_mono (by omega) hm
  · simp_all [Memory.wfFrom]

theorem Memory.wfFrom_write {lo a : Nat} {v : Byte} {m : Memory} (hlo : lo ≤ a)
    (hm : Memory.wfFrom lo m = true) : Memory.wfFrom lo (Memory.write m a v) = true := by
  induction m generalizing lo with
  | nil => exact Memory.wfFrom_put hlo rfl
  | cons c m ih =>
    have hm' := hm
    simp only [Memory.wfFrom, Bool.and_eq_true, decide_eq_true_eq] at hm'
    simp only [Memory.write]
    split
    · refine Memory.wfFrom_put hlo ?_
      simp only [Memory.wfFrom, Bool.and_eq_true, decide_eq_true_eq]
      exact ⟨⟨by omega, hm'.1.2⟩, hm'.2⟩
    · split
      · rename_i h
        subst h
        exact Memory.wfFrom_put hlo hm'.2
      · simp only [Memory.wfFrom, Bool.and_eq_true, decide_eq_true_eq]
        exact ⟨hm'.1, ih (by omega) hm'.2⟩

/-- A write keeps the canonical form. -/
theorem Memory.wf_write {m : Memory} (hm : Memory.wf m = true) (a : Nat) (v : Byte) :
    Memory.wf (Memory.write m a v) = true := Memory.wfFrom_write (Nat.zero_le a) hm

theorem Memory.wf_writeBytes {m : Memory} (hm : Memory.wf m = true) (a : Nat) (vs : List Byte) :
    Memory.wf (Memory.writeBytes m a vs) = true := by
  induction vs generalizing m a with
  | nil => exact hm
  | cons v vs ih => exact ih (Memory.wf_write hm a v) (a + 1)

theorem Memory.read_put {a b : Nat} {v : Byte} {m : Memory} (hm : Memory.wfFrom (a + 1) m = true) :
    Memory.read (Memory.put a v m) b = if b = a then v else Memory.read m b := by
  unfold Memory.put
  by_cases hv : v = Memory.unlisted
  · by_cases hb : b = a
    · subst hb
      simp [hv, Memory.read_below hm (Nat.lt_succ_self b)]
    · simp [hv, hb]
  · simp [hv, Memory.read]

/-- A read after a write gives the byte written at its offset and leaves every other byte. -/
theorem Memory.read_writeFrom {lo a b : Nat} {v : Byte} {m : Memory} (hlo : lo ≤ a)
    (hm : Memory.wfFrom lo m = true) :
    Memory.read (Memory.write m a v) b = if b = a then v else Memory.read m b := by
  induction m generalizing lo with
  | nil => exact Memory.read_put rfl
  | cons c m ih =>
    have hm' := hm
    simp only [Memory.wfFrom, Bool.and_eq_true, decide_eq_true_eq] at hm'
    simp only [Memory.write]
    split
    · refine Memory.read_put ?_
      simp only [Memory.wfFrom, Bool.and_eq_true, decide_eq_true_eq]
      exact ⟨⟨by omega, hm'.1.2⟩, hm'.2⟩
    · split
      · rename_i h
        subst h
        rw [Memory.read_put hm'.2]
        by_cases hb : b = c.1 <;> simp [Memory.read, hb]
      · simp only [Memory.read, ih (by omega) hm'.2]
        by_cases hb : b = c.1
        · have : b ≠ a := by omega
          simp_all
        · simp [hb]

theorem Memory.read_write {m : Memory} (hm : Memory.wf m = true) (a b : Nat) (v : Byte) :
    Memory.read (Memory.write m a v) b = if b = a then v else Memory.read m b :=
  Memory.read_writeFrom (Nat.zero_le a) hm

/-- A read after MemWrite: the stored bytes at their offsets, every other byte as before. -/
theorem Memory.read_writeBytes {m : Memory} (hm : Memory.wf m = true) (a b : Nat) (vs : List Byte) :
    Memory.read (Memory.writeBytes m a vs) b =
      if a ≤ b ∧ b < a + vs.length then vs.getD (b - a) 0 else Memory.read m b := by
  induction vs generalizing m a with
  | nil =>
    have : ¬ (a ≤ b ∧ b < a) := by omega
    simp [Memory.writeBytes, this]
  | cons v vs ih =>
    rw [Memory.writeBytes, ih (Memory.wf_write hm a v), Memory.read_write hm]
    by_cases h : a + 1 ≤ b ∧ b < a + 1 + vs.length
    · have h' : a ≤ b ∧ b < a + (v :: vs).length := by simp; omega
      obtain ⟨k, hk⟩ : ∃ k, b = a + 1 + k := ⟨b - (a + 1), by omega⟩
      subst hk
      have e1 : a + 1 + k - (a + 1) = k := by omega
      have e2 : a + 1 + k - a = k + 1 := by omega
      rw [if_pos h, if_pos h', e1, e2]
      rfl
    · rw [if_neg h]
      by_cases hb : b = a
      · subst hb; simp
      · have h' : ¬ (a ≤ b ∧ b < a + (v :: vs).length) := by simp; omega
        rw [if_neg hb, if_neg h']

@[simp] theorem Memory.length_readBytes (m : Memory) (a k : Nat) : (Memory.readBytes m a k).length = k := by
  induction k generalizing a with
  | zero => rfl
  | succ k ih => simp [Memory.readBytes, ih]

theorem Memory.getElem_readBytes (m : Memory) (a k i : Nat) (h : i < (Memory.readBytes m a k).length) :
    (Memory.readBytes m a k)[i] = Memory.read m (a + i) := by
  induction k generalizing a i with
  | zero => simp [Memory.readBytes] at h
  | succ k ih =>
    cases i with
    | zero => simp [Memory.readBytes]
    | succ i =>
      simp only [Memory.readBytes, List.getElem_cons_succ]
      rw [ih]
      congr 1
      omega

theorem Memory.all_lt_put {n a : Nat} {v : Byte} {m : Memory} (ha : a < n)
    (hm : m.all (fun c => decide (c.1 < n)) = true) :
    (Memory.put a v m).all (fun c => decide (c.1 < n)) = true := by
  unfold Memory.put
  split
  · exact hm
  · rw [List.all_cons, hm]
    simp [ha]

/-- A write inside an image lists no byte past its end. -/
theorem Memory.all_lt_write {n a : Nat} {v : Byte} {m : Memory} (ha : a < n)
    (hm : m.all (fun c => decide (c.1 < n)) = true) :
    (Memory.write m a v).all (fun c => decide (c.1 < n)) = true := by
  induction m with
  | nil => exact Memory.all_lt_put ha rfl
  | cons c m ih =>
    have hm' := hm
    rw [List.all_cons, Bool.and_eq_true] at hm'
    simp only [Memory.write]
    split
    · exact Memory.all_lt_put ha hm
    · split
      · exact Memory.all_lt_put ha hm'.2
      · rw [List.all_cons, hm'.1, ih hm'.2]
        rfl

theorem Memory.all_lt_writeBytes {n a : Nat} {m : Memory} {vs : List Byte} (ha : a + vs.length ≤ n)
    (hm : m.all (fun c => decide (c.1 < n)) = true) :
    (Memory.writeBytes m a vs).all (fun c => decide (c.1 < n)) = true := by
  induction vs generalizing m a with
  | nil => exact hm
  | cons v vs ih =>
    simp only [List.length_cons] at ha
    exact ih (by omega) (Memory.all_lt_write (by omega) hm)

end Sys2Proof.Machine
end

