-- ==== Sys2Proof/Laws/PerInstr.lean ====
section
/-! SUPPORT. Statements made per instruction. The family EncodedPhase: the lines of an instruction's encoding select
its handling phase (10_state.md R16, 40_bus_engine.md R64). -/

namespace Sys2Proof.Laws.EncodedPhase

/-- Under every choice of parameters, the lines of the encoded word select the instruction's phase. -/
def Statement (i : Instr) : Prop :=
  ∀ p : Params,
    phaseOf ((encode p i).getLsbD 18) ((encode p i).getLsbD 17) ((encode p i).getLsbD 16) = i.phase

/-- The lines of a packed word. -/
theorem of_packDW {p : Params} {i : Instr} {wr rd a : Bool} {o d : Byte}
    (h : encode p i = packDW wr rd a o d) (hp : phaseOf wr rd a = i.phase) :
    phaseOf ((encode p i).getLsbD 18) ((encode p i).getLsbD 17) ((encode p i).getLsbD 16) = i.phase := by
  rw [h, packDW_wr, packDW_rd, packDW_ad0, hp]

theorem store (d : Byte) : Statement (.store d) := fun _ => of_packDW rfl rfl

theorem serrx : Statement .serrx := fun _ => of_packDW rfl rfl

theorem intack : Statement .intack := fun _ => of_packDW rfl rfl

theorem led (d : Byte) : Statement (.led d) := fun _ => of_packDW rfl rfl

theorem sertx (d : Byte) : Statement (.sertx d) := fun _ => of_packDW rfl rfl

theorem gpiowr (r : GpioReg) (d : Byte) : Statement (.gpiowr r d) := fun _ => of_packDW rfl rfl

theorem bank (d : Byte) : Statement (.bank d) := fun _ => of_packDW rfl rfl

theorem irqen (d : Byte) : Statement (.irqen d) := fun _ => of_packDW rfl rfl

theorem tick (d : Byte) : Statement (.tick d) := fun _ => of_packDW rfl rfl

theorem spkr (d : Byte) : Statement (.spkr d) := fun _ => of_packDW rfl rfl

theorem seldsk (d : Byte) : Statement (.seldsk d) := fun _ => of_packDW rfl rfl

theorem seltrk (d : Byte) : Statement (.seltrk d) := fun _ => of_packDW rfl rfl

theorem selsct (d : Byte) : Statement (.selsct d) := fun _ => of_packDW rfl rfl

theorem wrtsct (d : Byte) : Statement (.wrtsct d) := fun _ => of_packDW rfl rfl

theorem gpiord (r : GpioReg) : Statement (.gpiord r) := fun _ => of_packDW rfl rfl

theorem status : Statement .status := fun _ => of_packDW rfl rfl

theorem datetime : Statement .datetime := fun _ => of_packDW rfl rfl

theorem errdisk : Statement .errdisk := fun _ => of_packDW rfl rfl

theorem rdsect : Statement .rdsect := fun _ => of_packDW rfl rfl

theorem irqstat : Statement .irqstat := fun _ => of_packDW rfl rfl

theorem ewNone (o d : Byte) : Statement (.ewNone o d) := fun _ => of_packDW rfl rfl

theorem erNone (o : Byte) : Statement (.erNone o) := fun _ => of_packDW rfl rfl

end Sys2Proof.Laws.EncodedPhase
end

