-- ==== Sys2Proof/Laws/Step.lean ====
section
/-! SUPPORT. What a step can do, said once (40_bus_engine.md R62, R64): an idle pass, or one transaction and the end
of its pass. -/

namespace Sys2Proof.Machine

/-- The Host's turn changes only the lines and the Host's list (60_exceptions.md R118). -/
theorem hostTurn_eq (s : State) : ∃ l m, hostTurn s = { s with lines := l, host := m } := by
  unfold hostTurn
  split
  · exact ⟨s.lines, s.host, rfl⟩
  · split
    · exact ⟨s.lines, s.host, rfl⟩
    · exact ⟨s.lines, _, rfl⟩
    · exact ⟨_, _, rfl⟩

/-- A parked Host makes no move (70_reset_and_hazards.md R122). -/
theorem hostTurn_of_parked {s : State} (h : s.lines.wait = true) : hostTurn s = s := by
  simp [hostTurn, h]

/-- The Host's turn makes no collaborator call. -/
theorem hostTurn_env (s : State) : (hostTurn s).env = s.env := by
  obtain ⟨l, m, h⟩ := hostTurn_eq s
  rw [h]

/-- A stuck engine has no end of pass (60_exceptions.md R116). -/
theorem endPass_of_stuck {s : State} (h : s.env.liveness = .stalled) : endPass s = s := andThen_of_stuck h _

/-- What a pass does before its tick check: nothing with no transaction pending, otherwise that transaction
(40_bus_engine.md R62, R64). -/
theorem handle_cases (s : State) :
    (s.lines.wait = false ∧ handle s = .next s) ∨
    (s.lines.wait = true ∧ ∃ u, exec (decodeWord s.cfg (sampleWord s)) s = .next u ∧ handle s = .next u) := by
  unfold handle
  split
  · rename_i hw
    obtain ⟨u, hu⟩ := exec_answers (decodeWord s.cfg (sampleWord s)) s
    exact .inr ⟨hw, u, hu, hu⟩
  · rename_i hw
    exact .inl ⟨by simpa using hw, rfl⟩

/-- A pass always comes to its tick check. -/
theorem handle_answers (s : State) : ∃ u, handle s = .next u := by
  rcases handle_cases s with ⟨_, e⟩ | ⟨_, _, _, e⟩ <;> exact ⟨_, e⟩

/-- A step is the Host's turn, the pending transaction and the end of the pass (40_bus_engine.md R62). -/
theorem step_of_handle {s u : State} (h : handle (hostTurn s) = .next u) : step s = .next (endPass u) :=
  congrArg afterTransaction h

/-- What a step does: the end of an idle pass, or one transaction and the end of its pass (40_bus_engine.md R62). -/
theorem step_cases (s : State) :
    (s.lines.wait = false ∧ (hostTurn s).lines.wait = false ∧ step s = .next (endPass (hostTurn s))) ∨
    ((hostTurn s).lines.wait = true ∧
      ∃ u, exec (decodeWord (hostTurn s).cfg (sampleWord (hostTurn s))) (hostTurn s) = .next u ∧
        step s = .next (endPass u)) := by
  rcases handle_cases (hostTurn s) with ⟨hw, e⟩ | ⟨hw, u, hu, e⟩
  · refine .inl ⟨?_, hw, step_of_handle e⟩
    by_contra hx
    rw [hostTurn_of_parked (by simpa using hx)] at hw
    exact hx hw
  · exact .inr ⟨hw, u, hu, step_of_handle e⟩

/-- The step of a stuck engine is the Host's turn (60_exceptions.md R116). -/
theorem step_of_stuck {s : State} (h : s.env.liveness = .stalled) : step s = .next (hostTurn s) := by
  have ht : (hostTurn s).env.liveness = .stalled := by rw [hostTurn_env, h]
  rcases step_cases s with ⟨_, _, e⟩ | ⟨_, u, hu, e⟩
  · rw [e, endPass_of_stuck ht]
  · rw [exec_of_stuck ht] at hu
    cases hu
    rw [e, endPass_of_stuck ht]

/-- The end of a pass changes only the tick's fields, the trace and the Environment: nothing in a stuck engine; the
count of passes with the tick disabled; otherwise the time is read, which may not return, and the tick may fire
(60_exceptions.md R109). -/
theorem endPass_cases (s : State) :
    (s.env.liveness = .stalled ∧ endPass s = s) ∨
    (s.NotStuck ∧ s.tickEn = false ∧
      endPass s = { s with env := { s.env with moment := s.env.moment + 1 } }) ∨
    (s.NotStuck ∧ s.tickEn = true ∧ s.call.env.liveness = .stalled ∧
      endPass s = { s with env := { s.call.env with moment := s.env.moment + 1 } }) ∨
    (s.tickEn = true ∧ s.call.NotStuck ∧ ∃ (now : Nat) (f : Feed Nat),
      now = s.env.clock + (s.env.timeIn.next Config.timeStep).1 ∧
      f = (s.env.timeIn.next Config.timeStep).2 ∧
      endPass s =
        if tickDue now s.lastTick s.tickIv then
          { s with
            lastTick := now, intOut := true, irqTick := true, trace := s.trace ++ [.int true]
            env := { s.call.env with clock := now, timeIn := f, moment := s.env.moment + 1 } }
        else { s with env := { s.call.env with clock := now, timeIn := f, moment := s.env.moment + 1 } }) := by
  by_cases hs : s.env.liveness = .stalled
  · exact .inl ⟨hs, endPass_of_stuck hs⟩
  · rw [endPass, andThen_of_notStuck hs]
    refine .inr ?_
    rcases tickCheck_cases { s with env := { s.env with moment := s.env.moment + 1 } } with
      ⟨h, e⟩ | ⟨h, hc, e⟩ | ⟨h, hc, now, f, hn, hf, e⟩
    · exact .inl ⟨hs, h, e⟩
    · exact .inr (.inl ⟨hs, h, hc, e⟩)
    · exact .inr (.inr ⟨h, hc, now, f, hn, hf, e⟩)

end Sys2Proof.Machine
end

