-- ==== Sys2Proof/Laws/Run.lean ====
section
/-! SUPPORT. The run of a Host program (70_reset_and_hazards.md R130): what one more pass adds, that the observation does
not depend on the bound, and that the end of a pass neither ends a run nor undoes its end. -/

namespace Sys2Proof.Machine

@[simp] theorem observation_engine (s : State) : s.observation.engine = s.engine := rfl
@[simp] theorem observation_trace (s : State) : s.observation.trace = s.trace := rfl
@[simp] theorem observation_env (s : State) : s.observation.env = s.env := rfl

/-- When a run has ended (70_reset_and_hazards.md R130). -/
theorem runEnded_iff (s : State) : s.runEnded = true ↔ (∀ m ∈ s.host, m = .idle) ∧ s.lines.wait = false := by
  simp [State.runEnded, State.allIssued]

/-- A parked Host is in the middle of its run. -/
theorem runEnded_of_parked {s : State} (h : s.lines.wait = true) : s.runEnded = false := by
  simp [State.runEnded, h]

/-- The end of a pass leaves the lines and the Host's list. -/
theorem endPass_keeps (s : State) : (endPass s).lines = s.lines ∧ (endPass s).host = s.host := by
  rcases endPass_cases s with ⟨_, e⟩ | ⟨_, _, e⟩ | ⟨_, _, _, e⟩ | ⟨_, _, _, _, _, _, e⟩ <;> rw [e]
  case inr.inr.inr => split <;> exact ⟨rfl, rfl⟩
  all_goals exact ⟨rfl, rfl⟩

@[simp] theorem endPass_runEnded (s : State) : (endPass s).runEnded = s.runEnded := by
  simp [State.runEnded, State.allIssued, endPass_keeps]

/-- The observation of a run that has ended is the state's own, however many passes are looked at. -/
theorem observeRun_of_ended {s : State} (h : s.runEnded = true) (n : Nat) : observeRun n s = some s.observation := by
  cases n <;> simp [observeRun, h]

/-- What one more pass adds to a run that has not ended. -/
theorem observeRun_succ {s u : State} (h : s.runEnded = false) (hu : handle (hostTurn s) = .next u) (n : Nat) :
    observeRun (n + 1) s = if u.runEnded then some u.observation else observeRun n (endPass u) := by
  simp [observeRun, h, hu]

/-- One more pass does not change the observation of a run that has ended: a run has one observation. -/
theorem observeRun_mono {n : Nat} {s : State} {o : Observation} (h : observeRun n s = some o) :
    observeRun (n + 1) s = some o := by
  induction n generalizing s with
  | zero =>
    cases hs : s.runEnded
    · simp [observeRun, hs] at h
    · rwa [observeRun_of_ended hs] at h ⊢
  | succ n ih =>
    cases hs : s.runEnded
    · obtain ⟨u, e⟩ := handle_answers (hostTurn s)
      rw [observeRun_succ hs e] at h ⊢
      split at h
      · rename_i hu; rw [if_pos hu]; exact h
      · rename_i hu; rw [if_neg hu]; exact ih h
    · rwa [observeRun_of_ended hs] at h ⊢

end Sys2Proof.Machine
end

