-- ==== Sys2Proof/Laws/Storage.lean ====
section
/-! SUPPORT. The BlockStore calls: their answers are bounded (20_memory.md R41), and what they do to the files of
the reference BlockStore (20_memory.md R42). -/

namespace Sys2Proof.Machine

@[simp] theorem OracleStore.after_cur (o : OracleStore) (q : StoreRequest) :
    (o.after q).cur = q.curAfter (o.answer q) o.cur := rfl

@[simp] theorem OracleStore.after_pos (o : OracleStore) (q : StoreRequest) :
    (o.after q).pos = q.posAfter (o.answer q) o.pos := rfl

@[simp] theorem OracleStore.after_calls (o : OracleStore) (q : StoreRequest) :
    (o.after q).calls =
      o.calls ++ [{ cur := o.cur, pos := o.pos, request := q, answer := o.answer q }] := rfl

theorem BlockStore.length_read_le (b : BlockStore) (n : Nat) : (b.read n).1.2.length ≤ n := by
  cases b with
  | oracle o => simp [BlockStore.read, OracleStore.answer, StoreRequest.bound]
  | reference r =>
    simp only [BlockStore.read, RefStore.read]
    split
    · simp
    · simp only [Memory.length_readBytes]
      omega

theorem BlockStore.count_write_le (b : BlockStore) (v : List Byte) : (b.write v).1.2 ≤ v.length := by
  cases b with
  | oracle o => simp [BlockStore.write, OracleStore.answer, StoreRequest.bound]
  | reference r =>
    simp only [BlockStore.write, RefStore.write]
    split <;> simp

theorem RefStore.open_files (r : RefStore) (n : FileName) : (r.open n).2.files = r.files := by
  unfold RefStore.open
  split <;> rfl

theorem RefStore.seek_files (r : RefStore) (b : Nat) : (r.seek b).2.files = r.files := by
  unfold RefStore.seek
  split <;> rfl

theorem RefStore.read_files (r : RefStore) (n : Nat) : (r.read n).2.files = r.files := by
  unfold RefStore.read
  split <;> rfl

/-- The file found under a name after the bytes of a file are replaced. -/
theorem RefStore.find_setImage (r : RefStore) (name n : FileName) (m : Memory) :
    (r.setImage name m).find? (fun f => f.name == n) =
      (r.file n).map (fun f => if f.name == name then { f with image := m } else f) := by
  have e : (fun f : DiskFile => f.name == n) ∘
      (fun f => if f.name == name then { f with image := m } else f) = fun f => f.name == n := by
    funext f
    simp only [Function.comp]
    split <;> rfl
  rw [RefStore.setImage, List.find?_map, e, RefStore.file]

theorem RefStore.file_name {r : RefStore} {n : FileName} {f : DiskFile} (h : r.file n = some f) :
    f.name = n := by
  simpa using List.find?_some h

theorem RefStore.mem_of_file {r : RefStore} {n : FileName} {f : DiskFile} (h : r.file n = some f) :
    f ∈ r.files := List.mem_of_find?_eq_some h

/-- Replacing an image by one in canonical form inside the file keeps every file well formed. -/
theorem RefStore.all_wf_setImage {r : RefStore} {name : FileName} {m : Memory} {f : DiskFile}
    (hr : r.files.all DiskFile.wf = true) (hn : (r.files.map DiskFile.name).Nodup)
    (hf : r.file name = some f) (hm : DiskFile.wf { f with image := m } = true) :
    (r.setImage name m).all DiskFile.wf = true := by
  rw [List.all_eq_true] at hr ⊢
  intro g hg
  obtain ⟨g', hg', rfl⟩ := List.mem_map.1 hg
  split
  · rename_i h
    have e : g' = f := List.inj_on_of_nodup_map hn hg' (RefStore.mem_of_file hf)
      ((beq_iff_eq.1 h).trans (RefStore.file_name hf).symm)
    exact e ▸ hm
  · exact hr g' hg'

theorem RefStore.names_setImage (r : RefStore) (name : FileName) (m : Memory) :
    (r.setImage name m).map (fun f => (f.name, f.length)) = r.files.map (fun f => (f.name, f.length)) := by
  rw [RefStore.setImage, List.map_map]
  refine List.map_congr_left fun f _ => ?_
  simp only [Function.comp]
  split <;> rfl

theorem RefStore.wf_iff {r : RefStore} :
    r.wf = true ↔ r.files.all DiskFile.wf = true ∧ (r.files.map DiskFile.name).Nodup ∧
      ∀ name, r.cur = some name → ∃ f, r.file name = some f ∧ r.pos ≤ f.length := by
  simp only [RefStore.wf, Bool.and_eq_true, decide_eq_true_eq, and_assoc]
  refine and_congr_right fun _ => and_congr_right fun _ => ?_
  cases hc : r.cur with
  | none => simp
  | some name =>
    cases hf : r.file name <;> simp [hf, RefStore.curLength, RefStore.curFile, hc]

/-- The length and the bytes of the current file are those of the file of that name (20_memory.md R42). -/
theorem RefStore.cur_eq {r : RefStore} {name : FileName} {f : DiskFile} (hc : r.cur = some name)
    (hf : r.file name = some f) : r.curLength = f.length ∧ r.curImage = f.image := by
  simp [RefStore.curLength, RefStore.curImage, RefStore.curFile, hc, hf]

/-- BS.open keeps the canonical form (20_memory.md R42). -/
theorem RefStore.wf_open {r : RefStore} (h : r.wf = true) (name : FileName) : (r.open name).2.wf = true := by
  rw [RefStore.wf_iff] at h ⊢
  unfold RefStore.open
  split
  · rename_i hs
    obtain ⟨f, hf⟩ := Option.isSome_iff_exists.1 hs
    refine ⟨h.1, h.2.1, fun n hn => ⟨f, ?_, Nat.zero_le _⟩⟩
    cases hn
    exact hf
  · exact ⟨h.1, h.2.1, fun n hn => by simp at hn⟩

/-- BS.seek keeps the canonical form (20_memory.md R42). -/
theorem RefStore.wf_seek {r : RefStore} (h : r.wf = true) (b : Nat) : (r.seek b).2.wf = true := by
  rw [RefStore.wf_iff] at h ⊢
  unfold RefStore.seek
  split
  · exact h
  · rename_i name hc
    refine ⟨h.1, h.2.1, fun n hn => ?_⟩
    obtain ⟨f, hf, _⟩ := h.2.2 n hn
    refine ⟨f, hf, ?_⟩
    rw [← (RefStore.cur_eq (r := r) hn hf).1]
    exact Nat.min_le_right _ _

/-- BS.read keeps the canonical form (20_memory.md R42). -/
theorem RefStore.wf_read {r : RefStore} (h : r.wf = true) (k : Nat) : (r.read k).2.wf = true := by
  rw [RefStore.wf_iff] at h ⊢
  unfold RefStore.read
  split
  · exact h
  · rename_i name hc
    refine ⟨h.1, h.2.1, fun n hn => ?_⟩
    obtain ⟨f, hf, hp⟩ := h.2.2 n hn
    have hl : r.curLength = f.length := (RefStore.cur_eq (r := r) hn hf).1
    refine ⟨f, hf, ?_⟩
    change r.pos + min k (r.curLength - r.pos) ≤ f.length
    omega

/-- BS.write keeps the canonical form: a file never grows (20_memory.md R42). -/
theorem RefStore.wf_write {r : RefStore} (h : r.wf = true) (v : List Byte) : (r.write v).2.wf = true := by
  rw [RefStore.wf_iff] at h ⊢
  unfold RefStore.write
  split
  · exact h
  · rename_i name hc
    obtain ⟨f, hf, hp⟩ := h.2.2 name hc
    obtain ⟨hl, hi⟩ := RefStore.cur_eq hc hf
    have hw : DiskFile.wf f = true := List.all_eq_true.1 h.1 f (RefStore.mem_of_file hf)
    simp only [DiskFile.wf, Bool.and_eq_true] at hw
    refine ⟨RefStore.all_wf_setImage h.1 h.2.1 hf ?_, ?_, fun n hn => ?_⟩
    · simp only [DiskFile.wf, Bool.and_eq_true, hi]
      refine ⟨Memory.wf_writeBytes hw.1 _ _, Memory.all_lt_writeBytes ?_ hw.2⟩
      rw [List.length_take, hl]
      omega
    · have := congrArg (List.map Prod.fst)
        (RefStore.names_setImage r name
          (Memory.writeBytes r.curImage r.pos (v.take (min v.length (r.curLength - r.pos)))))
      simp only [List.map_map, Function.comp_def] at this
      exact this ▸ h.2.1
    · have e : n = name := by
        rw [hc] at hn
        cases hn
        rfl
      subst e
      refine ⟨_, (RefStore.find_setImage ..).trans (by rw [hf]; rfl), ?_⟩
      have e : (if f.name == n then { f with
          image := r.curImage.writeBytes r.pos (v.take (min v.length (r.curLength - r.pos))) }
          else f).length = f.length := by split <;> rfl
      change r.pos + min v.length (r.curLength - r.pos) ≤ _
      rw [e]
      omega

/-- Every BlockStore call keeps the canonical form (20_memory.md R41, R42). -/
theorem BlockStore.wf_calls {b : BlockStore} (h : b.wf = true) (name : FileName) (n : Nat) (v : List Byte) :
    (b.open name).2.wf = true ∧ (b.seek n).2.wf = true ∧ (b.read n).2.wf = true ∧
      (b.write v).2.wf = true ∧ b.finalize.2.wf = true := by
  cases b with
  | oracle o => exact ⟨rfl, rfl, rfl, rfl, rfl⟩
  | reference r =>
    exact ⟨RefStore.wf_open h name, RefStore.wf_seek h n, RefStore.wf_read h n, RefStore.wf_write h v, h⟩

theorem BlockStore.fileByte_of_files {r r' : RefStore} (h : r'.files = r.files) (n : FileName) (a : Nat) :
    (BlockStore.reference r').fileByte n a = (BlockStore.reference r).fileByte n a := by
  simp [BlockStore.fileByte, RefStore.file, h]

/-- No BlockStore call but a write changes a byte of a file (20_memory.md R42). -/
theorem BlockStore.fileByte_calls (b : BlockStore) (name : FileName) (k : Nat) (n : FileName) (a : Nat) :
    (b.open name).2.fileByte n a = b.fileByte n a ∧ (b.seek k).2.fileByte n a = b.fileByte n a ∧
    (b.read k).2.fileByte n a = b.fileByte n a ∧ b.finalize.2.fileByte n a = b.fileByte n a := by
  cases b with
  | oracle o => exact ⟨rfl, rfl, rfl, rfl⟩
  | reference r =>
    exact ⟨BlockStore.fileByte_of_files (RefStore.open_files r name) n a,
      BlockStore.fileByte_of_files (RefStore.seek_files r k) n a,
      BlockStore.fileByte_of_files (RefStore.read_files r k) n a, rfl⟩

/-- What BS.write stores: the bytes from the current position of the current file, as far as the file reaches, and
nothing else (20_memory.md R42). -/
theorem BlockStore.fileByte_write {r : RefStore} (hr : r.wf = true) (v : List Byte) (n : FileName) (a : Nat) :
    (BlockStore.reference (r.write v).2).fileByte n a =
      if r.cur = some n ∧ r.pos ≤ a ∧ a < r.pos + v.length ∧ a < r.curLength then
        some (v.getD (a - r.pos) 0)
      else (BlockStore.reference r).fileByte n a := by
  obtain ⟨h1, h2, h3⟩ := RefStore.wf_iff.1 hr
  unfold RefStore.write
  cases hc : r.cur with
  | none => simp
  | some m =>
    obtain ⟨f, hf, hp⟩ := h3 m hc
    obtain ⟨hl, hi⟩ := RefStore.cur_eq hc hf
    have hw : DiskFile.wf f = true := List.all_eq_true.1 h1 f (RefStore.mem_of_file hf)
    simp only [DiskFile.wf, Bool.and_eq_true] at hw
    have e : RefStore.file
        { r with
          files := r.setImage m (r.curImage.writeBytes r.pos (v.take (min v.length (r.curLength - r.pos))))
          pos := r.pos + min v.length (r.curLength - r.pos) } n =
        (r.file n).map (fun g => if g.name == m then { g with
          image := r.curImage.writeBytes r.pos (v.take (min v.length (r.curLength - r.pos))) } else g) :=
      RefStore.find_setImage ..
    rw [hc] at e
    simp only [BlockStore.fileByte]
    rw [e]
    by_cases hnm : m = n
    · subst hnm
      simp only [hf, Option.map_some, true_and, RefStore.file_name hf, beq_self_eq_true, if_true, hl, hi]
      have hk : (v.take (min v.length (f.length - r.pos))).length = min v.length (f.length - r.pos) := by simp
      rw [Memory.read_writeBytes hw.1, hk]
      by_cases ha : a < f.length
      · by_cases hx : r.pos ≤ a ∧ a < r.pos + v.length
        · rw [if_pos ha, if_pos (by omega), if_pos (by omega)]
          simp only [List.getD_eq_getElem?_getD, List.getElem?_take]
          rw [if_pos (by omega)]
        · rw [if_pos ha, if_neg (by omega), if_neg (by omega), if_pos ha]
      · rw [if_neg ha, if_neg (by omega), if_neg ha]
    · simp only [Option.some.injEq, hnm, false_and, if_false]
      cases hfn : r.file n with
      | none => rfl
      | some g =>
        have hg : ¬ g.name = m := by
          rw [RefStore.file_name hfn]
          exact fun h => hnm h.symm
        simp [hg]

/-- State.reset's storage is in canonical form. -/
theorem reset_storage_wf : State.reset.env.bs.wf = true := rfl

/-- An empty image is in canonical form. -/
theorem Memory.wf_nil : Memory.wf [] = true := rfl

end Sys2Proof.Machine
end

