-- ==== Sys2Proof/Tests/Slice0.lean ====
section
/-! SUPPORT. The model's own tests: ill-formed terms refused, words written out from the spec's encodings decoded,
one-step vectors of 95_test_vectors.md, and a witness for every statement with hypotheses. Expected values come
from 95_test_vectors.md or the rule named; opcode bytes are those State.reset names (log 2). -/

namespace Sys2Proof.Tests

open Sys2Proof.Machine

/-! Well-formedness: each check refuses an ill-formed term -/

theorem smoke_gpiowr : ¬ Instr.Wf Board.params (.gpiowr 0x55 0) := by decide
theorem smoke_gpiowr_ok : Instr.Wf Board.params (.gpiowr 0x12 0) := by decide
theorem smoke_gpiord : ¬ Instr.Wf Board.params (.gpiord 0x00) := by decide
theorem smoke_gpiord_ok : Instr.Wf Board.params (.gpiord 0x13) := by decide
theorem smoke_ewNone : ¬ Instr.Wf Board.params (.ewNone 0x09 0) := by decide
theorem smoke_ewNone_ok : Instr.Wf Board.params (.ewNone 0x85 0) := by decide
theorem smoke_erNone : ¬ Instr.Wf Board.params (.erNone 0x85) := by decide
theorem smoke_erNone_ok : Instr.Wf Board.params (.erNone 0x09) := by decide

/-- The opcode map State.reset names meets 30_encoding.md R56. -/
theorem smoke_params_ok : Board.params.Wf := by decide

/-- A key of both directions is refused (30_encoding.md R56 (a)). -/
theorem smoke_params_clash :
    ¬ Params.Wf { Board.params with op := { Board.opcodes with rdsect := 0x0C } } := by decide

/-- OPC_NOP equal to a key is refused (30_encoding.md R56 (b)). -/
theorem smoke_params_nop : ¬ Params.Wf { Board.params with op := { Board.opcodes with nop := 0x0C } } := by
  decide

/-- A register named twice is refused (00_scope.md R8: the registers form a set). -/
theorem smoke_params_twice :
    ¬ Params.Wf { Board.params with op := { Board.opcodes with gpioRd := [(1, 0x81), (1, 0x82)] } } := by decide

/-! Decoding: a word for every constructor, written out from 30_encoding.md R54 and opcode_table.json -/

theorem test_decode_store : decodeTableWord 24 0b1010000000010101011 = some (.store 0xAB) := by decide
theorem test_decode_serrx : decodeTableWord 24 0b0110000110000000000 = some .serrx := by decide
theorem test_decode_intack : decodeTableWord 24 0b0010000110000000000 = some .intack := by decide
theorem test_decode_led : decodeTableWord 24 0b1000000000000000001 = some (.led 0x01) := by decide
theorem test_decode_sertx : decodeTableWord 24 0b1000000000101000001 = some (.sertx 0x41) := by decide
theorem test_decode_gpiowr : decodeTableWord 24 0b1000000010110101010 = some (.gpiowr 0x00 0xAA) := by decide
theorem test_decode_bank : decodeTableWord 24 0b1000000110100000010 = some (.bank 2) := by decide
theorem test_decode_irqen : decodeTableWord 24 0b1000000111000000010 = some (.irqen 2) := by decide
theorem test_decode_tick : decodeTableWord 24 0b1000000111100110010 = some (.tick 50) := by decide
theorem test_decode_spkr : decodeTableWord 24 0b1100000001010000000 = some (.spkr 0x80) := by decide
theorem test_decode_seldsk : decodeTableWord 24 0b1000000100100000111 = some (.seldsk 7) := by decide
theorem test_decode_seltrk : decodeTableWord 24 0b1000000101000001010 = some (.seltrk 10) := by decide
theorem test_decode_selsct : decodeTableWord 24 0b1000000101100000011 = some (.selsct 3) := by decide
theorem test_decode_wrtsct : decodeTableWord 24 0b1000000110001110111 = some (.wrtsct 0x77) := by decide
theorem test_decode_gpiord : decodeTableWord 24 0b0101000001000000000 = some (.gpiord 0x13) := by decide
theorem test_decode_status : decodeTableWord 24 0b0101000001100000000 = some .status := by decide
theorem test_decode_datetime : decodeTableWord 24 0b0101000010000000000 = some .datetime := by decide
theorem test_decode_errdisk : decodeTableWord 24 0b0101000010100000000 = some .errdisk := by decide
theorem test_decode_rdsect : decodeTableWord 24 0b0101000011000000000 = some .rdsect := by decide
theorem test_decode_irqstat : decodeTableWord 24 0b0101000100100000000 = some .irqstat := by decide
theorem test_decode_ewNone : decodeTableWord 24 0b1001111111100000101 = some (.ewNone 0xFF 5) := by decide
theorem test_decode_erNone : decodeTableWord 24 0b0100000101100000000 = some (.erNone 0x0B) := by decide

/-- A word wider than 19 bits is refused (30_encoding.md R54). -/
theorem test_decode_wide : decodeTableWord 24 0x80000 = none := by decide

/-- The encoder's words of one instruction of each form (30_encoding.md R57). -/
theorem test_encode_forms :
    encode Board.params (.store 0xAB) = 0x500AB ∧ encode Board.params .serrx = 0x30000 ∧
    encode Board.params .intack = 0x00000 ∧ encode Board.params (.seldsk 7) = 0x40907 ∧
    encode Board.params .errdisk = 0x28500 ∧ encode Board.params (.gpiord 0x12) = 0x28100 := by decide

/-! A small state, and one pass of it -/

/-- The file DS2N07, an image of zeros, open (95_test_vectors.md). -/
def disk : RefStore where
  files := [{ name := [0x44, 0x53, 0x32, 0x4E, 0x30, 0x37], length := 8388608, image := [] }]
  cur := some [0x44, 0x53, 0x32, 0x4E, 0x30, 0x37]
  pos := 0
  cNoFile := 2
  cNotOpen := 3

/-- Entry with DISK_SET 2, track 10, sector 3 and no error, over the reference BlockStore. -/
def base : State :=
  State.entry { Entry.reset with
    cfg := { Board.params with diskSet := 2 }, err0 := 0, trk0 := 10, sec0 := 3
    env := { Env.reset with bs := .reference disk } }

/-- A state with other storage. -/
def withStore (b : BlockStore) (s : State) : State := s.withBs b

/-- The oracle that gives these answers first (20_memory.md R41). -/
def answers (l : List BsAnswer) : BlockStore :=
  .oracle { answers := { pending := l, drawn := 0 }, cur := none, pos := 0, calls := [] }

/-- An answer with this code, bytes and count; after a failure no file is open. -/
def gives (code : StoreCode) (bytes : List Byte) (count : Nat) : BsAnswer :=
  { code := code, bytes := bytes, count := count, cur := none, pos := 0 }

/-- One pass with the stored opcode `o` and the transaction `tw` pending (40_bus_engine.md R62). -/
def pass (o : Byte) (tw : TW) (s : State) : Host.Outcome State Fault Refusal :=
  step { s with opc := o, lines := linesOf tw }

/-- A view of the state after a pass. -/
def after {α : Type} (r : Host.Outcome State Fault Refusal) (f : State → α) : Option α :=
  match r with
  | .next t => some (f t)
  | .fault _ => none
  | .refused _ => none

/-- RT(v), the trace of a read release (95_test_vectors.md). -/
def rt (v : Byte) : List Event :=
  [.busVal v, .busDir .output, .busReq true, .waitReset, .hold, .busDir .input, .busReq false]

/-- V-B1: TW 0x7AB, WR wins over RD. -/
theorem test_store_wr_wins :
    after (pass 0x0F 0x7AB { base with cnt := 37 }) (fun t => (t.opc, t.cnt, t.trace)) =
      some (0xAB, 0, [.waitReset]) := by decide

/-- R63, R72: after the release WAIT is deasserted. -/
theorem test_store_releases : after (pass 0x0F 0x5AB base) (fun t => t.lines.wait) = some false := by decide

/-- V-B4: a byte is received, the sequence is kept. -/
theorem test_serrx_byte :
    after (pass 0x86 0x300 { base with
        cnt := 5, env := { base.env with serialIn := { pending := [some 0x41], drawn := 0 } } })
      (fun t => (t.opc, t.cnt, t.busOut, t.trace)) = some (0x86, 5, 0x41, rt 0x41) := by decide

/-- V-B4: the channel is empty. -/
theorem test_serrx_none :
    after (pass 0x86 0x300 { base with
        env := { base.env with serialIn := { pending := [none], drawn := 0 } } })
      (fun t => t.busOut) = some 0xFF := by decide

/-- V-B3: INTACK in the middle of a write sequence. -/
theorem test_intack_keeps_sequence :
    after (pass 0x0C 0x100 { base with cnt := 17, intOut := true, irqTick := true })
      (fun t => (t.intOut, t.irqTick, t.opc, t.cnt, t.trace)) =
      some (false, true, 0x0C, 17, [.int false, .waitReset]) := by decide

/-- V-P1. -/
theorem test_led :
    after (pass 0x00 0x401 base) (fun t => (t.opc, t.trace)) = some (0xFF, [.led 0x01, .waitReset]) := by decide

/-- V-P2. -/
theorem test_sertx : after (pass 0x01 0x400 base) (fun t => t.trace) = some [.serTx 0x00, .waitReset] := by decide

/-- V-P8, with RD asserted too: WR wins. -/
theorem test_spkr : after (pass 0x02 0x680 base) (fun t => t.trace) = some [.spkr 0x80, .waitReset] := by decide

/-- V-P3. -/
theorem test_gpiowr_present :
    after (pass 0x03 0x4AA base) (fun t => t.trace) = some [.gpioWr 0x12 0xAA, .waitReset] := by decide

/-- V-P3b. -/
theorem test_gpiowr_absent :
    after (pass 0x03 0x4AA { base with cfg := { base.cfg with gpioPresent := false } })
      (fun t => t.trace) = some [.waitReset] := by decide

/-- V-P4. -/
theorem test_gpiord_present :
    after (pass 0x81 0x200 { base with
        env := { base.env with gpioIn := { pending := [0x5A], drawn := 0 } } })
      (fun t => t.trace) = some (.gpioRd 0x12 :: rt 0x5A) := by decide

/-- V-P4b. -/
theorem test_gpiord_absent :
    after (pass 0x81 0x200 { base with cfg := { base.cfg with gpioPresent := false } })
      (fun t => t.trace) = some (rt 0x00) := by decide

/-- V-P5, with the lines of bank 2 set to (1, 0). -/
theorem test_bank_two :
    after (pass 0x0D 0x402 base) (fun t => (t.bank, t.trace)) =
      some (2, [.bank true false, .waitReset]) := by decide

/-- V-P5b. -/
theorem test_bank_illegal :
    after (pass 0x0D 0x403 { base with bank := 2 }) (fun t => (t.bank, t.trace)) =
      some (2, [.waitReset]) := by decide

/-- V-P6c, and the last row's R62: no `now()` call when the transaction disabled the tick. -/
theorem test_irqen_ignores_other_bits :
    after (pass 0x0E 0x4FD { base with tickEn := true }) (fun t => (t.tickEn, t.env.timeIn.drawn)) =
      some (false, 0) := by decide

/-- V-P6d. -/
theorem test_irqen_keeps_pending :
    after (pass 0x0E 0x400 { base with tickEn := true, intOut := true, irqTick := true })
      (fun t => (t.tickEn, t.intOut, t.irqTick)) = some (false, true, true) := by decide

/-- V-P7. -/
theorem test_tick_sets : after (pass 0x0F 0x432 base) (fun t => t.tickIv) = some 50 := by decide

/-- V-P7b. -/
theorem test_tick_zero : after (pass 0x0F 0x400 { base with tickIv := 50 }) (fun t => t.tickIv) = some 50 := by
  decide

/-- S1, V-D6: the name DS2N07, and the position is reset. -/
theorem test_seldsk_opens :
    after (pass 0x09 0x407 (withStore (.reference { disk with pos := 1000 }) { base with err := 18 }))
      (fun t => (t.err, t.dsk, t.trace, t.env.bs == .reference disk)) =
      some (0, 7, [.bsOpen [0x44, 0x53, 0x32, 0x4E, 0x30, 0x37] (some 0), .waitReset], true) := by decide

/-- S2: payload 100. -/
theorem test_seldsk_illegal :
    after (pass 0x09 0x464 base) (fun t => (t.err, t.dsk, t.trace)) = some (16, 0, [.waitReset]) := by decide

/-- V-D2, row 0x34. -/
theorem test_seltrk_low :
    after (pass 0x0A 0x434 { base with trk := 0xFFFF, err := 4 })
      (fun t => (t.trk, t.err, t.cnt, t.opc)) = some (52, 4, 1, 0x0A) := by decide

/-- V-D2, row 0x00, 0x02. -/
theorem test_seltrk_high :
    after (pass 0x0A 0x402 { base with trk := 0, cnt := 1 })
      (fun t => (t.trk, t.err, t.cnt, t.opc)) = some (512, 17, 0, 0x0A) := by decide

/-- V-D3: track 512 with payload 40 gives 18. -/
theorem test_selsct_priority :
    after (pass 0x0B 0x428 { base with trk := 512 }) (fun t => (t.sec, t.err)) = some (40, 18) := by decide

/-- V-D4. -/
theorem test_selsct_clears :
    after (pass 0x0B 0x403 { base with err := 16 }) (fun t => (t.sec, t.err, t.opc)) = some (3, 0, 0xFF) := by
  decide

/-- V-D5. -/
theorem test_errdisk :
    after (pass 0x85 0x200 { base with err := 17 }) (fun t => (t.err, t.opc, t.trace)) =
      some (17, 0xFF, rt 0x11) := by decide

/-- V-X1, the first exchange: the seek to block 323. -/
theorem test_wrtsct_first :
    after (pass 0x0C 0x401 base) (fun t => (t.cnt, t.opc, t.trace)) =
      some (1, 0x0C, [.bsSeek 323 (some 0), .waitReset]) := by decide

/-- V-X1, V-X14, the last exchange: flush, finalize, the sequence ends. -/
theorem test_wrtsct_last :
    after (pass 0x0C 0x45A (withStore (.reference { disk with pos := 165856 }) { base with cnt := 511 }))
      (fun t => (t.cnt, t.opc, t.err,
        t.env.bs.fileByte [0x44, 0x53, 0x32, 0x4E, 0x30, 0x37] 165887, t.trace.length)) =
      some (512, 0xFF, 0, some 0x5A, 3) := by decide

set_option maxRecDepth 20000 in
/-- V-X2, the first exchange: the seek and the first chunk. -/
theorem test_rdsect_first :
    after (pass 0x86 0x200 (withStore
        (.reference { disk with
          files := [{ name := [0x44, 0x53, 0x32, 0x4E, 0x30, 0x37], length := 8388608,
                      image := [(165376, 0x99)] }] }) base))
      (fun t => (t.busOut, t.cnt, t.opc, t.err, t.trace.head?)) =
      some (0x99, 1, 0x86, 0, some (.bsSeek 323 (some 0))) := by decide

/-- V-X6: a nonzero code wins over a short count. -/
theorem test_rdsect_code_wins :
    after (pass 0x86 0x200 (withStore
        (answers [(gives 0 [] 0),
                  (gives 2 (List.replicate 10 7) 0)]) base))
      (fun t => (t.busOut, t.err, t.cnt)) = some (0x00, 2, 1) := by decide

/-- R36, R90: over the oracle a successful open makes the file current and resets the position. -/
theorem test_oracle_open :
    after (pass 0x09 0x407 (withStore (.oracle {
        answers := { pending := [{ gives 0 [] 0 with pos := 9 }], drawn := 0 }, cur := none, pos := 1000, calls := [] })
        base))
      (fun t => match t.env.bs with
        | .oracle o => (o.cur, o.pos)
        | .reference _ => (none, 1)) =
      some (some [0x44, 0x53, 0x32, 0x4E, 0x30, 0x37], 0) := by decide

/-- R37, R44: over the oracle the first exchange of a write seeks to byte 323 * 512 = 165,376. -/
theorem test_oracle_seek :
    after (pass 0x0C 0x401 (withStore (answers [gives 0 [] 0]) base))
      (fun t => match t.env.bs with
        | .oracle o => o.pos
        | .reference _ => 0) = some 165376 := by decide

/-- V-T1, the first byte. -/
theorem test_datetime_first :
    after (pass 0x84 0x200 { base with
        env := { base.env with
          rtcIn := { pending := [{ seconds := 56, minutes := 34, hours := 12, day := 11, month := 11,
                                   year := 26, temperature := 21 }], drawn := 0 } } })
      (fun t => (t.cnt, t.opc, t.trace, t.env.rtc.minutes)) = some (1, 0x84, .rtcRefresh :: rt 56, 34) := by
  decide

/-- V-T1, the seventh byte. -/
theorem test_datetime_last :
    after (pass 0x84 0x200 { base with
        cnt := 6, env := { base.env with rtc := { base.env.rtc with temperature := 21 } } })
      (fun t => (t.cnt, t.opc, t.trace)) = some (7, 0xFF, rt 21) := by decide

/-- V-T3: no state changes except the opcode. -/
theorem test_status :
    after (pass 0x83 0x200 { base with irqTick := true, err := 4 })
      (fun t => (t.opc, t.irqTick, t.err)) = some (0xFF, true, 4) := by decide

/-- V-T4, with the other bits drawn as 1. -/
theorem test_irqstat_set :
    after (pass 0x89 0x200 { base with
        irqTick := true, intOut := true
        env := { base.env with irqBits := { pending := [0xFD], drawn := 0 } } })
      (fun t => (t.busOut, t.irqTick, t.intOut)) = some (0xFF, false, true) := by decide

/-- V-T4, repeated. -/
theorem test_irqstat_clear :
    after (pass 0x89 0x200 { base with
        env := { base.env with irqBits := { pending := [0xFF], drawn := 0 } } })
      (fun t => (t.busOut, t.irqTick)) = some (0xFD, false) := by decide

/-- Dispatcher table: OPC_DATETIME, cnt 3, meets an Execute-Write. -/
theorem test_ewNone_resets :
    after (pass 0x84 0x405 { base with cnt := 3 }) (fun t => (t.opc, t.cnt, t.trace)) =
      some (0xFF, 3, [.waitReset]) := by decide

/-- Dispatcher table: OPC_WRTSCT, cnt 100, meets an Execute-Read. -/
theorem test_erNone_resets :
    after (pass 0x0C 0x200 { base with cnt := 100 }) (fun t => (t.opc, t.cnt, t.trace)) =
      some (0xFF, 100, rt 0x00) := by decide

/-- 2.8: with the interval 100 the tick fires at 101. -/
theorem test_tick_fires :
    after (step { base with
        tickEn := true, env := { base.env with timeIn := { pending := [101], drawn := 0 } } })
      (fun t => (t.lastTick, t.intOut, t.irqTick, t.trace)) = some (101, true, true, [.int true]) := by decide

/-- 2.8: with the interval 1, last tick 5 and time 6 it does not. -/
theorem test_tick_strict :
    after (step { base with
        tickEn := true, tickIv := 1, lastTick := 5
        env := { base.env with clock := 5, timeIn := { pending := [1], drawn := 0 } } })
      (fun t => (t.lastTick, t.intOut, t.irqTick, t.trace)) = some (5, false, false, []) := by decide

/-- V-D1. -/
theorem test_validation_matrix :
    addressCode 0 0 = 0 ∧ addressCode 511 31 = 0 ∧ addressCode 512 31 = 17 ∧ addressCode 511 32 = 18 ∧
    addressCode 512 32 = 18 ∧ addressCode 65535 0 = 17 ∧ addressCode 0 255 = 18 := by decide

/-- V-A1. -/
theorem test_block_index :
    blockIndex 0 31 = 31 ∧ blockIndex 1 0 = 32 ∧ blockIndex 10 3 = 323 ∧ blockIndex 255 17 = 8177 ∧
    blockIndex 256 0 = 8192 ∧ blockIndex 511 31 = 16383 := by decide

/-- A Host that starts a transaction has it handled in the same pass (R118, R62). -/
theorem test_host_starts :
    after (step { base with host := [hostST 0x0B, hostEW 3] }) (fun t => (t.opc, t.host)) =
      some (0x0B, [hostEW 3]) := by decide

/-- I17, R116: the open that does not return leaves the Host parked, the opcode armed and `err` as it was. -/
theorem test_stalled_open :
    after (pass 0x09 0x407 { base with err := 4, env := { base.env with liveness := .stallsAfter 0 } })
      (fun t => (t.err, t.dsk, t.opc, t.lines.wait, t.trace)) =
      some (4, 7, 0x09, true, [.bsOpen [0x44, 0x53, 0x32, 0x4E, 0x30, 0x37] none]) := by decide

/-- R10, R116: the read of a clock field that does not return leaves the sequence where it is. -/
theorem test_stalled_field :
    after (pass 0x84 0x200 { base with cnt := 3, env := { base.env with liveness := .stallsAfter 0 } })
      (fun t => (t.cnt, t.opc, t.lines.wait, t.trace)) = some (3, 0x84, true, []) := by decide

/-- R116, R62: a now() that does not return comes after the release: the STORE is done and the Host awake. -/
theorem test_stalled_now :
    after (pass 0xFF 0x50B { base with tickEn := true, env := { base.env with liveness := .stallsAfter 0 } })
      (fun t => (t.opc, t.lines.wait, t.env.liveness, t.trace)) =
      some (0x0B, false, .stalled, [.waitReset]) := by decide

/-- R81, R102: the serial output channel holds what was sent, oldest first. -/
theorem test_sertx_appends :
    after (pass 0x01 0x442 { base with env := { base.env with devices := { base.env.devices with
        serialOut := [0x41] } } }) (fun t => t.env.devices.serialOut) = some [0x41, 0x42] := by decide

/-! Witnesses: for each statement with hypotheses, a state and operands that meet them, each clause at a boundary.
The name after `witness_` is the statement's. -/

/-- `base` with every collaborator answering, which is every hypothesis on liveness. -/
theorem base_responsive : base.Responsive ∧ base.NotStuck ∧ base.call.NotStuck := by decide

/-- `base`'s parameters meet 30_encoding.md R56. -/
theorem base_wf : base.cfg.Wf := by decide

theorem witness_InvariantHoldsAtEntry : Entry.reset.cfg.Wf ∧ Entry.reset.env.bs.wf = true := by decide

/-- The storage of `base` is well formed too. -/
theorem witness_InvariantHoldsAtEntry_reference :
    base.cfg.Wf ∧ (BlockStore.reference disk).wf = true := by decide

theorem witness_DecodeOfEncodeIsTheInstruction :
    Board.params.Wf ∧ Instr.Wf Board.params (.gpiowr 0x0D 0xFF) ∧ Instr.Wf Board.params (.gpiord 0x12) ∧
    Instr.Wf Board.params (.ewNone 0xFF 0) ∧ Instr.Wf Board.params (.erNone 0x00) ∧
    Instr.Wf Board.params .status := by decide

theorem witness_DecoderAgreesWithOpcodeTable :
    Board.params.Wf ∧
    (selectRow Board.params 0x7FFFF).map OpcodeRow.mnemonic = some "STORE" ∧
    (selectRow Board.params 0x20C00).map OpcodeRow.mnemonic = some "ER_NONE" := by decide

theorem witness_EveryWordMatchesExactlyOneRow :
    Board.params.Wf ∧ ((handlerRows Board.params).filter (rowMatches 0x409C5)).length = 1 ∧
    ((handlerRows Board.params).filter (rowMatches 0x4FF00)).length = 0 := by decide

theorem witness_DecodedInstructionsAreWellFormed : Board.params.Wf := by decide

theorem witness_StepRunsTheDecodedTransaction :
    ({ base with lines := linesOf 0x5AB } : State).lines.wait = true ∧
    base.lines.wait = false ∧ ({ base with host := [hostST 1, .idle] } : State).host = .start 0x501 :: [.idle] ∧
    ({ base with host := [.idle, hostST 1] } : State).host = .idle :: [hostST 1] ∧ base.host = [] := by
  decide

theorem witness_IdlePassWithTickDisabled :
    ∃ s u : State, (s.NotStuck ∧ s.lines.wait = false ∧ s.tickEn = false ∧ s.host = .idle :: []) ∧
      (u.NotStuck ∧ u.lines.wait = false ∧ u.tickEn = false ∧ u.host = []) :=
  ⟨{ base with host := [.idle] }, base, by decide, by decide⟩

/-- A state whose next time is `n` after its last tick, with the interval 100 (2.8 of 95_test_vectors.md). -/
def ticking (n : Nat) : State :=
  { base with tickEn := true, env := { base.env with timeIn := { pending := [n], drawn := 0 } } }

theorem witness_TickFiresPastTheInterval_fires :
    (ticking 101).call.NotStuck ∧ (ticking 101).lines.wait = false ∧ (ticking 101).host = [] ∧
    (ticking 101).tickEn = true ∧
    (ticking 101).env.timeIn.next Config.timeStep = (101, { pending := [], drawn := 1 }) ∧
    (ticking 101).env.clock + 101 - (ticking 101).lastTick > (ticking 101).tickIv.toNat := by decide

theorem witness_TickFiresPastTheInterval_waits :
    (ticking 100).call.NotStuck ∧ (ticking 100).lines.wait = false ∧ (ticking 100).host = [] ∧
    (ticking 100).tickEn = true ∧
    (ticking 100).env.timeIn.next Config.timeStep = (100, { pending := [], drawn := 1 }) ∧
    (ticking 100).env.clock + 100 - (ticking 100).lastTick ≤ (ticking 100).tickIv.toNat := by decide

/-- A pass with a transaction pending and a Host that would idle; and one with the tick disabled. -/
theorem witness_TickFiresPastTheInterval_pending :
    (∃ s : State, s.call.NotStuck ∧ s.tickEn = true ∧ s.lines.wait = true ∧ s.host = [.idle] ∧
      s.env.timeIn.next Config.timeStep = (101, { pending := [], drawn := 1 })) ∧
    (base.NotStuck ∧ base.tickEn = false) ∧ (base.lines.wait = false ∧ base.host = []) :=
  ⟨⟨{ ticking 101 with lines := linesOf 0x501, host := [.idle] }, by decide⟩, by decide, by decide⟩

theorem witness_TickTouchesOnlyItsFields :
    (ticking 101).NotStuck ∧
    ¬ ({ base with env := { base.env with liveness := .stalled } } : State).NotStuck := by decide

theorem witness_StoreArmsTheOpcode : base.NotStuck := by decide

theorem witness_SerialReceiveKeepsTheSequence :
    ∃ s u : State,
      (s.env.serialIn.next Config.serialPoll = (some 0xFF, { pending := [], drawn := 1 }) ∧ s.call.NotStuck) ∧
      (u.env.serialIn.next Config.serialPoll = (none, { pending := [], drawn := 1 }) ∧ u.call.NotStuck) :=
  ⟨{ base with env := { base.env with serialIn := { pending := [some 0xFF], drawn := 0 } } },
    { base with env := { base.env with serialIn := { pending := [none], drawn := 0 } } },
    ⟨rfl, by decide⟩, ⟨rfl, by decide⟩⟩

theorem witness_InterruptAcknowledgeClearsTheLine :
    ({ base with intOut := true } : State).NotStuck ∧ ({ base with intOut := false } : State).NotStuck := by
  decide

theorem witness_NoHandlerDoesNothing :
    0xAB ∉ base.cfg.op.writeKeys ∧ 0xAB ∉ base.cfg.op.readKeys ∧ base.cfg.Wf ∧
    0x85 ∈ base.cfg.op.readKeys ∧ base.NotStuck := by decide

/-- Both directions, an armed opcode and the last exchange of its sequence. -/
theorem witness_NopResetAfterDispatch :
    base.cfg.Wf ∧
    (∃ t, exec (decodeWrite base.cfg base.cfg.op.wrtsct 0)
      { base with opc := base.cfg.op.wrtsct, cnt := 510 } = .next t ∧ t.NotStuck) ∧
    (∃ t, exec (decodeWrite base.cfg base.cfg.op.seltrk 0)
      { base with opc := base.cfg.op.seltrk } = .next t ∧ t.NotStuck) ∧
    (∃ t, exec (decodeRead base.cfg base.cfg.op.datetime)
      { base with opc := base.cfg.op.datetime, cnt := 6 } = .next t ∧ t.NotStuck) ∧
    (∃ t, exec (decodeRead base.cfg base.cfg.op.rdsect)
      { base with opc := base.cfg.op.rdsect, cnt := 511 } = .next t ∧ t.NotStuck) :=
  ⟨base_wf, ⟨_, rfl, by decide⟩, ⟨_, rfl, by decide⟩, ⟨_, rfl, by decide⟩, ⟨_, rfl, by decide⟩⟩

theorem witness_EveryTransactionReleasesTheHostOnce :
    (∃ t, exec (.store 1) base = .next t ∧ t.NotStuck) ∧ (∃ t, exec (.led 1) base = .next t ∧ t.NotStuck) ∧
    (∃ t, exec .intack base = .next t ∧ t.NotStuck) ∧ (∃ t, exec .status base = .next t ∧ t.NotStuck) ∧
    (∃ t, exec .serrx base = .next t ∧ t.NotStuck) ∧
    (Instr.store 1).phase = .storeOpcode ∧ (Instr.led 1).phase = .executeWrite ∧
    Instr.intack.phase = .interrupt ∧ Instr.status.phase = .executeRead ∧ Instr.serrx.phase = .serialRx :=
  ⟨⟨_, rfl, by decide⟩, ⟨_, rfl, by decide⟩, ⟨_, rfl, by decide⟩, ⟨_, rfl, by decide⟩, ⟨_, rfl, by decide⟩,
    rfl, rfl, rfl, rfl, rfl⟩

theorem witness_PassthroughForwardsThePayload : base.cfg.Wf ∧ base.call.NotStuck := by decide

/-- `base` without the expander. -/
def bare : State := { base with cfg := { base.cfg with gpioPresent := false } }

theorem witness_GpioWriteReachesThePresentExpander :
    base.cfg.Wf ∧ (0x12, 0x03) ∈ base.cfg.op.gpioWr ∧ (0x0D, 0x08) ∈ base.cfg.op.gpioWr ∧
    (base.cfg.gpioPresent = true ∧ base.call.NotStuck) ∧ bare.cfg.gpioPresent = false ∧ bare.NotStuck := by decide

theorem witness_GpioReadGivesZeroWhenAbsent :
    ∃ s u : State,
      (s.env.gpioIn.next Config.gpioByte = (0x5A, { pending := [], drawn := 1 }) ∧ s.cfg.Wf ∧
        (0x13, 0x82) ∈ s.cfg.op.gpioRd ∧ s.cfg.gpioPresent = true ∧ s.call.NotStuck) ∧
      (u.env.gpioIn.next Config.gpioByte = (0x5A, { pending := [], drawn := 1 }) ∧
        u.cfg.gpioPresent = false ∧ u.NotStuck) :=
  ⟨{ base with env := { base.env with gpioIn := { pending := [0x5A], drawn := 0 } } },
    { bare with env := { base.env with gpioIn := { pending := [0x5A], drawn := 0 } } },
    ⟨rfl, by decide⟩, ⟨rfl, by decide⟩⟩

theorem witness_BankSelectIgnoresIllegalIds :
    base.cfg.Wf ∧ ((0 : Byte).toNat = (0 : Fin 3).val ∧ (2 : Byte).toNat = (2 : Fin 3).val ∧
      base.call.NotStuck) ∧ 2 < (3 : Byte).toNat ∧ base.NotStuck := by decide

theorem witness_IrqEnableTakesBitOne : base.cfg.Wf ∧ base.NotStuck := by decide

theorem witness_TickIntervalIgnoresZero :
    base.cfg.Wf ∧ 0 < (1 : Byte).toNat ∧ 0 < (255 : Byte).toNat ∧ base.NotStuck := by decide

theorem witness_DiskNameHasSixCharacters :
    (0 : Byte).toNat ≤ 99 ∧ (99 : Byte).toNat ≤ 99 ∧ diskName 5 99 = diskName 5 99 := by decide

theorem witness_SelectDiskOpensTheNamedFile :
    base.cfg.Wf ∧
    ((7 : Byte).toNat ≤ 99 ∧
      base.env.bs.open (diskName base.cfg.diskSet 7) = (0, .reference disk) ∧ base.call.NotStuck) ∧
    ((99 : Byte).toNat ≤ 99 ∧
      base.env.bs.open (diskName base.cfg.diskSet 99) = (3, .reference { disk with cur := none })) ∧
    99 < (100 : Byte).toNat ∧ base.NotStuck := by decide

theorem witness_SelectTrackTakesTwoBytes :
    base.cfg.Wf ∧ (base.cnt = 0 ∧ base.NotStuck) ∧
    (({ base with cnt := 1 } : State).cnt ≠ 0 ∧ ({ base with cnt := 1 } : State).NotStuck) := by decide

theorem witness_SelectSectorValidatesTheAddress : base.cfg.Wf ∧ base.NotStuck := by decide

theorem witness_ErrorReadIsNondestructive :
    base.cfg.Wf ∧ base.NotStuck ∧
    ({ base with opc := 0x85 } : State).opc = ({ base with opc := 0x85 } : State).cfg.op.errdisk := by decide

theorem witness_BlockTranslationIsOneToOne :
    (511 : BitVec 16).toNat < 512 ∧ (31 : Byte).toNat < 32 ∧ (0 : BitVec 16).toNat < 512 ∧
    (0 : Byte).toNat < 32 ∧ blockIndex 511 31 = blockIndex 511 31 := by decide

theorem witness_WriteWithErrorLatchedDiscards :
    ∃ s u : State, (s.NotStuck ∧ s.err ≠ 0 ∧ s.cnt.toNat = 510) ∧ (u.NotStuck ∧ u.err ≠ 0 ∧ u.cnt.toNat = 511) :=
  ⟨{ base with err := 18, cnt := 510 }, { base with err := 18, cnt := 511 }, by decide, by decide⟩

/-- A seek that succeeds, one that fails (no file is open), and the two ends of the illegal addresses. -/
theorem witness_WriteStartSeeksOrRejects :
    (∃ b, base.env.bs.seek (32 * base.trk.toNat + base.sec.toNat) = (0, b)) ∧
    (BlockStore.reference { disk with cur := none }).seek 323 =
      (4, .reference { disk with cur := none }) ∧
    (base.cnt = 0 ∧ base.err = 0 ∧ base.trk.toNat < 512 ∧ base.sec.toNat < 32 ∧ base.call.NotStuck ∧
      base.NotStuck) ∧
    ¬ (({ base with trk := 512 } : State).trk.toNat < 512 ∧ ({ base with trk := 512 } : State).sec.toNat < 32) ∧
    ¬ (({ base with sec := 32 } : State).trk.toNat < 512 ∧ ({ base with sec := 32 } : State).sec.toNat < 32) :=
  ⟨⟨_, rfl⟩, rfl, by decide, by decide, by decide⟩

theorem witness_WriteInsideChunkOnlyBuffers :
    ∃ s u : State, (s.NotStuck ∧ s.err = 0 ∧ s.cnt ≠ 0 ∧ s.cnt.toNat < 511 ∧
        (1 : Fin 512).val = s.cnt.toNat % 32 ∧ (1 : Fin 512).val ≠ 31) ∧
      (u.NotStuck ∧ u.err = 0 ∧ u.cnt ≠ 0 ∧ u.cnt.toNat < 511 ∧
        (30 : Fin 512).val = u.cnt.toNat % 32 ∧ (30 : Fin 512).val ≠ 31) :=
  ⟨{ base with cnt := 1 }, { base with cnt := 510 }, by decide, by decide⟩

/-- A state of a transfer over an oracle that gives one answer. -/
def moving (cnt : BitVec 16) (a : BsAnswer) : State := withStore (answers [a]) { base with cnt := cnt }

theorem witness_WriteFullChunkIsFlushed :
    (moving 31 (gives 0 [] 31)).call.NotStuck ∧
    (moving 31 (gives 0 [] 31)).err = 0 ∧
    (moving 31 (gives 0 [] 31)).cnt.toNat < 511 ∧
    (moving 479 (gives 0 [] 32)).cnt.toNat < 511 ∧
    (moving 31 (gives 0 [] 31)).cnt.toNat % 32 = 31 ∧
    (moving 479 (gives 0 [] 32)).cnt.toNat % 32 = 31 ∧
    ∃ c k b, (moving 31 (gives 0 [] 31)).env.bs.write
      (((moving 31 (gives 0 [] 31)).buf.set 31 7).toList.take 32) = ((c, k), b) :=
  ⟨by decide, by decide, by decide, by decide, by decide, by decide, _, _, _, rfl⟩

theorem witness_WriteEndFinalizesAndDisarms :
    (∃ b, (moving 511 (gives 0 [] 32)).env.bs.write
        (((moving 511 (gives 0 [] 32)).buf.set 31 7).toList.take 32) = ((0, 32), b)) ∧
    (∃ b, (moving 511 (gives 0 [] 31)).env.bs.write
        (((moving 511 (gives 0 [] 31)).buf.set 31 7).toList.take 32) = ((0, 31), b)) ∧
    ((moving 511 (gives 0 [] 32)).Responsive ∧
      (moving 511 (gives 0 [] 32)).err = 0 ∧
      (moving 511 (gives 0 [] 32)).cnt.toNat = 511 ∧
      ¬ ((0 : StoreCode) = 0 ∧ 32 ≤ 31)) :=
  ⟨⟨_, rfl⟩, ⟨_, rfl⟩, by decide⟩

theorem witness_ReadWithErrorLatchedGivesZero :
    ∃ s u : State, (s.NotStuck ∧ s.err ≠ 0 ∧ s.cnt.toNat = 510) ∧ (u.NotStuck ∧ u.err ≠ 0 ∧ u.cnt.toNat = 511) :=
  ⟨{ base with err := 18, cnt := 510 }, { base with err := 18, cnt := 511 }, by decide, by decide⟩

theorem witness_ReadInsideChunkServesTheBuffer :
    ∃ s u : State, (s.NotStuck ∧ s.err = 0 ∧ (1 : Fin 512).val = s.cnt.toNat % 32 ∧ (1 : Fin 512).val ≠ 0) ∧
      (u.NotStuck ∧ u.err = 0 ∧ (31 : Fin 512).val = u.cnt.toNat % 32 ∧ (31 : Fin 512).val ≠ 0) :=
  ⟨{ base with cnt := 1 }, { base with cnt := 511 }, by decide, by decide⟩

/-- A full chunk at the first chunk start, and a short one and a failed one at the last. -/
theorem witness_ReadChunkStartPullsStorage :
    (∃ b, (moving 32 (gives 0 (List.replicate 40 7) 0)).env.bs.read 32 =
      ((0, List.replicate 32 7), b)) ∧
    (∃ b, (moving 480 (gives 0 (List.replicate 31 7) 0)).env.bs.read 32 =
      ((0, List.replicate 31 7), b)) ∧
    (∃ b, (moving 480 (gives 6 [] 0)).env.bs.read 32 = ((6, []), b)) ∧
    ((moving 32 (gives 0 [] 0)).call.NotStuck ∧
      (moving 32 (gives 0 [] 0)).err = 0 ∧
      (moving 32 (gives 0 [] 0)).cnt ≠ 0 ∧
      (moving 32 (gives 0 [] 0)).cnt.toNat % 32 = 0 ∧
      (moving 480 (gives 0 [] 0)).cnt ≠ 0 ∧
      (moving 480 (gives 0 [] 0)).cnt.toNat % 32 = 0 ∧
      (List.replicate 32 (7 : Byte)).length = 32 ∧
      ¬ ((0 : StoreCode) = 0 ∧ (List.replicate 31 (7 : Byte)).length = 32) ∧
      ¬ ((6 : StoreCode) = 0 ∧ ([] : List Byte).length = 32)) :=
  ⟨⟨_, rfl⟩, ⟨_, rfl⟩, ⟨_, rfl⟩, by decide⟩

/-- A start of a read over an oracle that answers a seek and a read. -/
def starting (a b : BsAnswer) : State := withStore (answers [a, b]) base

/-- A seek that fails; a seek and a full chunk; a seek and a short chunk. -/
theorem witness_ReadStartSeeksThenPulls :
    (∃ b, (starting (gives 6 [] 0) default).env.bs.seek 323 = (6, b)) ∧
    (∃ b b', (starting (gives 0 [] 0)
        (gives 0 (List.replicate 32 7) 0)).env.bs.seek
          (32 * base.trk.toNat + base.sec.toNat) = (0, b) ∧
      b.read 32 = ((0, List.replicate 32 7), b')) ∧
    (∃ b b', (starting (gives 0 [] 0)
        (gives 0 (List.replicate 31 7) 0)).env.bs.seek
          (32 * base.trk.toNat + base.sec.toNat) = (0, b) ∧
      b.read 32 = ((0, List.replicate 31 7), b')) ∧
    ((starting default default).Responsive ∧ (starting default default).cnt = 0 ∧
      (starting default default).err = 0 ∧ (starting default default).trk.toNat < 512 ∧
      (starting default default).sec.toNat < 32) ∧
    ¬ (({ base with trk := 512 } : State).trk.toNat < 512 ∧ ({ base with trk := 512 } : State).sec.toNat < 32) ∧
    ¬ (({ base with sec := 32 } : State).trk.toNat < 512 ∧ ({ base with sec := 32 } : State).sec.toNat < 32) :=
  ⟨⟨_, rfl⟩, ⟨_, _, rfl, rfl⟩, ⟨_, _, rfl, rfl⟩, by decide, by decide, by decide⟩

theorem witness_SectorRoundTripReturnsTheBytes :
    base.cfg.Wf ∧ base.Responsive ∧ base.env.bs = .reference disk ∧ disk.wf = true ∧
    disk.cur = some [0x44, 0x53, 0x32, 0x4E, 0x30, 0x37] ∧
    disk.file [0x44, 0x53, 0x32, 0x4E, 0x30, 0x37] =
      some { name := [0x44, 0x53, 0x32, 0x4E, 0x30, 0x37], length := 8388608, image := [] } ∧
    base.trk.toNat < 512 ∧ base.sec.toNat < 32 ∧ base.err = 0 ∧
    (List.replicate 512 (7 : Byte)).length = 512 :=
  ⟨base_wf, by decide, rfl, by decide, rfl, rfl, by decide, by decide, by decide, List.length_replicate⟩

theorem witness_DatetimeGivesSevenBytes :
    ∃ s : State,
      (s.env.rtcIn.next Config.rtcFields = (default, { pending := [], drawn := 1 }) ∧ s.cfg.Wf ∧ s.cnt = 0 ∧
        s.call.call.NotStuck ∧ s.call.NotStuck ∧ s.NotStuck) ∧
      (({ s with cnt := 1 } : State).cnt.toNat = 1 ∧
        (1, s.env.rtc.minutes) ∈ [(1, s.env.rtc.minutes), (2, s.env.rtc.hours), (3, s.env.rtc.day),
          (4, s.env.rtc.month), (5, s.env.rtc.year), (6, s.env.rtc.temperature)]) ∧
      (({ s with cnt := 6 } : State).cnt.toNat = 6 ∧
        (6, s.env.rtc.temperature) ∈ [(1, s.env.rtc.minutes), (2, s.env.rtc.hours), (3, s.env.rtc.day),
          (4, s.env.rtc.month), (5, s.env.rtc.year), (6, s.env.rtc.temperature)]) ∧
      7 ≤ ({ s with cnt := 7 } : State).cnt.toNat :=
  ⟨{ base with env := { base.env with rtcIn := { pending := [default], drawn := 0 } } }, by decide⟩

theorem witness_StatusReadHasNoSideEffect : base.cfg.Wf ∧ base.NotStuck := by decide

theorem witness_IrqStatusReadClearsTheTickBit :
    ∃ s : State,
      s.env.irqBits.next Config.irqDraw = (0xFF, { pending := [], drawn := 1 }) ∧ s.irqTick = true ∧ s.cfg.Wf ∧
        s.NotStuck :=
  ⟨{ base with irqTick := true, env := { base.env with irqBits := { pending := [0xFF], drawn := 0 } } },
    by decide⟩

theorem witness_EveryTransactionCompletes : base.Responsive := by decide

/-- A state whose call after the next `n` does not return. -/
def stalling (n : Nat) (cnt : BitVec 16) : State :=
  { base with cnt := cnt, env := { base.env with liveness := .stallsAfter n } }

/-- A stuck engine with the Host parked; with an awake Host that starts, that idles, and that has no move; and a
transaction that gets stuck. -/
theorem witness_StalledCallStopsTheEngine :
    ∃ s : State, s.env.liveness = .stalled ∧
      ({ s with lines := linesOf 0x401 } : State).lines.wait = true ∧ s.lines.wait = false ∧
      ({ s with host := [hostST 1] } : State).host = .start 0x501 :: [] ∧
      ({ s with host := [.idle] } : State).host = .idle :: [] ∧ s.host = [] ∧
      ∃ t, exec (.led 1) (stalling 0 0) = .next t ∧ t.env.liveness = .stalled :=
  ⟨{ base with env := { base.env with liveness := .stalled } }, rfl, rfl, rfl, rfl, rfl, rfl, _, rfl, rfl⟩

/-- The clauses on the run: a transaction to come with the engine stuck; a pending one that gets stuck; every call
returns; and a last one that is released. -/
theorem witness_StalledCallStopsTheEngine_run :
    (∃ s : State, s.env.liveness = .stalled ∧ ∃ tw, .start tw ∈ s.host) ∧
    (∃ s t : State, s.lines.wait = true ∧ exec (decodeWord s.cfg (sampleWord s)) s = .next t ∧
      t.env.liveness = .stalled) ∧
    base.Responsive ∧
    ∃ s t : State, s.lines.wait = true ∧ (∀ m ∈ s.host, m = .idle) ∧
      exec (decodeWord s.cfg (sampleWord s)) s = .next t ∧ t.NotStuck :=
  ⟨⟨{ base with env := { base.env with liveness := .stalled }, host := [hostRX] }, rfl, 0x300, by decide⟩,
    ⟨{ stalling 0 0 with lines := linesOf 0x300 }, _, rfl, rfl, by decide⟩, by decide,
    ⟨{ base with lines := linesOf 0x500, host := [.idle] }, _, rfl, by decide, rfl, by decide⟩⟩

/-- R130: a run of two transactions ends with the second one's release, V-D5. -/
theorem test_run_observation :
    (observeRun 3 { base with err := 17, host := hostQRY 0x85 ++ [.idle] }).map
      (fun o => (o.engine.opc, o.engine.err, o.trace)) = some (0xFF, 17, .waitReset :: rt 0x11) := by decide

/-- R130: the tick of the last pass fires after the end of the run, which does not show it; the machine goes on to it. -/
theorem test_run_ends_before_the_tick :
    let s : State := { base with
      tickEn := true, tickIv := 50, lines := linesOf 0x300
      env := { base.env with
        serialIn := { pending := [some 0x41], drawn := 0 }, timeIn := { pending := [51], drawn := 0 } } }
    (observeRun 1 s).map (fun o => (o.engine.intOut, o.trace)) = some (false, rt 0x41) ∧
      after (step s) (fun t => t.intOut) = some true := by decide

/-- R130, I17: a Host parked by a call that does not return, and a run cut off too early, give no observation. -/
theorem test_run_without_end :
    observeRun 2 { stalling 0 0 with lines := linesOf 0x300 } = none ∧
      observeRun 1 { base with host := hostQRY 0x85 } = none := by decide

theorem witness_StalledSingleCallKeepsTheState :
    (stalling 0 0).env.liveness = .stallsAfter 0 ∧ (2 : Byte).toNat = (2 : Fin 3).val ∧
    (stalling 0 0).cfg.gpioPresent = true ∧ (stalling 0 0).cnt = 0 ∧
    (stalling 0 1).env.liveness = .stallsAfter 0 ∧ 0 < (stalling 0 1).cnt.toNat ∧
    (stalling 0 6).env.liveness = .stallsAfter 0 ∧ (stalling 0 6).cnt.toNat < 7 ∧
    (stalling 1 0).env.liveness = .stallsAfter 1 ∧ (stalling 1 0).cnt = 0 ∧
    ({ stalling 0 0 with tickEn := true } : State).env.liveness = .stallsAfter 0 ∧
    ({ stalling 0 0 with tickEn := true } : State).tickEn = true := by decide

/-- A refresh that returns before a field read that does not. -/
theorem witness_StalledSingleCallKeepsTheState_field :
    ∃ (s : State) (rtc : Rtc) (f : Feed Rtc), s.env.liveness = .stallsAfter 1 ∧ s.cnt = 0 ∧
      s.env.rtcIn.next Config.rtcFields = (rtc, f) := ⟨stalling 1 0, _, _, rfl, rfl, rfl⟩

/-- Each stalled storage call, the first and the last chunk of a sequence, and the second calls of an exchange. -/
theorem witness_StalledStorageCallKeepsTheState :
    ((stalling 0 0).env.liveness = .stallsAfter 0 ∧ (99 : Byte).toNat ≤ 99 ∧ (stalling 0 0).err = 0 ∧
      (stalling 0 0).cnt = 0 ∧ (stalling 0 0).trk.toNat < 512 ∧ (stalling 0 0).sec.toNat < 32) ∧
    ((stalling 0 31).cnt.toNat % 32 = 31 ∧ (stalling 0 511).cnt.toNat % 32 = 31) ∧
    ((stalling 0 32).cnt ≠ 0 ∧ (stalling 0 32).cnt.toNat % 32 = 0 ∧ (stalling 0 480).cnt.toNat % 32 = 0) ∧
    ((stalling 1 0).env.liveness = .stallsAfter 1 ∧ (stalling 1 511).cnt.toNat = 511) ∧
    (∃ b, (stalling 1 0).env.bs.seek (32 * (stalling 1 0).trk.toNat + (stalling 1 0).sec.toNat) = (0, b)) ∧
    (∃ b, (stalling 1 511).env.bs.write (((stalling 1 511).buf.set 31 7).toList.take 32) = ((0, 32), b)) :=
  ⟨by decide, by decide, by decide, by decide, ⟨_, rfl⟩, ⟨_, rfl⟩⟩

/-- A transaction that changes each field named in the statement. -/
theorem witness_OnlyTheNamedWritersChangeAField :
    (∃ t, exec (.store 1) base = .next t ∧ t.opc ≠ base.opc) ∧
    (∃ t, exec (.seltrk 7) { base with err := 4 } = .next t ∧ t.cnt ≠ base.cnt ∧ t.trk ≠ base.trk) ∧
    (∃ t, exec (.selsct 40) base = .next t ∧ t.err ≠ base.err ∧ t.sec ≠ base.sec) ∧
    (∃ t, exec (.seldsk 7) base = .next t ∧ t.dsk ≠ base.dsk) ∧
    (∃ t, exec (.irqen 2) base = .next t ∧ t.tickEn ≠ base.tickEn) ∧
    (∃ t, exec (.tick 1) base = .next t ∧ t.tickIv ≠ base.tickIv) ∧
    (∃ t, exec (.bank 2) base = .next t ∧ t.bank ≠ base.bank) ∧
    (∃ t, exec .intack { base with intOut := true } = .next t ∧ t.intOut ≠ true) ∧
    (∃ t, exec .errdisk { base with err := 17 } = .next t ∧ t.busOut ≠ base.busOut) ∧
    (∃ t, exec .irqstat { base with irqTick := true } = .next t ∧ t.irqTick ≠ true) ∧
    (∃ t, exec .errdisk { base with busReq := true, busDir := .output } = .next t ∧
      t.busReq ≠ true ∧ t.busDir ≠ .output) :=
  ⟨⟨_, rfl, by decide⟩, ⟨_, rfl, by decide⟩, ⟨_, rfl, by decide⟩, ⟨_, rfl, by decide⟩, ⟨_, rfl, by decide⟩,
    ⟨_, rfl, by decide⟩, ⟨_, rfl, by decide⟩, ⟨_, rfl, by decide⟩, ⟨_, rfl, by decide⟩, ⟨_, rfl, by decide⟩,
    ⟨_, rfl, by decide⟩⟩

/-- A byte taken into the buffer, and a payload received by each collaborator and by the clock. -/
theorem witness_OnlyTheNamedWritersChangeAField_collaborators :
    (∃ t, exec (.wrtsct 7) { base with cnt := 1 } = .next t ∧ bufByte t.buf 1 ≠ bufByte base.buf 1) ∧
    (∃ t, exec (.led 1) base = .next t ∧ t.env.devices.led ≠ base.env.devices.led) ∧
    (∃ t, exec (.spkr 1) base = .next t ∧ t.env.devices.spkr ≠ base.env.devices.spkr) ∧
    (∃ t, exec (.sertx 1) base = .next t ∧ t.env.devices.serialOut ≠ base.env.devices.serialOut) ∧
    (∃ t, exec (.gpiowr 0x12 1) base = .next t ∧ t.env.devices.gpio ≠ base.env.devices.gpio) ∧
    (∃ t, exec .datetime { base with env := { base.env with
        rtcIn := { pending := [{ base.env.rtc with seconds := 5 }], drawn := 0 } } } = .next t ∧
      t.env.rtc ≠ base.env.rtc) :=
  ⟨⟨_, rfl, by decide⟩, ⟨_, rfl, by decide⟩, ⟨_, rfl, by decide⟩, ⟨_, rfl, by decide⟩, ⟨_, rfl, by decide⟩,
    ⟨_, rfl, by decide⟩⟩

theorem witness_NewErrorCodesAreLegal :
    ∃ s t : State, step s = .next t ∧ t.err ≠ s.err :=
  ⟨{ base with opc := 0x09, lines := linesOf 0x464 }, _, rfl, by decide⟩

theorem witness_TraceOnlyGrows : ∃ s t : State, step s = .next t ∧ t.trace.length = s.trace.length + 2 :=
  ⟨{ base with opc := 0x00, lines := linesOf 0x401 }, _, rfl, rfl⟩

theorem witness_BufferTailIsNeverWritten : ∃ t, exec (.wrtsct 7) { base with cnt := 31 } = .next t := ⟨_, rfl⟩

/-- Buffers that differ only past the bytes taken so far, in the middle of a chunk of a write. -/
theorem witness_UnfilledBufferBytesAreUnobservable :
    ∃ (s : State) (b : Vector Byte 512), s.cfg.Wf ∧ s.opc = s.cfg.op.wrtsct ∧ b[17] ≠ s.buf[17] ∧
      s.agreesOnLiveBytes b := by
  refine ⟨{ base with opc := 0x0C, cnt := 17, buf := Vector.replicate 512 0 },
    (Vector.replicate 512 0).set 17 1, base_wf, rfl, by simp, fun _ => ⟨fun _ k hk => ?_, fun h => ?_⟩⟩
  · have h17 : k.val < 17 := hk
    exact Vector.getElem_set_ne _ _ (by omega)
  · exact absurd h (by decide)

/-- A transaction, and an idle pass in which the tick fires. -/
theorem witness_EveryStepKeepsTheInvariant :
    base.Inv ∧ (∃ t, step { base with lines := linesOf 0x50C } = .next t) ∧ (∃ t, step (ticking 101) = .next t) :=
  ⟨by
    constructor <;> decide,
    ⟨_, rfl⟩, ⟨_, rfl⟩⟩

theorem witness_OnlySectorWritesChangeFiles :
    (∀ d, Instr.rdsect ≠ .wrtsct d) ∧ ∃ t, exec .rdsect base = .next t := ⟨by simp, _, rfl⟩

/-- A full chunk, and a byte inside a chunk. -/
theorem witness_SectorWriteStoresOnlyTheChunk :
    disk.wf = true ∧ base.env.bs = .reference disk ∧
    (({ base with cnt := 31 } : State).call.NotStuck ∧ ∃ t, exec (.wrtsct 7) { base with cnt := 31 } = .next t) ∧
    (({ base with cnt := 1 } : State).call.NotStuck ∧ ∃ t, exec (.wrtsct 7) { base with cnt := 1 } = .next t) :=
  ⟨by decide, rfl, ⟨by decide, _, rfl⟩, ⟨by decide, _, rfl⟩⟩

/-- A listed and an unlisted name; no current file; and a current file, at its start and at its end. -/
theorem witness_ReferenceStoreCallsDoAsTheSpecSays :
    (∃ f ∈ disk.files, f.name = [0x44, 0x53, 0x32, 0x4E, 0x30, 0x37]) ∧
    (∀ f ∈ disk.files, f.name ≠ [0x44, 0x53, 0x32, 0x4E, 0x30, 0x38]) ∧
    ({ disk with cur := none } : RefStore).cur = none ∧
    (disk.cur = some [0x44, 0x53, 0x32, 0x4E, 0x30, 0x37] ∧
      disk.file [0x44, 0x53, 0x32, 0x4E, 0x30, 0x37] =
        some { name := [0x44, 0x53, 0x32, 0x4E, 0x30, 0x37], length := 8388608, image := [] } ∧
      disk.wf = true ∧ ({ disk with pos := 8388608 } : RefStore).wf = true) :=
  ⟨by decide, by decide, rfl, rfl, rfl, by decide, by decide⟩

theorem witness_FilesKeepNamesAndLengths :
    base.env.bs = .reference disk ∧ disk.wf = true ∧ ∃ t, exec (.wrtsct 7) { base with cnt := 31 } = .next t :=
  ⟨rfl, by decide, _, rfl⟩

end Sys2Proof.Tests
end

section
/-! Proofs of the statements of 00_scope.md: every transaction completes when the collaborators answer (00_scope.md
R12, 60_exceptions.md R104, 40_bus_engine.md R72). -/

namespace Sys2Proof.Machine

/-- Settles O45: of the three outcomes of `exec_shape`, the stuck one needs a handler that ends in a call that has not
returned, which a quiet handler cannot do from a responsive state; the other two end in a release, which deasserts WAIT
and keeps the Environment. -/
theorem everyTransactionCompletes : Obligations.EveryTransactionCompletes := by
  intro i s hs
  rcases exec_shape i s with ⟨w, hq, hstalled, _⟩ | ⟨_, _, w, hq, _, he⟩ | ⟨_, _, w, v, hq, _, he⟩
  · exact absurd hstalled (notStuck_of_responsive (hq.responsive hs))
  · exact ⟨released w [.waitReset], he, hq.responsive hs, rfl⟩
  · exact ⟨readReleased w v [], he, hq.responsive hs, rfl⟩

end Sys2Proof.Machine
end

section
/-! Proofs of the statements of 10_state.md, first part: which transactions write which field (10_state.md R13). A field
is kept unless the instruction is one of its writers; each handler's own writes are said once. -/

namespace Sys2Proof.Machine

/-- The fields whose writers 10_state.md R13 and R27 name, with the Host's list and the parameters. -/
inductive Field where
  | opc | cnt | err | trk | sec | dsk | buf | irqTick | tickEn | tickIv | lastTick | bank | intOut
  | busReq | busDir | busOut | led | spkr | serialOut | gpio | rtc | settings | host | cfg
  deriving DecidableEq

/-- A field stands in `t` as it stood in `s`. -/
def Field.kept (s t : State) : Field → Prop
  | .opc => t.opc = s.opc
  | .cnt => t.cnt = s.cnt
  | .err => t.err = s.err
  | .trk => t.trk = s.trk
  | .sec => t.sec = s.sec
  | .dsk => t.dsk = s.dsk
  | .buf => t.buf = s.buf
  | .irqTick => t.irqTick = s.irqTick
  | .tickEn => t.tickEn = s.tickEn
  | .tickIv => t.tickIv = s.tickIv
  | .lastTick => t.lastTick = s.lastTick
  | .bank => t.bank = s.bank
  | .intOut => t.intOut = s.intOut
  | .busReq => t.busReq = s.busReq
  | .busDir => t.busDir = s.busDir
  | .busOut => t.busOut = s.busOut
  | .led => t.env.devices.led = s.env.devices.led
  | .spkr => t.env.devices.spkr = s.env.devices.spkr
  | .serialOut => t.env.devices.serialOut = s.env.devices.serialOut
  | .gpio => t.env.devices.gpio = s.env.devices.gpio
  | .rtc => t.env.rtc = s.env.rtc
  | .settings => t.env.settings = s.env.settings
  | .host => t.host = s.host
  | .cfg => t.cfg = s.cfg

theorem Field.kept_refl (s : State) (f : Field) : f.kept s s := by cases f <;> rfl

theorem Field.kept_trans {s t u : State} {f : Field} (h : f.kept s t) (k : f.kept t u) : f.kept s u := by
  cases f <;> exact Eq.trans k h

/-- The instructions 10_state.md R13 and R27 name as the writers of a field. -/
def Field.Writer (i : Instr) : Field → Prop
  | .opc => i.phase = .storeOpcode ∨ i.phase = .executeWrite ∨ i.phase = .executeRead
  | .cnt =>
    (∃ d, i = .store d) ∨ (∃ d, i = .seltrk d) ∨ (∃ d, i = .wrtsct d) ∨ i = .rdsect ∨ i = .datetime
  | .err =>
    (∃ d, i = .seldsk d) ∨ (∃ d, i = .seltrk d) ∨ (∃ d, i = .selsct d) ∨ (∃ d, i = .wrtsct d) ∨ i = .rdsect
  | .trk => ∃ d, i = .seltrk d
  | .sec => ∃ d, i = .selsct d
  | .dsk => ∃ d, i = .seldsk d
  | .buf => (∃ d, i = .wrtsct d) ∨ i = .rdsect
  | .irqTick => i = .irqstat
  | .tickEn => ∃ d, i = .irqen d
  | .tickIv => ∃ d, i = .tick d
  | .bank => ∃ d, i = .bank d
  | .intOut => i = .intack
  | .busReq | .busDir | .busOut => i.phase = .executeRead ∨ i.phase = .serialRx
  | .led => ∃ d, i = .led d
  | .spkr => ∃ d, i = .spkr d
  | .serialOut => ∃ d, i = .sertx d
  | .gpio => ∃ r d, i = .gpiowr r d
  | .rtc => i = .datetime
  | .lastTick | .settings | .host | .cfg => False

/-- Every field that is not listed stands in `t` as it stood in `s`. -/
def ChangesOnly (W : List Field) (s t : State) : Prop := ∀ f, f ∉ W → f.kept s t

theorem ChangesOnly.refl (W : List Field) (s : State) : ChangesOnly W s s := fun f _ => f.kept_refl s

theorem ChangesOnly.trans {W : List Field} {s t u : State} (h : ChangesOnly W s t) (k : ChangesOnly W t u) :
    ChangesOnly W s u := fun f hf => Field.kept_trans (h f hf) (k f hf)

theorem ChangesOnly.mono {W V : List Field} {s t : State} (h : ChangesOnly W s t) (hWV : W ⊆ V) :
    ChangesOnly V s t := fun f hf => h f fun hm => hf (hWV hm)

theorem changesOnly_andThen {W : List Field} {s t : State} {h : State → State} (ht : ChangesOnly W s t)
    (hh : ChangesOnly W t (h t)) : ChangesOnly W s (t.andThen h) :=
  andThen_induct (P := ChangesOnly W s) ht (ht.trans hh)

theorem changesOnly_emit (W : List Field) (s : State) (e : Event) : ChangesOnly W s (s.emit e) := by
  intro f _; cases f <;> rfl

theorem changesOnly_call (W : List Field) (s : State) : ChangesOnly W s s.call := by
  intro f _; cases f <;> rfl

/-- A collaborator call writes what its effect on the Environment writes. -/
theorem changesOnly_ask {α : Type} {W : List Field} {s : State} {k : Env → Env}
    (hk : ChangesOnly W s.call { s.call with env := k s.call.env }) (a : α) :
    ChangesOnly W s (s.ask a k).2 := by
  rcases ask_cases s a k with ⟨_, e⟩ | ⟨_, e⟩ <;> rw [e]
  · exact changesOnly_call W s
  · exact (changesOnly_call W s).trans hk

theorem changesOnly_askStore {α : Type} (W : List Field) (s : State) (r : α × BlockStore)
    (e : Option α → Event) : ChangesOnly W s (s.askStore r e).2 := by
  refine (changesOnly_ask ?_ r.1).trans (changesOnly_emit W _ _)
  intro f _; cases f <;> rfl

theorem changesOnly_recordCode {W : List Field} {s : State} {r : Option StoreCode × State} (hW : Field.err ∈ W)
    (h : ChangesOnly W s r.2) : ChangesOnly W s (recordCode r) := by
  unfold recordCode
  split
  · refine h.trans fun f hf => ?_
    cases f
    case err => exact absurd hW hf
    all_goals rfl
  · exact h

theorem changesOnly_lightLed (d : Byte) (s : State) : ChangesOnly [.led] s (lightLed d s) := by
  intro f hf
  cases f
  case led => simp at hf
  all_goals rfl

theorem changesOnly_sendSerial (d : Byte) (s : State) : ChangesOnly [.serialOut] s (sendSerial d s) := by
  intro f hf
  cases f
  case serialOut => simp at hf
  all_goals rfl

theorem changesOnly_driveSpeaker (d : Byte) (s : State) : ChangesOnly [.spkr] s (driveSpeaker d s) := by
  intro f hf
  cases f
  case spkr => simp at hf
  all_goals rfl

theorem changesOnly_writeGpio (r : GpioReg) (d : Byte) (s : State) :
    ChangesOnly [.gpio] s (writeGpio r d s) := by
  unfold writeGpio
  split
  · intro f hf
    cases f
    case gpio => simp at hf
    all_goals rfl
  · exact .refl _ s

theorem changesOnly_selectBank (d : Byte) (s : State) : ChangesOnly [.bank] s (selectBank d s) := by
  unfold selectBank
  split
  · intro f hf
    cases f
    case bank => simp at hf
    all_goals rfl
  · exact .refl _ s

theorem changesOnly_tickEn (v : Bool) (s : State) : ChangesOnly [.tickEn] s { s with tickEn := v } := by
  intro f hf
  cases f
  case tickEn => simp at hf
  all_goals rfl

theorem changesOnly_tickIv (v : Byte) (s : State) : ChangesOnly [.tickIv] s { s with tickIv := v } := by
  intro f hf
  cases f
  case tickIv => simp at hf
  all_goals rfl

theorem changesOnly_dsk {W : List Field} (hW : Field.dsk ∈ W) (v : Byte) (s : State) :
    ChangesOnly W s { s with dsk := v } := by
  intro f hf
  cases f
  case dsk => exact absurd hW hf
  all_goals rfl

theorem changesOnly_err {W : List Field} (hW : Field.err ∈ W) (v : Byte) (s : State) :
    ChangesOnly W s { s with err := v } := by
  intro f hf
  cases f
  case err => exact absurd hW hf
  all_goals rfl

theorem changesOnly_selectDisk (d : Byte) (s : State) : ChangesOnly [.dsk, .err] s (selectDisk d s) := by
  unfold selectDisk
  split
  · exact changesOnly_recordCode (by simp) ((changesOnly_dsk (by simp) d s).trans (changesOnly_askStore _ _ _ _))
  · exact changesOnly_err (by simp) _ s

theorem changesOnly_selectTrack (d : Byte) (s : State) :
    ChangesOnly [.trk, .cnt, .err] s (selectTrack d s) := by
  unfold selectTrack
  intro f hf
  split <;> cases f
  case isTrue.trk | isTrue.cnt | isFalse.trk | isFalse.cnt | isFalse.err => simp at hf
  all_goals rfl

theorem changesOnly_selectSector (d : Byte) (s : State) :
    ChangesOnly [.sec, .err] s (selectSector d s) := by
  intro f hf
  cases f
  case sec | err => simp at hf
  all_goals rfl

/-- What a sector transfer writes beside the stored opcode (44_disk_transfer.md R94 to R99). -/
abbrev transferFields : List Field := [.opc, .cnt, .err, .buf]

theorem changesOnly_transferStart (s : State) : ChangesOnly transferFields s (transferStart s) := by
  unfold transferStart
  split
  · split
    · exact changesOnly_recordCode (by simp) (changesOnly_askStore _ _ _ _)
    · exact changesOnly_err (by simp) _ s
  · exact .refl _ s

theorem changesOnly_buf (v : Vector Byte 512) (s : State) : ChangesOnly transferFields s { s with buf := v } := by
  intro f hf
  cases f
  case buf => simp at hf
  all_goals rfl

theorem changesOnly_flushChunk (s : State) : ChangesOnly transferFields s (flushChunk s) := by
  rcases flushChunk_cases s with ⟨_, e⟩ | ⟨_, e⟩ <;> rw [e]
  · exact (changesOnly_call _ s).trans (changesOnly_emit _ _ _)
  · intro f hf
    cases f
    case err => simp at hf
    all_goals rfl

theorem changesOnly_writeByte (d : Byte) (s : State) : ChangesOnly transferFields s (writeByte d s) := by
  rcases writeByte_cases d s with ⟨_, e⟩ | ⟨_, _, e⟩ | ⟨_, _, e⟩ <;> rw [e]
  · exact .refl _ s
  · exact changesOnly_buf _ s
  · exact (changesOnly_buf _ s).trans (changesOnly_flushChunk _)

theorem changesOnly_finalizeSector (s : State) : ChangesOnly transferFields s (finalizeSector s) := by
  unfold finalizeSector
  split
  · exact changesOnly_recordCode (by simp) (changesOnly_askStore _ _ _ _)
  · exact .refl _ s

theorem changesOnly_countExchange (s : State) : ChangesOnly transferFields s (countExchange s) := by
  intro f hf
  cases f
  case cnt => simp at hf
  all_goals rfl

theorem changesOnly_endSequence (s : State) : ChangesOnly transferFields s (endSequence s) := by
  intro f hf
  cases f
  case opc => simp at hf
  all_goals rfl

theorem changesOnly_writeSector (d : Byte) (s : State) : ChangesOnly transferFields s (writeSector d s) := by
  have h := changesOnly_andThen (changesOnly_transferStart s) (changesOnly_writeByte d _)
  unfold writeSector
  split
  · exact changesOnly_andThen (changesOnly_andThen h (changesOnly_finalizeSector _))
      ((changesOnly_endSequence _).trans (changesOnly_countExchange _))
  · exact changesOnly_andThen h (changesOnly_countExchange _)

theorem changesOnly_readChunk (s : State) : ChangesOnly transferFields s (readChunk s) := by
  rcases readChunk_cases s with ⟨_, e⟩ | ⟨_, _, e⟩ <;> rw [e]
  · exact .refl _ s
  · rcases fillChunk_cases s with ⟨_, e⟩ | ⟨_, e⟩ <;> rw [e]
    · exact (changesOnly_call _ s).trans (changesOnly_emit _ _ _)
    · intro f hf
      cases f
      case err | buf => simp at hf
      all_goals rfl

theorem changesOnly_readSector (s : State) : ChangesOnly transferFields s (readSector s).2 := by
  have h := changesOnly_andThen (changesOnly_transferStart s) (changesOnly_readChunk _)
  unfold readSector
  split
  · refine changesOnly_andThen (h := fun t => countExchange (endSequence t)) h ?_
    exact (changesOnly_endSequence _).trans (changesOnly_countExchange _)
  · exact changesOnly_andThen h (changesOnly_countExchange _)

theorem changesOnly_serialPoll (s : State) : ChangesOnly [] s (serialPoll s).2 := by
  refine changesOnly_ask ?_ _
  intro f _; cases f <;> rfl

theorem changesOnly_readGpio (r : GpioReg) (s : State) : ChangesOnly [] s (readGpio r s).2 := by
  unfold readGpio gpioRead
  split
  · refine (changesOnly_emit _ s _).trans (changesOnly_ask ?_ _)
    intro f _; cases f <;> rfl
  · exact .refl _ s

theorem changesOnly_startDatetime (s : State) : ChangesOnly [.opc, .cnt, .rtc] s (startDatetime s) := by
  unfold startDatetime rtcRefresh
  split
  · refine (changesOnly_emit _ s _).trans (changesOnly_ask ?_ _)
    intro f hf
    cases f
    case rtc => simp at hf
    all_goals rfl
  · exact .refl _ s

theorem changesOnly_readDatetime (s : State) : ChangesOnly [.opc, .cnt, .rtc] s (readDatetime s).2 := by
  have hend (o : Byte) (c : BitVec 16) (t : State) :
      ChangesOnly [.opc, .cnt, .rtc] t { t with cnt := c, opc := o } := by
    intro f hf
    cases f
    case opc | cnt => simp at hf
    all_goals rfl
  simp only [readDatetime, rtcField_snd]
  split
  · exact changesOnly_andThen (changesOnly_andThen (changesOnly_startDatetime s) (changesOnly_call _ _))
      (hend _ _ _)
  · exact hend _ s.cnt s

theorem changesOnly_readIrqStatus (s : State) : ChangesOnly [.irqTick] s (readIrqStatus s).2 := by
  intro f hf
  cases f
  case irqTick => simp at hf
  all_goals rfl

/-- After its handler an Execute-Write changes the stored opcode at most (41_dispatcher.md R76). -/
theorem changesOnly_after_runWrite {h : State → State} {s t : State} (he : runWrite h s = .next t) :
    (s.env.liveness = .stalled ∧ t = s) ∨ (s.NotStuck ∧ ChangesOnly [.opc] (h s) t) := by
  rcases runWrite_cases h s with ⟨hs, e⟩ | ⟨hs, _, e⟩ | ⟨hs, _, e⟩ <;> cases he.symm.trans e
  · exact .inl ⟨hs, rfl⟩
  · exact .inr ⟨hs, .refl _ _⟩
  · refine .inr ⟨hs, fun f hf => ?_⟩
    cases f
    case opc => simp at hf
    all_goals rfl

/-- After its handler an Execute-Read changes the stored opcode and the bus at most (41_dispatcher.md R76,
40_bus_engine.md R71). -/
theorem changesOnly_after_runRead {h : State → Byte × State} {s t : State} (he : runRead h s = .next t) :
    (s.env.liveness = .stalled ∧ t = s) ∨
    (s.NotStuck ∧ ChangesOnly [.opc, .busReq, .busDir, .busOut] (h s).2 t) := by
  rcases runRead_cases h s with ⟨hs, e⟩ | ⟨hs, _, e⟩ | ⟨hs, _, e⟩ <;> cases he.symm.trans e
  · exact .inl ⟨hs, rfl⟩
  · exact .inr ⟨hs, .refl _ _⟩
  · refine .inr ⟨hs, fun f hf => ?_⟩
    cases f
    case opc | busReq | busDir | busOut => simp at hf
    all_goals rfl

theorem changesOnly_runWrite {W : List Field} {h : State → State} {s t : State} (he : runWrite h s = .next t)
    (hh : ChangesOnly W s (h s)) : ChangesOnly (.opc :: W) s t := by
  rcases changesOnly_after_runWrite he with ⟨_, rfl⟩ | ⟨_, ht⟩
  · exact .refl _ t
  · exact (hh.mono (List.subset_cons_self _ _)).trans (ht.mono (List.subset_append_left [.opc] W))

theorem changesOnly_runRead {W : List Field} {h : State → Byte × State} {s t : State}
    (he : runRead h s = .next t) (hh : ChangesOnly W s (h s).2) :
    ChangesOnly ([.opc, .busReq, .busDir, .busOut] ++ W) s t := by
  rcases changesOnly_after_runRead he with ⟨_, rfl⟩ | ⟨_, ht⟩
  · exact .refl _ t
  · exact (hh.mono (List.subset_append_right _ _)).trans (ht.mono (List.subset_append_left _ W))

/-- A read release writes the bus (40_bus_engine.md R71). -/
theorem changesOnly_readReleased (s : State) (v : Byte) (es : List Event) :
    ChangesOnly [.busReq, .busDir, .busOut] s (readReleased s v es) := by
  intro f hf
  cases f
  case busReq | busDir | busOut => simp at hf
  all_goals rfl

theorem changesOnly_execStore {d : Byte} {s t : State} (he : execStore d s = .next t) :
    ChangesOnly [.opc, .cnt] s t := by
  cases he
  refine changesOnly_andThen (.refl _ s) fun f hf => ?_
  cases f
  case opc | cnt => simp at hf
  all_goals rfl

theorem changesOnly_execSerrx {s t : State} (he : execSerrx s = .next t) :
    ChangesOnly [.busReq, .busDir, .busOut] s t := by
  cases he
  refine changesOnly_andThen (.refl _ s)
    (changesOnly_andThen ((changesOnly_serialPoll s).mono (List.nil_subset _)) ?_)
  rw [releaseRead_eq]
  exact changesOnly_readReleased _ _ _

theorem changesOnly_execIntack {s t : State} (he : execIntack s = .next t) : ChangesOnly [.intOut] s t := by
  cases he
  refine changesOnly_andThen (.refl _ s) fun f hf => ?_
  cases f
  case intOut => simp at hf
  all_goals rfl

/-- What each instruction writes. -/
def fieldsWritten : Instr → List Field
  | .store _ => [.opc, .cnt]
  | .serrx => [.busReq, .busDir, .busOut]
  | .intack => [.intOut]
  | .led _ => [.opc, .led]
  | .sertx _ => [.opc, .serialOut]
  | .gpiowr _ _ => [.opc, .gpio]
  | .bank _ => [.opc, .bank]
  | .irqen _ => [.opc, .tickEn]
  | .tick _ => [.opc, .tickIv]
  | .spkr _ => [.opc, .spkr]
  | .seldsk _ => [.opc, .dsk, .err]
  | .seltrk _ => [.opc, .trk, .cnt, .err]
  | .selsct _ => [.opc, .sec, .err]
  | .wrtsct _ => .opc :: transferFields
  | .gpiord _ => [.opc, .busReq, .busDir, .busOut]
  | .status => [.opc, .busReq, .busDir, .busOut]
  | .datetime => [.opc, .busReq, .busDir, .busOut, .opc, .cnt, .rtc]
  | .errdisk => [.opc, .busReq, .busDir, .busOut]
  | .rdsect => [.opc, .busReq, .busDir, .busOut] ++ transferFields
  | .irqstat => [.opc, .busReq, .busDir, .busOut, .irqTick]
  | .ewNone _ _ => [.opc]
  | .erNone _ => [.opc, .busReq, .busDir, .busOut]

/-- Each instruction is a named writer of what it writes (10_state.md R13). -/
theorem writer_of_mem_fieldsWritten {i : Instr} {f : Field} (h : f ∈ fieldsWritten i) : f.Writer i := by
  revert f
  cases i <;> simp [fieldsWritten, Field.Writer, Instr.phase]

theorem exec_changesOnly {i : Instr} {s t : State} (he : exec i s = .next t) : ChangesOnly (fieldsWritten i) s t := by
  cases i with
  | store d => exact changesOnly_execStore he
  | serrx => exact changesOnly_execSerrx he
  | intack => exact changesOnly_execIntack he
  | led d => exact changesOnly_runWrite he (changesOnly_lightLed d s)
  | sertx d => exact changesOnly_runWrite he (changesOnly_sendSerial d s)
  | gpiowr r d => exact changesOnly_runWrite he (changesOnly_writeGpio r d s)
  | bank d => exact changesOnly_runWrite he (changesOnly_selectBank d s)
  | irqen d => exact changesOnly_runWrite he (changesOnly_tickEn _ s)
  | tick d => exact changesOnly_runWrite he (changesOnly_tickIv _ s)
  | spkr d => exact changesOnly_runWrite he (changesOnly_driveSpeaker d s)
  | seldsk d => exact changesOnly_runWrite he (changesOnly_selectDisk d s)
  | seltrk d => exact changesOnly_runWrite he (changesOnly_selectTrack d s)
  | selsct d => exact changesOnly_runWrite he (changesOnly_selectSector d s)
  | wrtsct d => exact changesOnly_runWrite he (changesOnly_writeSector d s)
  | ewNone o d => exact changesOnly_runWrite he (.refl [] s)
  | gpiord r => exact changesOnly_runRead he (changesOnly_readGpio r s)
  | status => exact changesOnly_runRead he (.refl [] s)
  | datetime => exact changesOnly_runRead he (changesOnly_readDatetime s)
  | errdisk => exact changesOnly_runRead he (.refl [] s)
  | rdsect => exact changesOnly_runRead he (changesOnly_readSector s)
  | irqstat => exact changesOnly_runRead he (changesOnly_readIrqStatus s)
  | erNone o => exact changesOnly_runRead he (.refl [] s)

/-- A transaction keeps every field of which it is no writer (10_state.md R13). -/
theorem exec_keeps {i : Instr} {s t : State} (he : exec i s = .next t) {f : Field} (hf : ¬ f.Writer i) :
    f.kept s t := exec_changesOnly he f fun hm => hf (writer_of_mem_fieldsWritten hm)

/-- Settles O49: a transaction keeps every field of which it is no writer, so a field that changed has a writer; the
last tick, Settings, the Host's list and the parameters have none. -/
theorem onlyTheNamedWritersChangeAField : Obligations.OnlyTheNamedWritersChangeAField := by
  intro i s t he
  have w (f : Field) (hf : ¬ f.kept s t) : f.Writer i := by_contra fun hn => hf (exec_keeps he hn)
  exact ⟨w .opc, w .cnt, w .err, w .trk, w .sec, w .dsk, w .buf, w .irqTick, w .tickEn, w .tickIv,
    exec_keeps (f := .lastTick) he id, w .bank, w .intOut, w .busReq, w .busDir, w .busOut, w .led, w .spkr,
    w .serialOut, w .gpio, w .rtc, exec_keeps (f := .settings) he id, exec_keeps (f := .host) he id,
    exec_keeps (f := .cfg) he id⟩

end Sys2Proof.Machine
end

section
/-! Proofs of the statements of 10_state.md, second part: the values a step leaves in the error register (10_state.md
R19) and the part of the sector buffer that is never written (10_state.md R23). -/

namespace Sys2Proof.Machine

theorem storeErr_legal (c : StoreCode) : errLegal (storeErr c) := by
  revert c
  decide

theorem chunkCode_legal (c : StoreCode) (k : Nat) : errLegal (chunkCode c k) := by
  unfold chunkCode
  split
  · decide
  · exact storeErr_legal c

theorem addressCode_legal (trk : BitVec 16) (sec : Byte) : errLegal (addressCode trk sec) := by
  unfold addressCode
  split
  · decide
  · split <;> decide

/-- The error register stands as it stood in `s`, or at a legal code (10_state.md R19). -/
def ErrLegalFrom (s t : State) : Prop := t.err = s.err ∨ errLegal t.err

theorem ErrLegalFrom.trans {s t u : State} (h : ErrLegalFrom s t) (k : ErrLegalFrom t u) : ErrLegalFrom s u := by
  rcases k with k | k
  · exact h.imp k.trans fun hl => k.symm ▸ hl
  · exact .inr k

theorem errLegalFrom_andThen {s t : State} {h : State → State} (ht : ErrLegalFrom s t)
    (hh : ErrLegalFrom t (h t)) : ErrLegalFrom s (t.andThen h) :=
  andThen_induct (P := ErrLegalFrom s) ht (ht.trans hh)

theorem errLegalFrom_recordCode (s : State) (r : StoreCode × BlockStore) (e : Option StoreCode → Event) :
    ErrLegalFrom s (recordCode (s.askStore r e)) := by
  rcases recordCode_askStore s r e with ⟨_, q⟩ | ⟨_, q⟩ <;> rw [q]
  · exact .inl rfl
  · exact .inr (storeErr_legal r.1)

theorem errLegalFrom_selectDisk (d : Byte) (s : State) : ErrLegalFrom s (selectDisk d s) := by
  unfold selectDisk
  split
  · exact errLegalFrom_recordCode { s with dsk := d } _ _
  · exact .inr (by decide : errLegal errDisk)

theorem errLegalFrom_selectTrack (d : Byte) (s : State) : ErrLegalFrom s (selectTrack d s) := by
  unfold selectTrack
  split
  · exact .inl rfl
  · exact .inr (addressCode_legal _ _)

theorem errLegalFrom_transferStart (s : State) : ErrLegalFrom s (transferStart s) := by
  unfold transferStart
  split
  · split
    · exact errLegalFrom_recordCode s _ _
    · exact .inr (addressCode_legal _ _)
  · exact .inl rfl

theorem errLegalFrom_writeByte (d : Byte) (s : State) : ErrLegalFrom s (writeByte d s) := by
  rcases writeByte_cases d s with ⟨_, e⟩ | ⟨_, _, e⟩ | ⟨_, _, e⟩ <;> rw [e]
  · exact .inl rfl
  · exact .inl rfl
  · rcases flushChunk_cases { s with buf := s.buf.set (chunkPos s.cnt).val d } with ⟨_, e⟩ | ⟨_, e⟩ <;> rw [e]
    · exact .inl rfl
    · exact .inr (chunkCode_legal _ _)

theorem errLegalFrom_finalizeSector (s : State) : ErrLegalFrom s (finalizeSector s) := by
  unfold finalizeSector
  split
  · exact errLegalFrom_recordCode s _ _
  · exact .inl rfl

theorem errLegalFrom_writeSector (d : Byte) (s : State) : ErrLegalFrom s (writeSector d s) := by
  have h := errLegalFrom_andThen (errLegalFrom_transferStart s) (errLegalFrom_writeByte d _)
  unfold writeSector
  split
  · exact errLegalFrom_andThen (errLegalFrom_andThen h (errLegalFrom_finalizeSector _)) (.inl rfl)
  · exact errLegalFrom_andThen h (.inl rfl)

theorem errLegalFrom_readChunk (s : State) : ErrLegalFrom s (readChunk s) := by
  rcases readChunk_cases s with ⟨_, e⟩ | ⟨_, _, e⟩ <;> rw [e]
  · exact .inl rfl
  · rcases fillChunk_cases s with ⟨_, e⟩ | ⟨_, e⟩ <;> rw [e]
    · exact .inl rfl
    · exact .inr (chunkCode_legal _ _)

theorem errLegalFrom_readSector (s : State) : ErrLegalFrom s (readSector s).2 := by
  have h := errLegalFrom_andThen (errLegalFrom_transferStart s) (errLegalFrom_readChunk _)
  unfold readSector
  split
  · exact errLegalFrom_andThen (h := fun t => countExchange (endSequence t)) h (.inl rfl)
  · exact errLegalFrom_andThen h (.inl rfl)

theorem errLegalFrom_of_runWrite {h : State → State} {s t : State} (he : runWrite h s = .next t)
    (hh : ErrLegalFrom s (h s)) : ErrLegalFrom s t := by
  rcases changesOnly_after_runWrite he with ⟨_, rfl⟩ | ⟨_, ht⟩
  · exact .inl rfl
  · exact hh.trans (.inl (ht .err (by simp)))

theorem errLegalFrom_of_runRead {h : State → Byte × State} {s t : State} (he : runRead h s = .next t)
    (hh : ErrLegalFrom s (h s).2) : ErrLegalFrom s t := by
  rcases changesOnly_after_runRead he with ⟨_, rfl⟩ | ⟨_, ht⟩
  · exact .inl rfl
  · exact hh.trans (.inl (ht .err (by simp)))

/-- A transaction leaves the error register as it was or at a legal code: the five instructions that write it record
a code of the table (10_state.md R13, R19). -/
theorem errLegalFrom_exec {i : Instr} {s t : State} (he : exec i s = .next t) : ErrLegalFrom s t := by
  by_cases hw : Field.err.Writer i
  · rcases hw with ⟨d, rfl⟩ | ⟨d, rfl⟩ | ⟨d, rfl⟩ | ⟨d, rfl⟩ | rfl
    · exact errLegalFrom_of_runWrite he (errLegalFrom_selectDisk d s)
    · exact errLegalFrom_of_runWrite he (errLegalFrom_selectTrack d s)
    · exact errLegalFrom_of_runWrite he (.inr (addressCode_legal s.trk d))
    · exact errLegalFrom_of_runWrite he (errLegalFrom_writeSector d s)
    · exact errLegalFrom_of_runRead he (errLegalFrom_readSector s)
  · exact .inl (exec_keeps he hw)

/-- The end of a pass keeps what a transfer uses: the stored opcode, the counter, the error register, the buffer and
the parameters (60_exceptions.md R109). -/
theorem endPass_transfer (s : State) :
    (endPass s).opc = s.opc ∧ (endPass s).cnt = s.cnt ∧ (endPass s).err = s.err ∧ (endPass s).buf = s.buf ∧
      (endPass s).cfg = s.cfg := by
  rcases endPass_cases s with ⟨_, e⟩ | ⟨_, _, e⟩ | ⟨_, _, _, e⟩ | ⟨_, _, _, _, _, _, e⟩ <;> rw [e]
  case inr.inr.inr => split <;> exact ⟨rfl, rfl, rfl, rfl, rfl⟩
  all_goals exact ⟨rfl, rfl, rfl, rfl, rfl⟩

/-- Settles O50: the Host's turn and the end of the pass keep the error register, and the transaction leaves it as it
was or at a legal code. -/
theorem newErrorCodesAreLegal : Obligations.NewErrorCodesAreLegal := by
  intro s t he
  obtain ⟨l, m, hT⟩ := hostTurn_eq s
  have hturn : (hostTurn s).err = s.err := by rw [hT]
  have hend (u : State) : (endPass u).err = u.err := (endPass_transfer u).2.2.1
  suffices ErrLegalFrom s t from this
  rcases step_cases s with ⟨_, _, e⟩ | ⟨_, u, hu, e⟩ <;> cases he.symm.trans e
  · exact .inl ((hend _).trans hturn)
  · exact (ErrLegalFrom.trans (.inl hturn) (errLegalFrom_exec hu)).trans (.inl (hend u))

/-- The bytes of the buffer from 32 on stand in `t` as they stood in `s` (10_state.md R23). -/
def KeepsTail (s t : State) : Prop := ∀ k : Fin 512, 32 ≤ k.val → t.buf[k.val] = s.buf[k.val]

theorem keepsTail_of_buf {s t : State} (h : t.buf = s.buf) : KeepsTail s t := fun k _ => by rw [h]

theorem KeepsTail.trans {s t u : State} (h : KeepsTail s t) (k : KeepsTail t u) : KeepsTail s u :=
  fun j hj => (k j hj).trans (h j hj)

theorem keepsTail_andThen {s t : State} {h : State → State} (ht : KeepsTail s t) (hh : KeepsTail t (h t)) :
    KeepsTail s (t.andThen h) := andThen_induct (P := KeepsTail s) ht (ht.trans hh)

/-- A byte taken goes to a place below 32 (44_disk_transfer.md R98). -/
theorem keepsTail_set (d : Byte) (s : State) : KeepsTail s { s with buf := s.buf.set (chunkPos s.cnt).val d } := by
  intro k hk
  have hp : (chunkPos s.cnt).val < 32 := Nat.mod_lt _ (by decide)
  exact Vector.getElem_set_ne (chunkPos s.cnt).isLt k.isLt (by omega)

theorem keepsTail_writeByte (d : Byte) (s : State) : KeepsTail s (writeByte d s) := by
  rcases writeByte_cases d s with ⟨_, e⟩ | ⟨_, _, e⟩ | ⟨_, _, e⟩ <;> rw [e]
  · exact keepsTail_of_buf rfl
  · exact keepsTail_set d s
  · exact (keepsTail_set d s).trans (keepsTail_of_buf (flushChunk_seq _).2.2)

/-- A chunk read from storage has at most 32 bytes (20_memory.md R41), which go to the places 0..31. -/
theorem keepsTail_readChunk (s : State) : KeepsTail s (readChunk s) := by
  rcases readChunk_cases s with ⟨_, e⟩ | ⟨_, _, e⟩ <;> rw [e]
  · exact keepsTail_of_buf rfl
  · rcases fillChunk_cases s with ⟨_, e⟩ | ⟨_, e⟩ <;> rw [e]
    · exact keepsTail_of_buf rfl
    · intro k hk
      have hlen := BlockStore.length_read_le s.env.bs 32
      dsimp only
      split
      · rw [getElem_putBytes, if_neg (by omega)]
      · rfl

theorem keepsTail_writeSector (d : Byte) (s : State) : KeepsTail s (writeSector d s) := by
  have h := keepsTail_andThen (keepsTail_of_buf (transferStart_seq s).2.2) (keepsTail_writeByte d _)
  unfold writeSector
  split
  · exact keepsTail_andThen (keepsTail_andThen h (keepsTail_of_buf (finalizeSector_seq _).2.2))
      (keepsTail_of_buf rfl)
  · exact keepsTail_andThen h (keepsTail_of_buf rfl)

theorem keepsTail_readSector (s : State) : KeepsTail s (readSector s).2 := by
  have h := keepsTail_andThen (keepsTail_of_buf (transferStart_seq s).2.2) (keepsTail_readChunk _)
  unfold readSector
  split
  · exact keepsTail_andThen (h := fun t => countExchange (endSequence t)) h (keepsTail_of_buf rfl)
  · exact keepsTail_andThen h (keepsTail_of_buf rfl)

/-- Settles O53: only the two sector transfers write the buffer, a write at the place cnt mod 32 and a read at most 32
bytes from place 0 on. -/
theorem bufferTailIsNeverWritten : Obligations.BufferTailIsNeverWritten := by
  intro i s t he
  suffices KeepsTail s t from this
  by_cases hw : Field.buf.Writer i
  · rcases hw with ⟨d, rfl⟩ | rfl
    · rcases changesOnly_after_runWrite he with ⟨_, rfl⟩ | ⟨_, ht⟩
      · exact keepsTail_of_buf rfl
      · exact (keepsTail_writeSector d s).trans (keepsTail_of_buf (ht .buf (by simp)))
    · rcases changesOnly_after_runRead he with ⟨_, rfl⟩ | ⟨_, ht⟩
      · exact keepsTail_of_buf rfl
      · exact (keepsTail_readSector s).trans (keepsTail_of_buf (ht .buf (by simp)))
  · exact keepsTail_of_buf (exec_keeps he hw)

end Sys2Proof.Machine
end

section
/-! Proofs of the statements of 10_state.md, third part: nothing reads the disk number, and no instruction but the two
sector transfers reads the buffer (10_state.md R22, R23). Every operation commutes with a change of these two
fields. -/

namespace Sys2Proof.Machine

/-- The state with the disk number and the sector buffer changed. -/
def State.recast (s : State) (f : Byte → Byte) (g : Vector Byte 512 → Vector Byte 512) : State :=
  { s with dsk := f s.dsk, buf := g s.buf }

/-- A handler without a result that neither reads nor writes what `f` and `g` change. -/
def Blind (f : Byte → Byte) (g : Vector Byte 512 → Vector Byte 512) (h : State → State) : Prop :=
  ∀ s : State, h (s.recast f g) = (h s).recast f g

/-- A handler with a result that neither reads nor writes what `f` and `g` change. -/
def BlindRead {α : Type} (f : Byte → Byte) (g : Vector Byte 512 → Vector Byte 512) (h : State → α × State) : Prop :=
  ∀ s : State, h (s.recast f g) = ((h s).1, (h s).2.recast f g)

section

variable {f : Byte → Byte} {g : Vector Byte 512 → Vector Byte 512}

theorem andThen_recast {k : State → State} (hk : Blind f g k) (s : State) :
    (s.recast f g).andThen k = (s.andThen k).recast f g := by
  by_cases hs : s.env.liveness = .stalled
  · rw [andThen_of_stuck hs]
    exact andThen_of_stuck (s := s.recast f g) hs k
  · rw [andThen_of_notStuck hs, ← hk]
    exact andThen_of_notStuck (s := s.recast f g) hs k

theorem Blind.andThen {h k : State → State} (hh : Blind f g h) (hk : Blind f g k) :
    Blind f g fun s => (h s).andThen k := by
  intro s
  simp only [hh s, andThen_recast hk]

theorem blind_ite {c : State → Prop} [DecidablePred c] {h k : State → State} (hc : ∀ s, c (s.recast f g) ↔ c s)
    (hh : Blind f g h) (hk : Blind f g k) : Blind f g fun s => if c s then h s else k s := by
  intro s
  by_cases hs : c s
  · simp only [if_pos hs, if_pos ((hc s).2 hs), hh s]
  · simp only [if_neg hs, if_neg (mt (hc s).1 hs), hk s]

theorem ask_recast {α : Type} (s : State) (a : α) (k : Env → Env) :
    (s.recast f g).ask a k = ((s.ask a k).1, (s.ask a k).2.recast f g) := by
  rcases ask_cases s a k with ⟨h, e⟩ | ⟨h, e⟩ <;> rw [e]
  · exact ask_of_stalls (s := s.recast f g) h a k
  · exact ask_of_returns (s := s.recast f g) h a k

theorem askStore_recast {α : Type} (s : State) (r : α × BlockStore) (e : Option α → Event) :
    (s.recast f g).askStore r e = ((s.askStore r e).1, (s.askStore r e).2.recast f g) := by
  simp only [State.askStore, ask_recast]
  rfl

theorem recordCode_recast (r : Option StoreCode × State) :
    recordCode (r.1, r.2.recast f g) = (recordCode r).recast f g := by
  obtain ⟨_ | c, t⟩ := r <;> rfl

theorem BlindRead.recordCode {h : State → Option StoreCode × State} (hh : BlindRead f g h) :
    Blind f g fun s => recordCode (h s) := by
  intro s
  simp only [hh s, recordCode_recast]

theorem blind_transferStart : Blind f g transferStart :=
  blind_ite (fun _ => .rfl)
    (blind_ite (fun _ => .rfl) (BlindRead.recordCode fun s => askStore_recast s _ _) fun _ => rfl)
    fun _ => rfl

theorem blind_finalizeSector : Blind f g finalizeSector :=
  blind_ite (fun _ => .rfl) (BlindRead.recordCode fun s => askStore_recast s _ _) fun _ => rfl

theorem blind_countExchange : Blind f g countExchange := fun _ => rfl

theorem blind_endSequence : Blind f g fun s => countExchange (endSequence s) := fun _ => rfl

theorem blind_writeGpio (r : GpioReg) (d : Byte) : Blind f g (writeGpio r d) :=
  blind_ite (fun _ => .rfl) (fun _ => rfl) fun _ => rfl

theorem blind_selectBank (d : Byte) : Blind f g (selectBank d) := by
  intro s
  unfold selectBank
  split <;> rfl

theorem blind_selectTrack (d : Byte) : Blind f g (selectTrack d) :=
  blind_ite (fun _ => .rfl) (fun _ => rfl) fun _ => rfl

/-- SELDSK reads no disk number: it leaves the one it has found, or writes its own (43_disk_control.md R90). -/
theorem selectDisk_recast (d : Byte) (s : State) :
    selectDisk d (s.recast f g) = (selectDisk d s).recast (if d.toNat ≤ 99 then id else f) g := by
  unfold selectDisk
  by_cases h : d.toNat ≤ 99
  · rw [if_pos h, if_pos h, if_pos h, ← recordCode_recast]
    exact congrArg recordCode (askStore_recast (f := id) { s with dsk := d } _ _)
  · rw [if_neg h, if_neg h, if_neg h]
    rfl

theorem blind_readGpio (r : GpioReg) : BlindRead f g (readGpio r) := by
  intro s
  unfold readGpio gpioRead
  by_cases h : s.cfg.gpioPresent = true
  · rw [if_pos h, if_pos (show (s.recast f g).cfg.gpioPresent = true from h)]
    exact congrArg (fun q : Option Byte × State => (q.1.getD 0, q.2)) (ask_recast (s.emit (.gpioRd r)) _ _)
  · rw [if_neg h, if_neg (show ¬ (s.recast f g).cfg.gpioPresent = true from h)]

theorem blind_startDatetime : Blind f g startDatetime :=
  blind_ite (fun _ => .rfl) (fun s => congrArg Prod.snd (ask_recast (s.emit .rtcRefresh) _ _)) fun _ => rfl

theorem blind_rtcField (i : Nat) : BlindRead f g (rtcField i) := fun s => ask_recast s _ _

theorem blind_readTime : BlindRead f g readTime := fun s => ask_recast s _ _

theorem blind_serialPoll : BlindRead f g serialPoll := fun s => ask_recast s _ _

theorem blind_readDatetime : BlindRead f g readDatetime := by
  intro s
  unfold readDatetime
  by_cases h : s.cnt.toNat < Board.datetimeLen
  · rw [if_pos h, if_pos (show (s.recast f g).cnt.toNat < Board.datetimeLen from h)]
    refine Prod.ext ?_ ?_
    · rw [blind_startDatetime s]
      exact congrArg (fun q => datetimeByte q.1) (blind_rtcField s.cnt.toNat (startDatetime s))
    · have hfield : Blind f g fun t => (rtcField s.cnt.toNat t).2 := fun t => congrArg Prod.snd (blind_rtcField _ t)
      have hend : Blind f g fun t => { t with
          cnt := s.cnt + 1
          opc := if s.cnt.toNat + 1 = Board.datetimeLen then s.cfg.op.nop else s.opc } := fun _ => rfl
      exact (blind_startDatetime.andThen hfield).andThen hend s
  · rw [if_neg h, if_neg (show ¬ (s.recast f g).cnt.toNat < Board.datetimeLen from h)]
    rfl

theorem blind_tickCheck : Blind f g tickCheck := by
  refine blind_ite (fun _ => .rfl) (fun s => ?_) fun _ => rfl
  rw [blind_readTime s]
  obtain ⟨_ | now, t⟩ := readTime s
  · rfl
  · exact blind_ite (c := fun _ => tickDue now s.lastTick s.tickIv = true) (h := raiseTick now) (k := id)
      (fun _ => .rfl) (fun _ => rfl) (fun _ => rfl) t

theorem blind_releaseRead (v : Byte) : Blind f g (releaseRead v) := by
  intro s
  rw [releaseRead_eq, releaseRead_eq]
  rfl

/-- The handling of a serial receive after its check that the engine is not stuck (40_bus_engine.md R67). -/
theorem blind_receiveSerial : Blind f g fun s =>
    (serialPoll s).2.andThen fun t => releaseRead ((serialPoll s).1.join.getD Board.serialNone) t := by
  intro s
  simp only [blind_serialPoll s]
  exact andThen_recast (blind_releaseRead _) (serialPoll s).2

/-- The end of a pass reads neither the disk number nor the buffer (60_exceptions.md R109). -/
theorem blind_endPass : Blind f g endPass :=
  andThen_recast fun s => blind_tickCheck { s with env := { s.env with moment := s.env.moment + 1 } }

/-- The Host's turn reads neither the disk number nor the buffer (60_exceptions.md R118). -/
theorem blind_hostTurn : Blind f g hostTurn := by
  refine blind_ite (fun _ => .rfl) (fun _ => rfl) fun s => ?_
  have hr : (s.recast f g).host = s.host := rfl
  rcases hh : s.host with _ | ⟨_ | tw, rest⟩ <;> simp only [hr, hh] <;> rfl

/-- An Execute-Write of a handler whose outcome is the same but for the two fields. -/
theorem runWrite_recast {f' : Byte → Byte} {g' : Vector Byte 512 → Vector Byte 512} {h : State → State}
    {s t : State} (hs : s.NotStuck) (e : h (s.recast f g) = (h s).recast f' g') (he : runWrite h s = .next t) :
    runWrite h (s.recast f g) = .next (t.recast f' g') := by
  have hs' : (s.recast f g).NotStuck := hs
  by_cases hh : (h s).env.liveness = .stalled
  · cases he.symm.trans (runWrite_of_stuck hs hh)
    rw [runWrite_of_stuck hs' (by rw [e]; exact hh), e]
  · cases he.symm.trans (runWrite_of_notStuck hs hh)
    rw [runWrite_of_notStuck hs' (by rw [e]; exact hh), e]
    rfl

/-- An Execute-Read of a handler whose outcome is the same but for the two fields; the result of a call that has not
returned is given to nobody. -/
theorem runRead_recast {f' : Byte → Byte} {g' : Vector Byte 512 → Vector Byte 512} {h : State → Byte × State}
    {s t : State} (hs : s.NotStuck) (e : (h (s.recast f g)).2 = (h s).2.recast f' g')
    (ev : (h s).2.NotStuck → (h (s.recast f g)).1 = (h s).1) (he : runRead h s = .next t) :
    runRead h (s.recast f g) = .next (t.recast f' g') := by
  have hs' : (s.recast f g).NotStuck := hs
  by_cases hh : (h s).2.env.liveness = .stalled
  · cases he.symm.trans (runRead_of_stuck hs hh)
    rw [runRead_of_stuck hs' (by rw [e]; exact hh), e]
  · cases he.symm.trans (runRead_of_notStuck hs hh)
    rw [runRead_of_notStuck hs' (by rw [e]; exact hh), e, ev hh]
    rfl

/-- A flush reads only the chunk (44_disk_transfer.md R98). -/
theorem flushChunk_recast {s : State} (hg : chunkBytes (g s.buf) = chunkBytes s.buf) :
    flushChunk (s.recast f g) = (flushChunk s).recast f g := by
  have e : bsWrite (chunkBytes (s.recast f g).buf) (s.recast f g) =
      ((bsWrite (chunkBytes s.buf) s).1, (bsWrite (chunkBytes s.buf) s).2.recast f g) := by
    rw [show chunkBytes (s.recast f g).buf = chunkBytes s.buf from hg]
    exact askStore_recast s _ _
  unfold flushChunk
  rw [e]
  obtain ⟨_ | ⟨c, k⟩, t⟩ := bsWrite (chunkBytes s.buf) s <;> rfl

theorem blind_writeSector (d : Byte) : Blind f id (writeSector d) := by
  have hflush : Blind f id fun s => flushChunk { s with buf := s.buf.set (chunkPos s.cnt).val d } :=
    fun s => flushChunk_recast (f := f) (g := id) (s := { s with buf := s.buf.set (chunkPos s.cnt).val d }) rfl
  have hbyte : Blind f id (writeByte d) :=
    blind_ite (fun _ => .rfl) (blind_ite (fun _ => .rfl) hflush fun _ => rfl) fun _ => rfl
  have h := blind_transferStart.andThen hbyte
  exact blind_ite (fun _ => .rfl) ((h.andThen blind_finalizeSector).andThen blind_endSequence)
    (h.andThen blind_countExchange)

theorem blind_readSector : BlindRead f id readSector := by
  have hfill : Blind f id fillChunk := by
    intro s
    have e : BlindRead f id (bsRead Board.chunk) := fun s => askStore_recast s _ _
    unfold fillChunk
    rw [e s]
    obtain ⟨_ | ⟨c, k⟩, t⟩ := bsRead Board.chunk s <;> rfl
  have hchunk : Blind f id readChunk := blind_ite (fun _ => .rfl) hfill fun _ => rfl
  have h := blind_transferStart.andThen hchunk
  intro s
  refine Prod.ext ?_ ?_
  · exact (congrArg readResult (h s)).trans rfl
  · exact blind_ite (c := fun s => lastExchange s.cnt = true) (fun _ => .rfl) (h.andThen blind_endSequence)
      (h.andThen blind_countExchange) s

/-- A transaction reads neither the disk number nor, but for the two sector transfers, the buffer, and it leaves both as
it has found them or writes its own disk number (10_state.md R22, R23). -/
theorem exec_recast {i : Instr} {s t : State} (hg : g = id ∨ ¬ Field.buf.Writer i) (he : exec i s = .next t) :
    ∃ f', (f' = f ∨ f' = id) ∧ exec i (s.recast f g) = .next (t.recast f' g) := by
  by_cases hs : s.env.liveness = .stalled
  · cases he.symm.trans (exec_of_stuck hs i)
    exact ⟨f, .inl rfl, exec_of_stuck (s := s.recast f g) hs i⟩
  have hw {h : State → State} (hb : Blind f g h) (he : runWrite h s = .next t) :
      ∃ f', (f' = f ∨ f' = id) ∧ runWrite h (s.recast f g) = .next (t.recast f' g) :=
    ⟨f, .inl rfl, runWrite_recast hs (hb s) he⟩
  have hr {h : State → Byte × State} (hb : BlindRead f g h) (he : runRead h s = .next t) :
      ∃ f', (f' = f ∨ f' = id) ∧ runRead h (s.recast f g) = .next (t.recast f' g) :=
    ⟨f, .inl rfl, runRead_recast hs (congrArg Prod.snd (hb s)) (fun _ => by rw [hb s]) he⟩
  cases i with
  | store d =>
    cases he
    exact ⟨f, .inl rfl, congrArg _ (andThen_recast (fun _ => rfl) s)⟩
  | intack =>
    cases he
    exact ⟨f, .inl rfl, congrArg _ (andThen_recast (fun _ => rfl) s)⟩
  | serrx =>
    cases he
    exact ⟨f, .inl rfl, congrArg _ (andThen_recast blind_receiveSerial s)⟩
  | led d => exact hw (fun _ => rfl) he
  | sertx d => exact hw (fun _ => rfl) he
  | gpiowr r d => exact hw (blind_writeGpio r d) he
  | bank d => exact hw (blind_selectBank d) he
  | irqen d => exact hw (fun _ => rfl) he
  | tick d => exact hw (fun _ => rfl) he
  | spkr d => exact hw (fun _ => rfl) he
  | seldsk d => exact ⟨_, ite_eq_or_eq _ _ _ |>.symm, runWrite_recast hs (selectDisk_recast d s) he⟩
  | seltrk d => exact hw (blind_selectTrack d) he
  | selsct d => exact hw (fun _ => rfl) he
  | wrtsct d =>
    obtain rfl : g = id := hg.resolve_right fun h => h (.inl ⟨d, rfl⟩)
    exact hw (blind_writeSector d) he
  | ewNone o d => exact hw (fun _ => rfl) he
  | gpiord r => exact hr (blind_readGpio r) he
  | status => exact hr (fun _ => rfl) he
  | datetime => exact hr blind_readDatetime he
  | errdisk => exact hr (fun _ => rfl) he
  | rdsect =>
    obtain rfl : g = id := hg.resolve_right fun h => h (.inr rfl)
    exact hr blind_readSector he
  | irqstat => exact hr (fun _ => rfl) he
  | erNone o => exact hr (fun _ => rfl) he

/-- The handling of the pending transaction reads neither the disk number nor, but for the two sector transfers, the
buffer (10_state.md R22, R23). -/
theorem handle_recast {s u : State} (hg : g = id ∨ ¬ Field.buf.Writer (decodeWord s.cfg (sampleWord s)))
    (hu : handle s = .next u) :
    ∃ f', (f' = f ∨ f' = id) ∧ handle (s.recast f g) = .next (u.recast f' g) := by
  by_cases hw : s.lines.wait = true
  · have he : exec (decodeWord s.cfg (sampleWord s)) s = .next u := (if_pos hw).symm.trans hu
    obtain ⟨f', hf, he'⟩ := exec_recast (f := f) hg he
    exact ⟨f', hf, (if_pos hw).trans he'⟩
  · cases (if_neg hw).symm.trans hu
    exact ⟨f, .inl rfl, if_neg hw⟩

/-- A step is the same but for the two fields when its transaction is. -/
theorem step_recast {f' : Byte → Byte} {g' : Vector Byte 512 → Vector Byte 512} {s u : State}
    (hu : handle ((hostTurn s).recast f g) = .next (u.recast f' g')) :
    step (s.recast f g) = .next ((endPass u).recast f' g') := by
  rw [← blind_hostTurn] at hu
  rw [step_of_handle hu, blind_endPass]

end

/-- Settles O52: every part of a pass commutes with a change of the disk number, but for SELDSK, which writes its
own. -/
theorem diskNumberIsNeverRead : Obligations.DiskNumberIsNeverRead := by
  intro s n
  obtain ⟨u, hu⟩ := handle_answers (hostTurn s)
  obtain ⟨f', _, hu'⟩ := handle_recast (f := fun _ => n) (g := id) (.inl rfl) hu
  have hs : step { s with dsk := n } = .next ((endPass u).recast f' id) := step_recast hu'
  rw [hs, step_of_handle hu]
  rfl

end Sys2Proof.Machine
end

section
/-! Proofs of the statements of 10_state.md, last part: no transaction observes a byte of the buffer its transfer has
not written or filled (10_state.md R23, 20_memory.md R48). Two runs of one exchange from buffers that agree on the bytes
in use are compared part by part. -/

namespace Sys2Proof.Machine

/-- The state with another buffer. -/
abbrev State.withBuf (s : State) (b : Vector Byte 512) : State := s.recast id fun _ => b

/-- With no error latched, the buffer `b` agrees with the state's on the bytes below `m`. -/
def AgreeBelow (m : Nat) (b : Vector Byte 512) (s : State) : Prop :=
  s.err = 0 → ∀ k : Fin 512, k.val < m → b[k.val] = s.buf[k.val]

section

variable {m : Nat} {b : Vector Byte 512} {s : State}

theorem AgreeBelow.mono {n : Nat} (h : AgreeBelow m b s) (hn : n ≤ m) : AgreeBelow n b s :=
  fun he k hk => h he k (by omega)

theorem AgreeBelow.of_eq {t : State} (h : AgreeBelow m b s) (he : t.err = 0 → s.err = 0) (hb : t.buf = s.buf) :
    AgreeBelow m b t := fun h0 k hk => by rw [hb, h (he h0) k hk]

theorem agreeBelow_of_latched (h : s.err ≠ 0) : AgreeBelow m b s := fun h0 => absurd h0 h

/-- X_START() runs only with no error latched (44_disk_transfer.md R94). -/
theorem err_of_transferStart (h : (transferStart s).err = 0) : s.err = 0 := by
  rcases transferStart_cases s with ⟨_, e⟩ | ⟨h0, _⟩ | ⟨h0, _⟩ | ⟨h0, _⟩
  · rwa [e] at h
  · exact h0.2
  · exact h0.2
  · exact h0.2

theorem AgreeBelow.transferStart (h : AgreeBelow m b s) : AgreeBelow m b (transferStart s) :=
  h.of_eq err_of_transferStart (transferStart_seq s).2.2

theorem AgreeBelow.finalizeSector (h : AgreeBelow m b s) : AgreeBelow m b (finalizeSector s) := by
  refine h.of_eq (fun h0 => ?_) (finalizeSector_seq s).2.2
  rcases finalizeSector_cases s with ⟨_, e⟩ | ⟨he, _⟩ | ⟨he, _⟩
  · rwa [e] at h0
  · exact he
  · exact he

/-- A write flushes the bytes 0..31 (44_disk_transfer.md R98). -/
theorem chunkBytes_congr {v : Vector Byte 512} (h : ∀ k : Fin 512, k.val < 32 → b[k.val] = v[k.val]) :
    chunkBytes b = chunkBytes v := by
  refine List.ext_getElem (by simp) fun i hi _ => ?_
  have hi : i < 32 := by simpa using hi
  simpa [chunkBytes] using h ⟨i, by omega⟩ hi

/-- Buffers that agree below a place agree on it too once the same byte is stored there. -/
theorem set_agree {v : Vector Byte 512} {p : Fin 512} (d : Byte)
    (h : ∀ k : Fin 512, k.val < p.val → b[k.val] = v[k.val]) (k : Fin 512) (hk : k.val < p.val + 1) :
    (b.set p.val d)[k.val] = (v.set p.val d)[k.val] := by
  rw [Vector.getElem_set, Vector.getElem_set]
  split
  · rfl
  · exact h k (by omega)

/-- A byte of a write, taken from buffers that agree on the bytes taken so far: the same outcome, and agreement on one
byte more (44_disk_transfer.md R98). -/
theorem writeByte_agree (d : Byte) (h : AgreeBelow (s.cnt.toNat % 32) b s) :
    ∃ b', writeByte d (s.withBuf b) = (writeByte d s).withBuf b' ∧
      AgreeBelow (s.cnt.toNat % 32 + 1) b' (writeByte d s) := by
  by_cases he : s.err = 0
  · have hset := set_agree d (p := chunkPos s.cnt) (h he)
    refine ⟨b.set (chunkPos s.cnt).val d, ?_⟩
    unfold writeByte
    rw [if_pos he, if_pos (show (s.withBuf b).err = 0 from he)]
    unfold takeByte
    by_cases hp : (chunkPos s.cnt).val = Board.chunk - 1
    · rw [if_pos hp, if_pos (show (chunkPos (s.withBuf b).cnt).val = Board.chunk - 1 from hp)]
      have hall : chunkBytes (b.set (chunkPos s.cnt).val d) = chunkBytes (s.buf.set (chunkPos s.cnt).val d) :=
        chunkBytes_congr fun k hk => hset k (by rw [hp]; exact hk)
      refine ⟨flushChunk_recast (f := id) (g := fun _ => b.set (chunkPos s.cnt).val d)
        (s := { s with buf := s.buf.set (chunkPos s.cnt).val d }) hall, fun _ k hk => ?_⟩
      rw [(flushChunk_seq _).2.2]
      exact hset k hk
    · rw [if_neg hp, if_neg (show ¬ (chunkPos (s.withBuf b).cnt).val = Board.chunk - 1 from hp)]
      exact ⟨rfl, fun _ => hset⟩
  · have hl {u : State} (hu : u.err ≠ 0) : writeByte d u = u := if_neg hu
    exact ⟨b, by rw [hl he]; exact hl (u := s.withBuf b) he, by rw [hl he]; exact agreeBelow_of_latched he⟩

/-- Agreement in the middle of a write, at place `m` of its chunk: on the bytes taken before, and on the present one
too unless the engine is stuck. -/
def AgreeWriting (m : Nat) (b : Vector Byte 512) (s : State) : Prop :=
  AgreeBelow m b s ∧ (s.NotStuck → AgreeBelow (m + 1) b s)

theorem AgreeWriting.andThen {h : State → State} (ha : AgreeWriting m b s)
    (hh : AgreeBelow (m + 1) b s → AgreeBelow (m + 1) b (h s)) : AgreeWriting m b (s.andThen h) := by
  by_cases hs : s.env.liveness = .stalled
  · rwa [andThen_of_stuck hs]
  · rw [andThen_of_notStuck hs]
    have h1 := hh (ha.2 hs)
    exact ⟨h1.mono (by omega), fun _ => h1⟩

theorem startWrite_agree (d : Byte) (h : AgreeBelow (s.cnt.toNat % 32) b s) :
    ∃ b', (transferStart (s.withBuf b)).andThen (writeByte d) =
        ((transferStart s).andThen (writeByte d)).withBuf b' ∧
      AgreeWriting (s.cnt.toNat % 32) b' ((transferStart s).andThen (writeByte d)) := by
  have hc : (transferStart s).cnt = s.cnt := (transferStart_seq s).2.1
  rw [blind_transferStart s]
  by_cases hs : (transferStart s).env.liveness = .stalled
  · rw [andThen_of_stuck hs, andThen_of_stuck (s := (transferStart s).withBuf b) hs]
    exact ⟨b, rfl, h.transferStart, fun hn => absurd hs hn⟩
  · rw [andThen_of_notStuck hs, andThen_of_notStuck (s := (transferStart s).withBuf b) hs]
    obtain ⟨b', e, ha⟩ := writeByte_agree d (s := transferStart s) (b := b) (by rw [hc]; exact h.transferStart)
    rw [hc] at ha
    exact ⟨b', e, ha.mono (by omega), fun _ => ha⟩

/-- H_WRTSCT from buffers that agree on the bytes taken since the last flush (44_disk_transfer.md R98). -/
theorem writeSector_agree (d : Byte) (h : AgreeBelow (s.cnt.toNat % 32) b s) :
    ∃ b', writeSector d (s.withBuf b) = (writeSector d s).withBuf b' ∧
      AgreeBelow ((writeSector d s).cnt.toNat % 32) b' (writeSector d s) := by
  obtain ⟨b', e, ha⟩ := startWrite_agree d h
  have hw : writeSector d (s.withBuf b) = (writeSector d s).withBuf b' ∧
      AgreeWriting (s.cnt.toNat % 32) b' (writeSector d s) := by
    unfold writeSector
    rw [e]
    by_cases hl : lastExchange s.cnt = true
    · rw [if_pos hl, if_pos (show lastExchange (s.withBuf b).cnt = true from hl)]
      refine ⟨?_, (ha.andThen fun h => h.finalizeSector).andThen fun h => h.of_eq id rfl⟩
      exact Blind.andThen (h := fun t => t.andThen finalizeSector) (andThen_recast blind_finalizeSector)
        blind_endSequence _
    · rw [if_neg hl, if_neg (show ¬ lastExchange (s.withBuf b).cnt = true from hl)]
      exact ⟨andThen_recast blind_countExchange _, ha.andThen fun h => h.of_eq id rfl⟩
  refine ⟨b', hw.1, ?_⟩
  rcases writeSector_seq d s with ⟨_, _, hc⟩ | ⟨hn, _, hc⟩ <;> rw [hc]
  · exact hw.2.1
  · refine (hw.2.2 hn).mono ?_
    bv_omega

/-- A fill that returns leaves the same bytes 0..31, or an error (44_disk_transfer.md R97, R99). -/
theorem fillChunk_agree (s : State) (b : Vector Byte 512) :
    ∃ b', fillChunk (s.withBuf b) = (fillChunk s).withBuf b' ∧
      ((fillChunk s).NotStuck → AgreeBelow 32 b' (fillChunk s)) := by
  rcases fillChunk_cases s with ⟨hs, e⟩ | ⟨hs, e⟩
  · rcases fillChunk_cases (s.withBuf b) with ⟨_, e'⟩ | ⟨hs', _⟩
    · exact ⟨b, by rw [e, e']; rfl, fun hn => absurd hs (by rwa [e] at hn)⟩
    · exact absurd hs hs'
  · rcases fillChunk_cases (s.withBuf b) with ⟨hs', _⟩ | ⟨_, e'⟩
    · exact absurd hs' hs
    · refine ⟨if chunkCode (s.env.bs.read 32).1.1 (s.env.bs.read 32).1.2.length = 0 then
          putBytes b 0 (s.env.bs.read 32).1.2 else b, by rw [e, e']; rfl, fun _ => ?_⟩
      rw [e]
      intro h0 k hk
      have hz : chunkCode (s.env.bs.read 32).1.1 (s.env.bs.read 32).1.2.length = 0 := h0
      have hlen := (chunkCode_eq_zero.1 hz).2
      have hin : 0 ≤ k.val ∧ k.val < 0 + (s.env.bs.read 32).1.2.length := by omega
      simp only [if_pos hz, getElem_putBytes, if_pos hin]

/-- A chunk start of a read, from buffers that agree on the chunk being served if there is one
(44_disk_transfer.md R99). -/
theorem readChunk_agree (h : s.cnt.toNat % 32 ≠ 0 → AgreeBelow 32 b s) :
    ∃ b', readChunk (s.withBuf b) = (readChunk s).withBuf b' ∧
      (s.cnt.toNat % 32 ≠ 0 ∨ (readChunk s).NotStuck → AgreeBelow 32 b' (readChunk s)) := by
  unfold readChunk
  by_cases hf : s.err = 0 ∧ (chunkPos s.cnt).val = 0
  · rw [if_pos hf, if_pos (show (s.withBuf b).err = 0 ∧ (chunkPos (s.withBuf b).cnt).val = 0 from hf)]
    obtain ⟨b', e, ha⟩ := fillChunk_agree s b
    exact ⟨b', e, fun hn => ha (hn.resolve_left fun hp => hp hf.2)⟩
  · rw [if_neg hf, if_neg (show ¬ ((s.withBuf b).err = 0 ∧ (chunkPos (s.withBuf b).cnt).val = 0) from hf)]
    exact ⟨b, rfl, fun _ he => h (fun hp => hf ⟨he, hp⟩) he⟩

theorem startRead_agree (h : s.cnt.toNat % 32 ≠ 0 → AgreeBelow 32 b s) :
    ∃ b', (transferStart (s.withBuf b)).andThen readChunk =
        ((transferStart s).andThen readChunk).withBuf b' ∧
      (s.cnt.toNat % 32 ≠ 0 ∨ ((transferStart s).andThen readChunk).NotStuck →
        AgreeBelow 32 b' ((transferStart s).andThen readChunk)) := by
  have hc : (transferStart s).cnt = s.cnt := (transferStart_seq s).2.1
  have ht : s.cnt.toNat % 32 ≠ 0 → AgreeBelow 32 b (transferStart s) := fun hp => (h hp).transferStart
  rw [blind_transferStart s]
  by_cases hs : (transferStart s).env.liveness = .stalled
  · rw [andThen_of_stuck hs, andThen_of_stuck (s := (transferStart s).withBuf b) hs]
    exact ⟨b, rfl, fun hn => ht (hn.resolve_right fun hn => hn hs)⟩
  · rw [andThen_of_notStuck hs, andThen_of_notStuck (s := (transferStart s).withBuf b) hs]
    rw [← hc] at ht ⊢
    exact readChunk_agree ht

/-- The byte a read gives is one of the chunk's, or 0x00 with an error latched (44_disk_transfer.md R99). -/
theorem readResult_agree (h : AgreeBelow 32 b s) : readResult (s.withBuf b) = readResult s := by
  unfold readResult
  by_cases he : s.err = 0
  · rw [if_pos he, if_pos (show (s.withBuf b).err = 0 from he)]
    exact h he (chunkPos s.cnt) (Nat.mod_lt _ (by decide))
  · rw [if_neg he, if_neg (show ¬ (s.withBuf b).err = 0 from he)]

/-- A read stuck in a call stands where the call stands (60_exceptions.md R116). -/
theorem readSector_of_stuck {u : State} (hu : (transferStart s).andThen readChunk = u)
    (hs : u.env.liveness = .stalled) : (readSector s).2 = u := by
  unfold readSector
  rw [hu]
  dsimp only
  split <;> exact andThen_of_stuck hs _

/-- H_RDSECT from buffers that agree on the chunk being served (44_disk_transfer.md R99). -/
theorem readSector_agree (h : s.cnt.toNat % 32 ≠ 0 → AgreeBelow 32 b s) :
    ∃ b', (readSector (s.withBuf b)).2 = (readSector s).2.withBuf b' ∧
      ((readSector s).2.NotStuck → (readSector (s.withBuf b)).1 = (readSector s).1) ∧
      ((readSector s).2.cnt.toNat % 32 ≠ 0 → AgreeBelow 32 b' (readSector s).2) := by
  obtain ⟨b', e, ha⟩ := startRead_agree h
  refine ⟨b', ?_⟩
  by_cases hs : ((transferStart s).andThen readChunk).env.liveness = .stalled
  · rw [readSector_of_stuck rfl hs, readSector_of_stuck e hs]
    refine ⟨rfl, fun hn => absurd hs hn, fun hp => ha (.inl ?_)⟩
    rcases readSector_seq s with ⟨_, _, hc⟩ | ⟨hn, _⟩
    · rw [readSector_of_stuck rfl hs] at hc
      rwa [← hc]
    · exact absurd hs (readSector_of_stuck rfl hs ▸ hn)
  · have h32 := ha (.inr hs)
    rw [readSector_of_notStuck rfl hs, readSector_of_notStuck e hs, readResult_agree h32]
    refine ⟨?_, fun _ => rfl, fun _ => ?_⟩
    · exact blind_ite (c := fun _ => lastExchange s.cnt = true) (fun _ => .rfl) blind_endSequence
        blind_countExchange _
    · dsimp only
      split <;> exact h32.of_eq id rfl

/-- A WRTSCT exchange from buffers that agree on the bytes taken since the last flush (44_disk_transfer.md R98). -/
theorem execWrtsct_agree {t : State} {d : Byte} (hs : s.NotStuck) (h : AgreeBelow (s.cnt.toNat % 32) b s)
    (he : exec (.wrtsct d) s = .next t) :
    ∃ b', exec (.wrtsct d) (s.withBuf b) = .next (t.withBuf b') ∧ AgreeBelow (t.cnt.toNat % 32) b' t := by
  obtain ⟨b', e, ha⟩ := writeSector_agree d h
  refine ⟨b', runWrite_recast hs e he, ?_⟩
  rcases changesOnly_after_runWrite he with ⟨hs', _⟩ | ⟨_, ht⟩
  · exact absurd hs' hs
  · have hc : t.cnt = (writeSector d s).cnt := ht .cnt (by simp)
    have herr : t.err = (writeSector d s).err := ht .err (by simp)
    rw [hc]
    exact ha.of_eq (fun h0 => herr ▸ h0) (ht .buf (by simp))

/-- A RDSECT exchange from buffers that agree on the chunk being served (44_disk_transfer.md R99). -/
theorem execRdsect_agree {t : State} (hs : s.NotStuck) (h : s.cnt.toNat % 32 ≠ 0 → AgreeBelow 32 b s)
    (he : exec .rdsect s = .next t) :
    ∃ b', exec .rdsect (s.withBuf b) = .next (t.withBuf b') ∧
      (t.cnt.toNat % 32 ≠ 0 → AgreeBelow 32 b' t) := by
  obtain ⟨b', e, ev, ha⟩ := readSector_agree h
  refine ⟨b', runRead_recast hs e ev he, ?_⟩
  rcases changesOnly_after_runRead he with ⟨hs', _⟩ | ⟨_, ht⟩
  · exact absurd hs' hs
  · have hc : t.cnt = (readSector s).2.cnt := ht .cnt (by simp)
    have herr : t.err = (readSector s).2.err := ht .err (by simp)
    rw [hc]
    exact fun hp => (ha hp).of_eq (fun h0 => herr ▸ h0) (ht .buf (by simp))

/-! What the stored opcode says of the transaction (30_encoding.md R54, R56), and what the transaction leaves of it
(41_dispatcher.md R76). -/

/-- What the pending transaction can be: its lines alone say so, or they say its direction and the stored opcode says
the rest (40_bus_engine.md R64). -/
theorem decode_sample_cases (s : State) :
    (∃ d, decodeWord s.cfg (sampleWord s) = .store d) ∨ decodeWord s.cfg (sampleWord s) = .serrx ∨
    decodeWord s.cfg (sampleWord s) = .intack ∨
    (∃ d, decodeWord s.cfg (sampleWord s) = decodeWrite s.cfg s.opc d) ∨
    decodeWord s.cfg (sampleWord s) = decodeRead s.cfg s.opc := by
  rw [sampleWord, decodeWord_packDW]
  cases phaseOf s.lines.wr s.lines.rd s.lines.ad0 with
  | storeOpcode => exact .inl ⟨_, rfl⟩
  | serialRx => exact .inr (.inl rfl)
  | interrupt => exact .inr (.inr (.inl rfl))
  | executeWrite => exact .inr (.inr (.inr (.inl ⟨_, rfl⟩)))
  | executeRead => exact .inr (.inr (.inr (.inr rfl)))

variable {p : Params}

theorem writeKey_ne_readKey (hp : p.Wf) {x y : Byte} (hx : x ∈ p.op.writeKeys) (hy : y ∈ p.op.readKeys) : x ≠ y :=
  (List.nodup_append.1 hp.1).2.2 x hx y hy

theorem wrtsct_mem_writeKeys (m : OpcodeMap) : m.wrtsct ∈ m.writeKeys := by simp [OpcodeMap.writeKeys]

theorem seltrk_mem_writeKeys (m : OpcodeMap) : m.seltrk ∈ m.writeKeys := by simp [OpcodeMap.writeKeys]

theorem datetime_mem_readKeys (m : OpcodeMap) : m.datetime ∈ m.readKeys := by simp [OpcodeMap.readKeys]

theorem rdsect_mem_readKeys (m : OpcodeMap) : m.rdsect ∈ m.readKeys := by simp [OpcodeMap.readKeys]

theorem decodeWrite_wrtsct (hp : p.Wf) (d : Byte) : decodeWrite p p.op.wrtsct d = .wrtsct d :=
  decodeWrite_of_mem hp (by simp [writeTable]) d

theorem decodeRead_rdsect (hp : p.Wf) : decodeRead p p.op.rdsect = .rdsect :=
  decodeRead_of_mem hp (by simp [readTable])

theorem decodeWrite_readKey (hp : p.Wf) {o : Byte} (ho : o ∈ p.op.readKeys) (d : Byte) :
    decodeWrite p o d = .ewNone o d := by
  rcases decodeWrite_cases p o d with ⟨h, hm, _⟩ | ⟨_, e⟩
  · have hk : o ∈ p.op.writeKeys := writeTable_keys p.op ▸ List.mem_map_of_mem (f := Prod.fst) hm
    exact absurd rfl (writeKey_ne_readKey hp hk ho)
  · exact e

theorem decodeRead_writeKey (hp : p.Wf) {o : Byte} (ho : o ∈ p.op.writeKeys) : decodeRead p o = .erNone o := by
  rcases decodeRead_cases p o with hm | ⟨_, e⟩
  · have hk : o ∈ p.op.readKeys := readTable_keys p.op ▸ List.mem_map_of_mem (f := Prod.fst) hm
    exact absurd rfl (writeKey_ne_readKey hp ho hk)
  · exact e

/-- The entries of WRITE_DISPATCH are Execute-Writes, and only WRTSCT's writes the buffer (41_dispatcher.md R74). -/
theorem writeTable_entry {m : OpcodeMap} {o : Byte} {h : Byte → Instr} (hm : (o, h) ∈ writeTable m) (d : Byte) :
    (h d).phase = .executeWrite ∧ (Field.buf.Writer (h d) → o = m.wrtsct) := by
  simp only [writeTable, List.mem_append, List.mem_cons, List.mem_map, Prod.mk.injEq, List.not_mem_nil,
    or_false] at hm
  rcases hm with ((⟨rfl, rfl⟩ | ⟨rfl, rfl⟩) | ⟨_, _, rfl, rfl⟩) | ⟨rfl, rfl⟩ | ⟨rfl, rfl⟩ | ⟨rfl, rfl⟩ | ⟨rfl, rfl⟩ |
    ⟨rfl, rfl⟩ | ⟨rfl, rfl⟩ | ⟨rfl, rfl⟩ | ⟨rfl, rfl⟩ <;> simp [Field.Writer, Instr.phase]

/-- The entries of READ_DISPATCH are Execute-Reads, and only RDSECT's writes the buffer (41_dispatcher.md R74). -/
theorem readTable_entry {m : OpcodeMap} {o : Byte} {i : Instr} (hm : (o, i) ∈ readTable m) :
    i.phase = .executeRead ∧ (Field.buf.Writer i → o = m.rdsect) := by
  simp only [readTable, List.mem_append, List.mem_cons, List.mem_map, Prod.mk.injEq, List.not_mem_nil,
    or_false] at hm
  rcases hm with ⟨_, _, rfl, rfl⟩ | ⟨rfl, rfl⟩ | ⟨rfl, rfl⟩ | ⟨rfl, rfl⟩ | ⟨rfl, rfl⟩ | ⟨rfl, rfl⟩ <;>
    simp [Field.Writer, Instr.phase]

theorem decodeWrite_entry (p : Params) (o d : Byte) :
    (decodeWrite p o d).phase = .executeWrite ∧ (Field.buf.Writer (decodeWrite p o d) → o = p.op.wrtsct) := by
  rcases decodeWrite_cases p o d with ⟨h, hm, e⟩ | ⟨_, e⟩ <;> rw [e]
  · exact writeTable_entry hm d
  · simp [Field.Writer, Instr.phase]

theorem decodeRead_entry (p : Params) (o : Byte) :
    (decodeRead p o).phase = .executeRead ∧ (Field.buf.Writer (decodeRead p o) → o = p.op.rdsect) := by
  rcases decodeRead_cases p o with hm | ⟨_, e⟩
  · exact readTable_entry hm
  · rw [e]
    simp [Field.Writer, Instr.phase]

/-- After its handler an Execute-Write keeps the stored opcode or writes OPC_NOP (41_dispatcher.md R76). -/
theorem runWrite_opc {h : State → State} {t : State} (hc : (h s).cfg = s.cfg)
    (ho : (h s).opc = s.opc ∨ (h s).opc = s.cfg.op.nop) (he : runWrite h s = .next t) :
    t.opc = s.opc ∨ t.opc = s.cfg.op.nop := by
  rcases runWrite_cases h s with ⟨_, e⟩ | ⟨_, _, e⟩ | ⟨_, _, e⟩ <;> cases he.symm.trans e
  · exact .inl rfl
  · exact ho
  · rw [released_opc, opcAfterWrite]
    split
    · exact ho
    · exact .inr (by rw [hc])

/-- After its handler an Execute-Read keeps the stored opcode or writes OPC_NOP (41_dispatcher.md R76). -/
theorem runRead_opc {h : State → Byte × State} {t : State} (hc : (h s).2.cfg = s.cfg)
    (ho : (h s).2.opc = s.opc ∨ (h s).2.opc = s.cfg.op.nop) (he : runRead h s = .next t) :
    t.opc = s.opc ∨ t.opc = s.cfg.op.nop := by
  rcases runRead_cases h s with ⟨_, e⟩ | ⟨_, _, e⟩ | ⟨_, _, e⟩ <;> cases he.symm.trans e
  · exact .inl rfl
  · exact ho
  · rw [readReleased_opc, opcAfterRead]
    split
    · exact ho
    · exact .inr (by rw [hc])

/-- Only STORE writes another stored opcode than OPC_NOP (10_state.md R13, 41_dispatcher.md R76, R77). -/
theorem exec_opc {i : Instr} {t : State} (hi : i.phase ≠ .storeOpcode) (he : exec i s = .next t) :
    t.opc = s.opc ∨ t.opc = s.cfg.op.nop := by
  have hw {W : List Field} {h : State → State} (hh : ChangesOnly W s (h s)) (ho : Field.opc ∉ W)
      (hc : Field.cfg ∉ W) (he : runWrite h s = .next t) : t.opc = s.opc ∨ t.opc = s.cfg.op.nop :=
    runWrite_opc (hh .cfg hc) (.inl (hh .opc ho)) he
  have hr {W : List Field} {h : State → Byte × State} (hh : ChangesOnly W s (h s).2) (ho : Field.opc ∉ W)
      (hc : Field.cfg ∉ W) (he : runRead h s = .next t) : t.opc = s.opc ∨ t.opc = s.cfg.op.nop :=
    runRead_opc (hh .cfg hc) (.inl (hh .opc ho)) he
  have hif {c : Prop} [Decidable c] : (if c then s.cfg.op.nop else s.opc) = s.opc ∨
      (if c then s.cfg.op.nop else s.opc) = s.cfg.op.nop := (ite_eq_or_eq _ _ _).symm
  cases i with
  | store d => exact absurd rfl hi
  | serrx => exact .inl (exec_keeps (f := .opc) he (by simp [Field.Writer, Instr.phase]))
  | intack => exact .inl (exec_keeps (f := .opc) he (by simp [Field.Writer, Instr.phase]))
  | led d => exact hw (changesOnly_lightLed d s) (by decide) (by decide) he
  | sertx d => exact hw (changesOnly_sendSerial d s) (by decide) (by decide) he
  | gpiowr r d => exact hw (changesOnly_writeGpio r d s) (by decide) (by decide) he
  | bank d => exact hw (changesOnly_selectBank d s) (by decide) (by decide) he
  | irqen d => exact hw (changesOnly_tickEn _ s) (by decide) (by decide) he
  | tick d => exact hw (changesOnly_tickIv _ s) (by decide) (by decide) he
  | spkr d => exact hw (changesOnly_driveSpeaker d s) (by decide) (by decide) he
  | seldsk d => exact hw (changesOnly_selectDisk d s) (by decide) (by decide) he
  | seltrk d => exact hw (changesOnly_selectTrack d s) (by decide) (by decide) he
  | selsct d => exact hw (changesOnly_selectSector d s) (by decide) (by decide) he
  | ewNone o d => exact hw (.refl [] s) (by decide) (by decide) he
  | gpiord r => exact hr (changesOnly_readGpio r s) (by decide) (by decide) he
  | status => exact hr (.refl [] s) (by decide) (by decide) he
  | errdisk => exact hr (.refl [] s) (by decide) (by decide) he
  | irqstat => exact hr (changesOnly_readIrqStatus s) (by decide) (by decide) he
  | erNone o => exact hr (.refl [] s) (by decide) (by decide) he
  | wrtsct d =>
    refine runWrite_opc (changesOnly_writeSector d s .cfg (by decide)) ?_ he
    rcases writeSector_seq d s with ⟨_, e, _⟩ | ⟨_, e, _⟩ <;> rw [e]
    · exact .inl rfl
    · exact hif
  | rdsect =>
    refine runRead_opc (changesOnly_readSector s .cfg (by decide)) ?_ he
    rcases readSector_seq s with ⟨_, e, _⟩ | ⟨_, e, _⟩ <;> rw [e]
    · exact .inl rfl
    · exact hif
  | datetime =>
    by_cases hs : s.env.liveness = .stalled
    · cases he.symm.trans (exec_of_stuck hs _)
      exact .inl rfl
    · refine runRead_opc (changesOnly_readDatetime s .cfg (by decide)) ?_ he
      rcases readDatetime_seq hs with ⟨_, e, _⟩ | ⟨_, e, _⟩ <;> rw [e]
      · exact .inl rfl
      · exact hif

/-- With an opcode stored that is neither OPC_WRTSCT nor OPC_RDSECT no byte of the buffer is in use. -/
theorem agrees_of_noTransfer (hw : s.opc ≠ s.cfg.op.wrtsct) (hr : s.opc ≠ s.cfg.op.rdsect) :
    s.agreesOnLiveBytes b := fun _ => ⟨fun h => absurd h hw, fun h => absurd h hr⟩

theorem agrees_of_nop (hp : s.cfg.Wf) (h : s.opc = s.cfg.op.nop) : s.agreesOnLiveBytes b :=
  agrees_of_noTransfer (h ▸ (nop_not_armed hp).2.1) (h ▸ (nop_not_armed hp).2.2.2)

/-- Before the first exchange of a sequence no byte of the buffer is in use. -/
theorem agrees_of_cnt (h : s.cnt = 0) : s.agreesOnLiveBytes b := by
  refine fun _ => ⟨fun _ k hk => ?_, fun _ hc => ?_⟩
  · simp [h] at hk
  · simp [h] at hc

/-- The bytes in use depend on the opcode, the counter, the error register and the buffer. -/
theorem agrees_of_kept {t : State} (h : s.agreesOnLiveBytes b) (ho : t.opc = s.opc) (hn : t.cnt = s.cnt)
    (he : t.err = s.err) (hb : t.buf = s.buf) (hc : t.cfg = s.cfg) : t.agreesOnLiveBytes b := by
  unfold State.agreesOnLiveBytes at h ⊢
  rwa [ho, hn, he, hb, hc]

/-- A transaction that does not write the buffer, from two buffers: the same outcome. -/
theorem exec_agree_of_notWriter {i : Instr} {t : State} (hi : ¬ Field.buf.Writer i) (he : exec i s = .next t)
    (ht : t.agreesOnLiveBytes b) :
    ∃ b', exec i (s.withBuf b) = .next (t.withBuf b') ∧ t.agreesOnLiveBytes b' := by
  obtain ⟨f', hf, e⟩ := exec_recast (f := id) (g := fun _ => b) (.inr hi) he
  obtain rfl : f' = id := hf.elim id id
  exact ⟨b, e, ht⟩

/-- A transaction whose stored opcode is neither OPC_WRTSCT nor OPC_RDSECT leaves no byte of the buffer in use. -/
theorem exec_agree_of_noTransfer {i : Instr} {t : State} (hp : s.cfg.Wf) (hw : s.opc ≠ s.cfg.op.wrtsct)
    (hr : s.opc ≠ s.cfg.op.rdsect) (hph : i.phase ≠ .storeOpcode) (hi : ¬ Field.buf.Writer i)
    (he : exec i s = .next t) : ∃ b', exec i (s.withBuf b) = .next (t.withBuf b') ∧ t.agreesOnLiveBytes b' := by
  have hc : t.cfg = s.cfg := exec_keeps (f := .cfg) he id
  refine exec_agree_of_notWriter hi he ?_
  rcases exec_opc hph he with e | e
  · exact agrees_of_noTransfer (by rwa [e, hc]) (by rwa [e, hc])
  · exact agrees_of_nop (hc ▸ hp) (by rw [e, hc])

/-- An Execute-Write that finds no handler disarms an opcode that is not armed for writes (41_dispatcher.md R75,
R76). -/
theorem execEwNone_opc {o d : Byte} {t : State} (hs : s.NotStuck)
    (ho : ¬ (s.opc = s.cfg.op.seltrk ∨ s.opc = s.cfg.op.wrtsct)) (he : exec (.ewNone o d) s = .next t) :
    t.opc = s.cfg.op.nop := by
  cases he.symm.trans (runWrite_of_notStuck (h := fun s => s) hs hs)
  exact if_neg ho

/-- An Execute-Read that finds no handler disarms an opcode that is not armed for reads (41_dispatcher.md R75, R76). -/
theorem execErNone_opc {o : Byte} {t : State} (hs : s.NotStuck)
    (ho : ¬ (s.opc = s.cfg.op.datetime ∨ s.opc = s.cfg.op.rdsect)) (he : exec (.erNone o) s = .next t) :
    t.opc = s.cfg.op.nop := by
  cases he.symm.trans (runRead_of_notStuck (h := fun s => (0, s)) hs hs)
  exact if_neg ho

/-- An Execute-Write from two buffers that agree on the bytes in use (10_state.md R23). -/
theorem execWrite_agree {d : Byte} {t : State} (hp : s.cfg.Wf) (hs : s.NotStuck) (h : s.agreesOnLiveBytes b)
    (he : exec (decodeWrite s.cfg s.opc d) s = .next t) :
    ∃ b', exec (decodeWrite s.cfg s.opc d) (s.withBuf b) = .next (t.withBuf b') ∧ t.agreesOnLiveBytes b' := by
  have hc : t.cfg = s.cfg := exec_keeps (f := .cfg) he id
  have hrd := rdsect_mem_readKeys s.cfg.op
  obtain ⟨hph, hwr⟩ := decodeWrite_entry s.cfg s.opc d
  by_cases hw : s.opc = s.cfg.op.wrtsct
  · rw [hw, decodeWrite_wrtsct hp] at he ⊢
    obtain ⟨b', e, ha⟩ := execWrtsct_agree hs (fun h0 => (h h0).1 hw) he
    refine ⟨b', e, fun h0 => ⟨fun _ => ha h0, fun ho => absurd ho ?_⟩⟩
    rw [hc]
    rcases exec_opc (by simp [Instr.phase]) he with e | e <;> rw [e]
    · exact hw ▸ writeKey_ne_readKey hp (wrtsct_mem_writeKeys _) hrd
    · exact (nop_not_armed hp).2.2.2
  · by_cases hr : s.opc = s.cfg.op.rdsect
    · have hnot : ¬ (s.opc = s.cfg.op.seltrk ∨ s.opc = s.cfg.op.wrtsct) :=
        fun ho => ho.elim (hr ▸ (writeKey_ne_readKey hp (seltrk_mem_writeKeys _) hrd).symm) hw
      rw [hr, decodeWrite_readKey hp hrd] at he ⊢
      exact exec_agree_of_notWriter (by simp [Field.Writer]) he
        (agrees_of_nop (hc ▸ hp) (by rw [hc, execEwNone_opc hs hnot he]))
    · exact exec_agree_of_noTransfer hp hw hr (by simp [hph]) (fun h => hw (hwr h)) he

/-- An Execute-Read from two buffers that agree on the bytes in use (10_state.md R23). -/
theorem execRead_agree {t : State} (hp : s.cfg.Wf) (hs : s.NotStuck) (h : s.agreesOnLiveBytes b)
    (he : exec (decodeRead s.cfg s.opc) s = .next t) :
    ∃ b', exec (decodeRead s.cfg s.opc) (s.withBuf b) = .next (t.withBuf b') ∧ t.agreesOnLiveBytes b' := by
  have hc : t.cfg = s.cfg := exec_keeps (f := .cfg) he id
  have hwk := wrtsct_mem_writeKeys s.cfg.op
  obtain ⟨hph, hwr⟩ := decodeRead_entry s.cfg s.opc
  by_cases hr : s.opc = s.cfg.op.rdsect
  · rw [hr, decodeRead_rdsect hp] at he ⊢
    obtain ⟨b', e, ha⟩ := execRdsect_agree hs (fun hn h0 => (h h0).2 hr hn) he
    refine ⟨b', e, fun h0 => ⟨fun ho => absurd ho ?_, fun _ hn => ha hn h0⟩⟩
    rw [hc]
    rcases exec_opc (by simp [Instr.phase]) he with e | e <;> rw [e]
    · exact hr ▸ (writeKey_ne_readKey hp hwk (rdsect_mem_readKeys _)).symm
    · exact (nop_not_armed hp).2.1
  · by_cases hw : s.opc = s.cfg.op.wrtsct
    · have hnot : ¬ (s.opc = s.cfg.op.datetime ∨ s.opc = s.cfg.op.rdsect) :=
        fun ho => ho.elim (hw ▸ writeKey_ne_readKey hp hwk (datetime_mem_readKeys _)) hr
      rw [hw, decodeRead_writeKey hp hwk] at he ⊢
      exact exec_agree_of_notWriter (by simp [Field.Writer]) he
        (agrees_of_nop (hc ▸ hp) (by rw [hc, execErNone_opc hs hnot he]))
    · exact exec_agree_of_noTransfer hp hw hr (by simp [hph]) (fun h => hr (hwr h)) he

/-- A transaction that keeps the opcode, the counter, the error register and the buffer, from two buffers. -/
theorem exec_agree_of_keeps {i : Instr} {t : State} (h : s.agreesOnLiveBytes b)
    (hi : ∀ f ∈ transferFields, ¬ f.Writer i) (he : exec i s = .next t) :
    ∃ b', exec i (s.withBuf b) = .next (t.withBuf b') ∧ t.agreesOnLiveBytes b' :=
  exec_agree_of_notWriter (hi .buf (by simp)) he
    (agrees_of_kept h (exec_keeps (f := .opc) he (hi .opc (by simp))) (exec_keeps (f := .cnt) he (hi .cnt (by simp)))
      (exec_keeps (f := .err) he (hi .err (by simp))) (exec_keeps (f := .buf) he (hi .buf (by simp)))
      (exec_keeps (f := .cfg) he id))

/-- The pending transaction from two buffers that agree on the bytes in use (10_state.md R23): the same outcome, and
agreement on the bytes in use after it. -/
theorem execPending_agree {t : State} (hp : s.cfg.Wf) (h : s.agreesOnLiveBytes b)
    (he : exec (decodeWord s.cfg (sampleWord s)) s = .next t) :
    ∃ b', exec (decodeWord s.cfg (sampleWord s)) (s.withBuf b) = .next (t.withBuf b') ∧
      t.agreesOnLiveBytes b' := by
  by_cases hs : s.env.liveness = .stalled
  · cases he.symm.trans (exec_of_stuck hs _)
    exact ⟨b, exec_of_stuck (s := s.withBuf b) hs _, h⟩
  rcases decode_sample_cases s with ⟨d, e⟩ | e | e | ⟨d, e⟩ | e <;> rw [e] at he ⊢
  · refine exec_agree_of_notWriter (by simp [Field.Writer]) he (agrees_of_cnt ?_)
    cases he
    rw [andThen_of_notStuck hs]
    rfl
  · exact exec_agree_of_keeps h (by simp [Field.Writer, Instr.phase]) he
  · exact exec_agree_of_keeps h (by simp [Field.Writer, Instr.phase]) he
  · exact execWrite_agree hp hs h he
  · exact execRead_agree hp hs h he

theorem handle_agree {u : State} (hp : s.cfg.Wf) (h : s.agreesOnLiveBytes b) (hu : handle s = .next u) :
    ∃ b', handle (s.withBuf b) = .next (u.withBuf b') ∧ u.agreesOnLiveBytes b' := by
  by_cases hw : s.lines.wait = true
  · obtain ⟨b', e, ha⟩ := execPending_agree hp h ((if_pos hw).symm.trans hu)
    exact ⟨b', (if_pos hw).trans e, ha⟩
  · cases (if_neg hw).symm.trans hu
    exact ⟨b, if_neg hw, h⟩

end

/-- Settles O54: the Host's turn and the end of the pass do not see the buffer, and the transaction between them keeps
the agreement on the bytes in use. -/
theorem unfilledBufferBytesAreUnobservable : Obligations.UnfilledBufferBytesAreUnobservable := by
  intro s b hp h
  obtain ⟨l, m, hT⟩ := hostTurn_eq s
  have hp' : (hostTurn s).cfg.Wf := by rw [hT]; exact hp
  have h' : (hostTurn s).agreesOnLiveBytes b := by rw [hT]; exact h
  obtain ⟨u, hu⟩ := handle_answers (hostTurn s)
  obtain ⟨b', hu', ha⟩ := handle_agree hp' h' hu
  obtain ⟨ho, hn, he, hb, hc⟩ := endPass_transfer u
  have hs : step { s with buf := b } = .next ((endPass u).withBuf b') := step_recast hu'
  rw [hs, step_of_handle hu]
  exact ⟨b', rfl, agrees_of_kept ha ho hn he hb hc⟩

end Sys2Proof.Machine
end

section
/-! Proofs of the statements of 20_memory.md, first part: the tick after a transaction (20_memory.md R49), the block of a
disk address (R47), and the BlockStore's calls (R35 to R42). -/

namespace Sys2Proof.Machine

/-- Settles O13: the four outcomes of `endPass_cases`; only a due tick emits its event and writes the tick's three
fields. -/
theorem tickTouchesOnlyItsFields : Obligations.TickTouchesOnlyItsFields := by
  intro s
  refine ⟨fun h => endPass_of_stuck (not_not.1 h), fun hs => ?_⟩
  rcases endPass_cases s with ⟨h, _⟩ | ⟨_, _, e⟩ | ⟨_, _, _, e⟩ | ⟨_, _, now, f, _, _, e⟩
  · exact absurd h hs
  · exact ⟨s.irqTick, s.intOut, s.lastTick, s.env.clock, s.env.timeIn, s.env.liveness, [], .inl rfl, by simp [e]⟩
  · exact ⟨s.irqTick, s.intOut, s.lastTick, s.env.clock, s.env.timeIn, s.env.liveness.afterCall, [], .inl rfl,
      by simp [e]⟩
  · by_cases hd : tickDue now s.lastTick s.tickIv = true
    · rw [if_pos hd] at e
      exact ⟨true, true, now, now, f, s.env.liveness.afterCall, [.int true], .inr rfl, e⟩
    · rw [if_neg hd] at e
      exact ⟨s.irqTick, s.intOut, s.lastTick, now, f, s.env.liveness.afterCall, [], .inl rfl, by simp [e]⟩

/-- Settles O31: in range the block is 32 t + s, from which division by 32 gives back the track and the sector. -/
theorem blockTranslationIsOneToOne : Obligations.BlockTranslationIsOneToOne := by
  constructor
  · intro t s ht hs
    rw [blockIndex_eq hs]
    exact ⟨rfl, by omega⟩
  · intro t t' s s' _ hs _ hs' h
    rw [blockIndex_eq hs, blockIndex_eq hs'] at h
    exact ⟨BitVec.eq_of_toNat_eq (by omega), BitVec.eq_of_toNat_eq (by omega)⟩

/-- Settles O56: a code is one of seven by its type, the oracle's bounds are those of `StoreRequest.bound`, and each
of its calls leaves the state `OracleStore.after`, with the answer of `OracleStore.answer`. -/
theorem storageAnswersAreBounded : Obligations.StorageAnswersAreBounded := by
  constructor
  · intro b n v name
    exact ⟨b.length_read_le n, b.count_write_le v, Fin.is_le _, Fin.is_le _, Fin.is_le _, Fin.is_le _,
      Fin.is_le _⟩
  · intro o name block n v
    exact ⟨⟨o.answer (.open name), _, rfl⟩, ⟨o.answer (.seek block), _, rfl⟩, ⟨o.answer (.read n), _, rfl⟩,
      ⟨o.answer (.write v), _, rfl⟩, ⟨o.answer .finalize, _, rfl⟩⟩

section
/-! What each call of the reference BlockStore answers and leaves (20_memory.md R42). -/

variable {r : RefStore} {name : FileName} {f : DiskFile}

theorem RefStore.file_isSome_iff : (r.file name).isSome = true ↔ ∃ f ∈ r.files, f.name = name := by
  simp [RefStore.file]

theorem RefStore.open_of_listed (h : ∃ f ∈ r.files, f.name = name) :
    r.open name = (0, { r with cur := some name, pos := 0 }) := if_pos (RefStore.file_isSome_iff.2 h)

theorem RefStore.open_of_unlisted (h : ∀ f ∈ r.files, f.name ≠ name) :
    r.open name = (failureCode r.cNoFile, { r with cur := none }) :=
  if_neg fun hs => by
    obtain ⟨f, hf, hn⟩ := RefStore.file_isSome_iff.1 hs
    exact h f hf hn

/-- With no current file every call but an open fails and changes nothing (20_memory.md R42). -/
theorem RefStore.calls_of_notOpen (h : r.cur = none) (blk n : Nat) (v : List Byte) :
    r.seek blk = (failureCode r.cNotOpen, r) ∧ r.read n = ((failureCode r.cNotOpen, []), r) ∧
      r.write v = ((failureCode r.cNotOpen, 0), r) ∧ r.finalize = failureCode r.cNotOpen := by
  simp [RefStore.seek, RefStore.read, RefStore.write, RefStore.finalize, h]

theorem RefStore.seek_of_open (hc : r.cur = some name) (hf : r.file name = some f) (blk : Nat) :
    r.seek blk = (0, { r with pos := min (blk * 512) f.length }) := by
  simp [RefStore.seek, hc, (RefStore.cur_eq hc hf).1]

theorem RefStore.read_of_open (hc : r.cur = some name) (hf : r.file name = some f) (n : Nat) :
    r.read n =
      ((0, f.image.readBytes r.pos (min n (f.length - r.pos))),
        { r with pos := r.pos + min n (f.length - r.pos) }) := by
  simp [RefStore.read, hc, RefStore.cur_eq hc hf]

/-- A write changes the files and the position, and no other field (20_memory.md R42). -/
theorem RefStore.write_of_open (hc : r.cur = some name) (hf : r.file name = some f) (v : List Byte) :
    r.write v =
      ((0, min v.length (f.length - r.pos)),
        { r with files := (r.write v).2.files, pos := r.pos + min v.length (f.length - r.pos) }) := by
  simp [RefStore.write, hc, RefStore.cur_eq hc hf]

theorem RefStore.finalize_of_open (hc : r.cur = some name) : r.finalize = 0 := by
  simp [RefStore.finalize, hc]

theorem BlockStore.fileByte_of_file (hf : r.file name = some f) {a : Nat} (ha : a < f.length) :
    (BlockStore.reference r).fileByte name a = some (f.image.read a) := by
  simp [BlockStore.fileByte, hf, ha]

/-- The bytes a read gives are the file's, from the position on (20_memory.md R42). -/
theorem RefStore.getElem?_readBytes (hf : r.file name = some f) {n k : Nat} (hk : k < min n (f.length - r.pos)) :
    (f.image.readBytes r.pos (min n (f.length - r.pos)))[k]? =
      (BlockStore.reference r).fileByte name (r.pos + k) := by
  rw [BlockStore.fileByte_of_file hf (by omega), List.getElem?_eq_getElem (by simpa using hk),
    Memory.getElem_readBytes]

/-- The bytes of every file after a write, with the file written named (20_memory.md R42). -/
theorem BlockStore.fileByte_write_of_open (hr : r.wf = true) (hc : r.cur = some name) (hf : r.file name = some f)
    (v : List Byte) (m : FileName) (a : Nat) :
    (BlockStore.reference (r.write v).2).fileByte m a =
      if m = name ∧ r.pos ≤ a ∧ a < r.pos + min v.length (f.length - r.pos) then v[a - r.pos]?
      else (BlockStore.reference r).fileByte m a := by
  have hcond : (r.cur = some m ∧ r.pos ≤ a ∧ a < r.pos + v.length ∧ a < r.curLength) ↔
      (m = name ∧ r.pos ≤ a ∧ a < r.pos + min v.length (f.length - r.pos)) := by
    rw [hc, (RefStore.cur_eq hc hf).1, Option.some.injEq, eq_comm (a := name)]
    exact and_congr_right fun _ => by omega
  rw [BlockStore.fileByte_write hr, if_congr hcond rfl rfl]
  refine ite_congr rfl (fun ⟨_, hpos, hlt⟩ => ?_) fun _ => rfl
  have hk : a - r.pos < v.length := by omega
  rw [List.getD_eq_getElem _ _ hk, List.getElem?_eq_getElem hk]

end

/-- Settles O57: each clause is the call's own lemma about the reference BlockStore. -/
theorem referenceStoreCallsDoAsTheSpecSays : Obligations.ReferenceStoreCallsDoAsTheSpecSays := by
  intro r name blk n v
  refine ⟨fun h => ?_, fun h => ?_, fun h => ?_, fun f hc hf => ⟨?_, ?_, fun hr => ?_, ?_⟩⟩
  · rw [BlockStore.open, RefStore.open_of_listed h]
  · rw [BlockStore.open, RefStore.open_of_unlisted h]
    rfl
  · obtain ⟨hseek, hread, hwrite, hfin⟩ := RefStore.calls_of_notOpen h blk n v
    rw [BlockStore.seek, BlockStore.read, BlockStore.write, BlockStore.finalize, hseek, hread, hwrite, hfin]
    exact ⟨rfl, rfl, rfl, rfl⟩
  · rw [BlockStore.seek, RefStore.seek_of_open hc hf]
  · exact ⟨_, by rw [BlockStore.read, RefStore.read_of_open hc hf], Memory.length_readBytes _ _ _,
      fun k hk => RefStore.getElem?_readBytes hf hk⟩
  · exact ⟨(r.write v).2.files,
      congrArg (fun w => (w.1, BlockStore.reference w.2)) (RefStore.write_of_open hc hf v),
      fun m a => (BlockStore.fileByte_of_files (r := (r.write v).2) rfl m a).trans
        (BlockStore.fileByte_write_of_open hr hc hf v m a)⟩
  · rw [BlockStore.finalize, RefStore.finalize_of_open hc]

end Sys2Proof.Machine
end

section
/-! Proofs of the statements of 20_memory.md, second part: what a transaction does to storage (20_memory.md R32, R42).
Storage changes by BlockStore calls only, so what every call keeps every transaction keeps; said once, for any property
of the BlockStore. -/

namespace Sys2Proof.Machine

/-- A property of the BlockStore that every call but a write keeps (20_memory.md R36 to R38, R40). -/
structure KeptByCalls (P : BlockStore → Prop) : Prop where
  afterOpen : ∀ {b : BlockStore} (name : FileName), P b → P (b.open name).2
  afterSeek : ∀ {b : BlockStore} (block : Nat), P b → P (b.seek block).2
  afterRead : ∀ {b : BlockStore} (n : Nat), P b → P (b.read n).2
  afterFinalize : ∀ {b : BlockStore}, P b → P b.finalize.2

/-- A property of the BlockStore that a write keeps (20_memory.md R39). -/
def KeptByWrites (P : BlockStore → Prop) : Prop := ∀ {b : BlockStore} (bytes : List Byte), P b → P (b.write bytes).2

/-- A call of another collaborator leaves storage. -/
theorem ask_bs {α : Type} (s : State) (a : α) {k : Env → Env} (hk : ∀ e, (k e).bs = e.bs) :
    (s.ask a k).2.env.bs = s.env.bs := by
  rcases ask_cases s a k with ⟨_, e⟩ | ⟨_, e⟩ <;> rw [e]
  · rfl
  · exact hk _

theorem serialPoll_bs (s : State) : (serialPoll s).2.env.bs = s.env.bs := ask_bs _ _ fun _ => rfl

theorem readGpio_bs (r : GpioReg) (s : State) : (readGpio r s).2.env.bs = s.env.bs := by
  unfold readGpio gpioRead
  split
  · exact ask_bs _ _ fun _ => rfl
  · rfl

theorem writeGpio_bs (r : GpioReg) (d : Byte) (s : State) : (writeGpio r d s).env.bs = s.env.bs := by
  unfold writeGpio
  split <;> rfl

theorem selectBank_bs (d : Byte) (s : State) : (selectBank d s).env.bs = s.env.bs := by
  unfold selectBank
  split <;> rfl

theorem selectTrack_bs (d : Byte) (s : State) : (selectTrack d s).env.bs = s.env.bs := by
  unfold selectTrack
  split <;> rfl

theorem startDatetime_bs (s : State) : (startDatetime s).env.bs = s.env.bs := by
  unfold startDatetime rtcRefresh
  split
  · exact ask_bs _ _ fun _ => rfl
  · rfl

theorem readDatetime_bs (s : State) : (readDatetime s).2.env.bs = s.env.bs := by
  have hstart := startDatetime_bs s
  have hfield : ((startDatetime s).andThen State.call).env.bs = s.env.bs :=
    andThen_induct (P := fun t => t.env.bs = s.env.bs) hstart hstart
  simp only [readDatetime, rtcField_snd]
  split
  · exact andThen_induct (P := fun t => t.env.bs = s.env.bs) hfield hfield
  · rfl

section

variable {P : BlockStore → Prop} {s t : State}

theorem storage_andThen {f : State → State} (h : P t.env.bs) (hf : P t.env.bs → P (f t).env.bs) :
    P (t.andThen f).env.bs := andThen_induct (P := fun u => P u.env.bs) h (hf h)

theorem storage_recordCode {r : StoreCode × BlockStore} {e : Option StoreCode → Event} (h : P s.env.bs)
    (hr : P r.2) : P (recordCode (s.askStore r e)).env.bs := by
  rcases recordCode_askStore s r e with ⟨_, q⟩ | ⟨_, q⟩ <;> rw [q]
  · exact h
  · exact hr

/-- The reset after dispatch and the release leave storage as the handler left it (40_bus_engine.md R66). -/
theorem storage_runWrite {h : State → State} (he : runWrite h s = .next t) (hs : P s.env.bs)
    (hh : P (h s).env.bs) : P t.env.bs := by
  rcases runWrite_cases h s with ⟨_, e⟩ | ⟨_, _, e⟩ | ⟨_, _, e⟩ <;> cases he.symm.trans e
  · exact hs
  · exact hh
  · exact hh

theorem storage_runRead {h : State → Byte × State} (he : runRead h s = .next t) (hs : P s.env.bs)
    (hh : P (h s).2.env.bs) : P t.env.bs := by
  rcases runRead_cases h s with ⟨_, e⟩ | ⟨_, _, e⟩ | ⟨_, _, e⟩ <;> cases he.symm.trans e
  · exact hs
  · exact hh
  · exact hh

theorem storage_selectDisk (hP : KeptByCalls P) (d : Byte) (hs : P s.env.bs) : P (selectDisk d s).env.bs := by
  unfold selectDisk
  split
  · exact storage_recordCode (s := { s with dsk := d }) hs (hP.afterOpen _ hs)
  · exact hs

theorem storage_transferStart (hP : KeptByCalls P) (hs : P s.env.bs) : P (transferStart s).env.bs := by
  unfold transferStart
  split
  · split
    · exact storage_recordCode hs (hP.afterSeek _ hs)
    · exact hs
  · exact hs

theorem storage_writeByte (hW : KeptByWrites P) (d : Byte) (hs : P s.env.bs) : P (writeByte d s).env.bs := by
  rcases writeByte_cases d s with ⟨_, e⟩ | ⟨_, _, e⟩ | ⟨_, _, e⟩ <;> rw [e]
  · exact hs
  · exact hs
  · rcases flushChunk_cases { s with buf := s.buf.set (chunkPos s.cnt).val d } with ⟨_, e⟩ | ⟨_, e⟩ <;> rw [e]
    · exact hs
    · exact hW _ hs

theorem storage_finalizeSector (hP : KeptByCalls P) (hs : P s.env.bs) : P (finalizeSector s).env.bs := by
  unfold finalizeSector
  split
  · exact storage_recordCode hs (hP.afterFinalize hs)
  · exact hs

theorem storage_writeSector (hP : KeptByCalls P) (hW : KeptByWrites P) (d : Byte) (hs : P s.env.bs) :
    P (writeSector d s).env.bs := by
  have h := storage_andThen (storage_transferStart hP hs) (storage_writeByte hW d)
  unfold writeSector
  split
  · exact storage_andThen (storage_andThen h (storage_finalizeSector hP)) id
  · exact storage_andThen h id

theorem storage_readChunk (hP : KeptByCalls P) (hs : P s.env.bs) : P (readChunk s).env.bs := by
  rcases readChunk_cases s with ⟨_, e⟩ | ⟨_, _, e⟩ <;> rw [e]
  · exact hs
  · rcases fillChunk_cases s with ⟨_, e⟩ | ⟨_, e⟩ <;> rw [e]
    · exact hs
    · exact hP.afterRead _ hs

theorem storage_readSector (hP : KeptByCalls P) (hs : P s.env.bs) : P (readSector s).2.env.bs := by
  have h := storage_andThen (storage_transferStart hP hs) (storage_readChunk hP)
  unfold readSector
  split
  · exact storage_andThen (f := fun t => countExchange (endSequence t)) h id
  · exact storage_andThen h id

/-- What every BlockStore call keeps every transaction keeps; of the writes only WRTSCT needs to be asked (20_memory.md
R32, R36 to R40). -/
theorem exec_storage {i : Instr} (hP : KeptByCalls P) (hW : ∀ d, i = .wrtsct d → KeptByWrites P)
    (he : exec i s = .next t) (hs : P s.env.bs) : P t.env.bs := by
  cases i with
  | store d => cases he; exact storage_andThen hs id
  | serrx =>
    cases he
    refine storage_andThen hs fun _ => storage_andThen ?_ fun h => ?_
    · rwa [serialPoll_bs]
    · rwa [releaseRead_eq, readReleased_env]
  | intack => cases he; exact storage_andThen hs id
  | led d => exact storage_runWrite he hs hs
  | sertx d => exact storage_runWrite he hs hs
  | gpiowr r d => exact storage_runWrite he hs (by rwa [writeGpio_bs])
  | bank d => exact storage_runWrite he hs (by rwa [selectBank_bs])
  | irqen d => exact storage_runWrite he hs hs
  | tick d => exact storage_runWrite he hs hs
  | spkr d => exact storage_runWrite he hs hs
  | seldsk d => exact storage_runWrite he hs (storage_selectDisk hP d hs)
  | seltrk d => exact storage_runWrite he hs (by rwa [selectTrack_bs])
  | selsct d => exact storage_runWrite he hs hs
  | wrtsct d => exact storage_runWrite he hs (storage_writeSector hP (hW d rfl) d hs)
  | gpiord r => exact storage_runRead he hs (by rwa [readGpio_bs])
  | status => exact storage_runRead he hs hs
  | datetime => exact storage_runRead he hs (by rwa [readDatetime_bs])
  | errdisk => exact storage_runRead he hs hs
  | rdsect => exact storage_runRead he hs (storage_readSector hP hs)
  | irqstat => exact storage_runRead he hs hs
  | ewNone o d => exact storage_runWrite he hs hs
  | erNone o => exact storage_runRead he hs hs

end

/-- Byte `a` of the file of that name is `v` (20_memory.md R42). -/
def HoldsByte (name : FileName) (a : Nat) (v : Option Byte) (b : BlockStore) : Prop := b.fileByte name a = v

theorem keptByCalls_holdsByte (name : FileName) (a : Nat) (v : Option Byte) : KeptByCalls (HoldsByte name a v) where
  afterOpen {b} file h := ((b.fileByte_calls file 0 name a).1).trans h
  afterSeek {b} block h := ((b.fileByte_calls [] block name a).2.1).trans h
  afterRead {b} n h := ((b.fileByte_calls [] n name a).2.2.1).trans h
  afterFinalize {b} h := ((b.fileByte_calls [] 0 name a).2.2.2).trans h

/-- Settles O58: no call but a write changes a byte of a file, and only WRTSCT writes. -/
theorem onlySectorWritesChangeFiles : Obligations.OnlySectorWritesChangeFiles := fun _ _ _ hi he name a =>
  exec_storage (keptByCalls_holdsByte name a _) (fun d hd => absurd hd (hi d)) he rfl

/-- The BlockStore is a reference BlockStore with the names and lengths of the files of `r`, in canonical form if `r`
is (20_memory.md R42). -/
def SameFilesAs (r : RefStore) (b : BlockStore) : Prop :=
  ∃ r' : RefStore, b = .reference r' ∧
    r'.files.map (fun f => (f.name, f.length)) = r.files.map (fun f => (f.name, f.length)) ∧
    (r.wf = true → r'.wf = true)

theorem RefStore.names_write (r : RefStore) (v : List Byte) :
    (r.write v).2.files.map (fun f => (f.name, f.length)) = r.files.map (fun f => (f.name, f.length)) := by
  unfold RefStore.write
  split
  · rfl
  · exact RefStore.names_setImage _ _ _

/-- A call that keeps the files and the canonical form keeps the names and lengths. -/
theorem SameFilesAs.of_files {r r' r'' : RefStore}
    (hn : r'.files.map (fun f => (f.name, f.length)) = r.files.map (fun f => (f.name, f.length)))
    (hw : r.wf = true → r'.wf = true) (hf : r''.files = r'.files) (hw' : r'.wf = true → r''.wf = true) :
    SameFilesAs r (.reference r'') := ⟨r'', rfl, by rw [hf, hn], fun h => hw' (hw h)⟩

theorem keptByCalls_sameFilesAs (r : RefStore) : KeptByCalls (SameFilesAs r) where
  afterOpen name := by
    rintro ⟨r', rfl, hn, hw⟩
    exact .of_files hn hw (r'.open_files name) (RefStore.wf_open · name)
  afterSeek block := by
    rintro ⟨r', rfl, hn, hw⟩
    exact .of_files hn hw (r'.seek_files block) (RefStore.wf_seek · block)
  afterRead n := by
    rintro ⟨r', rfl, hn, hw⟩
    exact .of_files hn hw (r'.read_files n) (RefStore.wf_read · n)
  afterFinalize {b} := by
    rintro ⟨r', rfl, hn, hw⟩
    exact .of_files hn hw rfl id

theorem keptByWrites_sameFilesAs (r : RefStore) : KeptByWrites (SameFilesAs r) := by
  rintro _ v ⟨r', rfl, hn, hw⟩
  exact ⟨(r'.write v).2, rfl, (r'.names_write v).trans hn, fun h => RefStore.wf_write (hw h) v⟩

/-- Settles O60: every BlockStore call keeps the names, the lengths and the canonical form, a write too. -/
theorem filesKeepNamesAndLengths : Obligations.FilesKeepNamesAndLengths := fun _ _ _ r hs he =>
  exec_storage (keptByCalls_sameFilesAs r) (fun _ _ => keptByWrites_sameFilesAs r) he ⟨r, hs, rfl, id⟩

end Sys2Proof.Machine
end

section
/-! Proofs of the statements of 30_encoding.md, first part: the encoder and the decoder (30_encoding.md R54, R58), and
the words the spec writes out (R60). -/

namespace Sys2Proof

theorem decodeWrite_of_not_key {p : Params} {o : Byte} (h : o ∉ p.op.writeKeys) (d : Byte) :
    decodeWrite p o d = .ewNone o d := by
  have hd : dispatchEntry (writeTable p.op) o = none := dispatchEntry_none_iff.2 (by rwa [writeTable_keys])
  rw [decodeWrite, hd]

theorem decodeRead_of_not_key {p : Params} {o : Byte} (h : o ∉ p.op.readKeys) : decodeRead p o = .erNone o := by
  have hd : dispatchEntry (readTable p.op) o = none := dispatchEntry_none_iff.2 (by rwa [readTable_keys])
  rw [decodeRead, hd, Option.getD_none]

/-- An entry of WRITE_DISPATCH comes back from the Execute-Write of its key (41_dispatcher.md R74). -/
theorem decodeWord_executeWriteWord {p : Params} (hp : p.Wf) {o : Byte} {h : Byte → Instr}
    (hm : (o, h) ∈ writeTable p.op) (d : Byte) : decodeWord p (executeWriteWord o d) = h d :=
  (decodeWord_write p false o d).trans (decodeWrite_of_mem hp hm d)

/-- An entry of READ_DISPATCH comes back from the Execute-Read of its key (41_dispatcher.md R74). -/
theorem decodeWord_executeReadWord {p : Params} (hp : p.Wf) {o : Byte} {i : Instr} (hm : (o, i) ∈ readTable p.op) :
    decodeWord p (executeReadWord o) = i :=
  (decodeWord_read p o 0).trans (decodeRead_of_mem hp hm)

theorem decode_encode_gpiowr {p : Params} (hp : p.Wf) {r : GpioReg} (hr : r ∈ p.op.gpioWr.map Prod.fst) (d : Byte) :
    decodeWord p (encode p (.gpiowr r d)) = .gpiowr r d := by
  obtain ⟨o, ho, hm⟩ := gpioOpcodeOf_mem hr
  rw [encode, ho, Option.getD_some]
  exact decodeWord_executeWriteWord hp (gpiowr_mem_writeTable hm) d

theorem decode_encode_gpiord {p : Params} (hp : p.Wf) {r : GpioReg} (hr : r ∈ p.op.gpioRd.map Prod.fst) :
    decodeWord p (encode p (.gpiord r)) = .gpiord r := by
  obtain ⟨o, ho, hm⟩ := gpioOpcodeOf_mem hr
  rw [encode, ho, Option.getD_some]
  exact decodeWord_executeReadWord hp (gpiord_mem_readTable hm)

/-- Settles O3: the lines of the word select the dispatch table of the instruction, and its key the instruction's own
entry, the keys being distinct; a no-handler form has no key to find. -/
theorem decodeOfEncodeIsTheInstruction : Obligations.DecodeOfEncodeIsTheInstruction := by
  intro p i hp hi
  cases i with
  | store d => exact decodeWord_store p false 0 d
  | serrx => exact decodeWord_serrx p 0 0
  | intack => exact decodeWord_intack p false 0 0
  | led d => exact decodeWord_executeWriteWord hp (by simp [writeTable]) d
  | sertx d => exact decodeWord_executeWriteWord hp (by simp [writeTable]) d
  | gpiowr r d => exact decode_encode_gpiowr hp hi d
  | bank d => exact decodeWord_executeWriteWord hp (by simp [writeTable]) d
  | irqen d => exact decodeWord_executeWriteWord hp (by simp [writeTable]) d
  | tick d => exact decodeWord_executeWriteWord hp (by simp [writeTable]) d
  | spkr d => exact decodeWord_executeWriteWord hp (by simp [writeTable]) d
  | seldsk d => exact decodeWord_executeWriteWord hp (by simp [writeTable]) d
  | seltrk d => exact decodeWord_executeWriteWord hp (by simp [writeTable]) d
  | selsct d => exact decodeWord_executeWriteWord hp (by simp [writeTable]) d
  | wrtsct d => exact decodeWord_executeWriteWord hp (by simp [writeTable]) d
  | gpiord r => exact decode_encode_gpiord hp hi
  | status => exact decodeWord_executeReadWord hp (by simp [readTable])
  | datetime => exact decodeWord_executeReadWord hp (by simp [readTable])
  | errdisk => exact decodeWord_executeReadWord hp (by simp [readTable])
  | rdsect => exact decodeWord_executeReadWord hp (by simp [readTable])
  | irqstat => exact decodeWord_executeReadWord hp (by simp [readTable])
  | ewNone o d => exact (decodeWord_write p false o d).trans (decodeWrite_of_not_key hi d)
  | erNone o => exact (decodeWord_read p o 0).trans (decodeRead_of_not_key hi)

/-- Every entry of WRITE_DISPATCH is well formed: its register is the expander's (30_encoding.md R56). -/
theorem writeTable_wf {p : Params} {o : Byte} {h : Byte → Instr} (hm : (o, h) ∈ writeTable p.op) (d : Byte) :
    (h d).Wf p := by
  simp only [writeTable, List.mem_append, List.mem_cons, List.mem_map, Prod.mk.injEq, List.not_mem_nil,
    or_false] at hm
  rcases hm with ((⟨_, rfl⟩ | ⟨_, rfl⟩) | ⟨e, he, _, rfl⟩) | ⟨_, rfl⟩ | ⟨_, rfl⟩ | ⟨_, rfl⟩ | ⟨_, rfl⟩ | ⟨_, rfl⟩ |
    ⟨_, rfl⟩ | ⟨_, rfl⟩ | ⟨_, rfl⟩
  case inl.inr => exact List.mem_map_of_mem he
  all_goals trivial

/-- Every entry of READ_DISPATCH is well formed: its register is the expander's (30_encoding.md R56). -/
theorem readTable_wf {p : Params} {o : Byte} {i : Instr} (hm : (o, i) ∈ readTable p.op) : i.Wf p := by
  simp only [readTable, List.mem_append, List.mem_cons, List.mem_map, Prod.mk.injEq, List.not_mem_nil,
    or_false] at hm
  rcases hm with ⟨e, he, _, rfl⟩ | ⟨_, rfl⟩ | ⟨_, rfl⟩ | ⟨_, rfl⟩ | ⟨_, rfl⟩ | ⟨_, rfl⟩
  case inl => exact List.mem_map_of_mem he
  all_goals trivial

theorem decodeWrite_wf (p : Params) (o d : Byte) : (decodeWrite p o d).Wf p := by
  rcases decodeWrite_cases p o d with ⟨h, hm, e⟩ | ⟨ho, e⟩ <;> rw [e]
  · exact writeTable_wf hm d
  · exact ho

theorem decodeRead_wf (p : Params) (o : Byte) : (decodeRead p o).Wf p := by
  rcases decodeRead_cases p o with hm | ⟨ho, e⟩
  · exact readTable_wf hm
  · rw [e]
    exact ho

/-- Every decode word is one of the five kinds of transaction, with the fields it ignores free (40_bus_engine.md R64,
30_encoding.md R53). -/
theorem packDW_cases {P : DW → Prop} (store : ∀ rd o d, P (packDW true rd true o d))
    (write : ∀ rd o d, P (packDW true rd false o d)) (serrx : ∀ o d, P (packDW false true true o d))
    (read : ∀ o d, P (packDW false true false o d)) (intack : ∀ a o d, P (packDW false false a o d)) (w : DW) :
    P w := by
  rw [eq_packDW w]
  generalize w.getLsbD 18 = wr, w.getLsbD 17 = rd, w.getLsbD 16 = a, opcField w = o, dataField w = d
  match wr, rd, a with
  | true, rd, true => exact store rd o d
  | true, rd, false => exact write rd o d
  | false, true, true => exact serrx o d
  | false, true, false => exact read o d
  | false, false, a => exact intack a o d

/-- Settles O6: a line-only word has no operand to check; the entries of the dispatch tables are well formed, and an
opcode without an entry has no key. -/
theorem decodedInstructionsAreWellFormed : Obligations.DecodedInstructionsAreWellFormed := by
  intro p w _
  induction w using packDW_cases with
  | store rd o d => rw [decodeWord_store]; trivial
  | write rd o d => rw [decodeWord_write]; exact decodeWrite_wf p o d
  | serrx o d => rw [decodeWord_serrx]; trivial
  | read o d => rw [decodeWord_read]; exact decodeRead_wf p o
  | intack a o d => rw [decodeWord_intack]; trivial

/-- Settles O8: by evaluation, nine words decode and the tenth, wider than 19 bits, is refused. -/
theorem writtenOutWordsDecode : Obligations.WrittenOutWordsDecode := by
  unfold Obligations.WrittenOutWordsDecode
  decide

end Sys2Proof

namespace Sys2Proof.Machine

/-- A transaction word's number is its three line bits above its data byte (30_encoding.md R53). -/
theorem ofNat_lines_data (x : BitVec 3) (b : Byte) : BitVec.ofNat 11 (x.toNat * 256 + b.toNat) = x ++ b := by
  refine BitVec.eq_of_toNat_eq ?_
  rw [BitVec.toNat_append, ← Nat.shiftLeft_add_eq_or_of_lt b.isLt, Nat.shiftLeft_eq, BitVec.toNat_ofNat]
  exact Nat.mod_eq_of_lt (by omega)

theorem linesOf_append (x : BitVec 3) (b : Byte) :
    linesOf (x ++ b) = ⟨true, x.getLsbD 2, x.getLsbD 1, x.getLsbD 0, b⟩ := by
  have line (k : Nat) : (x ++ b).getLsbD (8 + k) = x.getLsbD k := by
    rw [BitVec.getLsbD_append, if_neg (by omega), Nat.add_sub_cancel_left]
  have data : (x ++ b).extractLsb' 0 8 = b := by
    refine BitVec.eq_of_getLsbD_eq fun i hi => ?_
    rw [BitVec.getLsbD_extractLsb', BitVec.getLsbD_append]
    simp [hi]
  rw [linesOf, Lines.mk.injEq]
  exact ⟨rfl, line 2, line 1, line 0, data⟩

/-- The engine decodes a transaction word by its three line bits, with the stored opcode and the word's data byte
(30_encoding.md R53, R54). -/
theorem sampleWord_linesOf (s : State) (x : BitVec 3) (b : Byte) :
    sampleWord { s with lines := linesOf (x ++ b) } = packDW (x.getLsbD 2) (x.getLsbD 1) (x.getLsbD 0) s.opc b := by
  rw [linesOf_append]
  rfl

/-- Settles O9: each of the words is three line bits above a data byte, and the engine decodes it by those. -/
theorem hostNotationDecodes : Obligations.HostNotationDecodes := by
  intro p s b
  have hst : BitVec.ofNat 11 (0x500 + b.toNat) = 5#3 ++ b := ofNat_lines_data 5 b
  have hew : BitVec.ofNat 11 (0x400 + b.toNat) = 4#3 ++ b := ofNat_lines_data 4 b
  have sampled := sampleWord_linesOf s
  refine ⟨?_, ?_, rfl, rfl, rfl, ?_, ?_, ?_, ?_, ?_, ?_⟩
  · rw [hostST, BitVec.ofNat_add, BitVec.ofNat_toNat]; rfl
  · rw [hostEW, BitVec.ofNat_add, BitVec.ofNat_toNat]; rfl
  · rw [hst, sampled]; exact decodeWord_store p false s.opc b
  · rw [hew, sampled]; exact decodeWord_write p false s.opc b
  · exact (congrArg (decodeWord p) (sampled 2 0)).trans (decodeWord_read p s.opc 0)
  · exact (congrArg (decodeWord p) (sampled 3 0)).trans (decodeWord_serrx p s.opc 0)
  · exact (congrArg (decodeWord p) (sampled 0 0)).trans (decodeWord_intack p false s.opc 0)
  · exact (congrArg (decodeWord p) (sampled 1 0)).trans (decodeWord_intack p true s.opc 0)

end Sys2Proof.Machine
end

section
/-! Proofs of the statements of 30_encoding.md, second part: the opcode table (30_encoding.md R54). Its handler rows are
the three rows that look at the lines alone and one row per entry of the two dispatch tables; what a row matches is
then a matter of the lines and the entry's key. -/

namespace Sys2Proof

/-- The row of an entry of WRITE_DISPATCH, named after what the entry makes of the payload `d`. -/
def rowOfWriteEntry (d : Byte) (e : Byte × (Byte → Instr)) : OpcodeRow := writeRow (e.2 d).mnemonic e.1

/-- The row of an entry of READ_DISPATCH. -/
def rowOfReadEntry (e : Byte × Instr) : OpcodeRow := readRow e.2.mnemonic e.1

/-- The row of STORE: WR and AD0 asserted (opcode_table.json). -/
def storeRow : OpcodeRow := { mnemonic := "STORE", mask := 0x50000, pattern := 0x50000 }

/-- The row of SERRX: RD and AD0 asserted, WR not (opcode_table.json). -/
def serrxRow : OpcodeRow := { mnemonic := "SERRX", mask := 0x70000, pattern := 0x30000 }

/-- The row of INTACK: neither WR nor RD asserted (opcode_table.json). -/
def intackRow : OpcodeRow := { mnemonic := "INTACK", mask := 0x60000, pattern := 0x00000 }

/-- The no-handler row of the write direction (opcode_table.json). -/
def ewNoneRow : OpcodeRow := { mnemonic := "EW_NONE", mask := 0x50000, pattern := 0x40000 }

/-- The no-handler row of the read direction (opcode_table.json). -/
def erNoneRow : OpcodeRow := { mnemonic := "ER_NONE", mask := 0x70000, pattern := 0x20000 }

theorem handlerRows_eq (p : Params) (d : Byte) :
    handlerRows p =
      [storeRow, serrxRow, intackRow] ++ (writeTable p.op).map (rowOfWriteEntry d) ++
        (readTable p.op).map rowOfReadEntry := by
  simp [handlerRows, storeRow, serrxRow, intackRow, writeTable, readTable, rowOfWriteEntry, rowOfReadEntry,
    Instr.mnemonic, Function.comp_def]

theorem defaultRows_eq : defaultRows = [ewNoneRow, erNoneRow] := rfl

section

variable (wr rd a : Bool) (o d : Byte)

@[simp] theorem rowMatches_storeRow : rowMatches (packDW wr rd a o d) storeRow = (wr && a) :=
  (rowMatches_lines wr rd a true false true true false true o d "STORE").trans (by simp)

@[simp] theorem rowMatches_serrxRow : rowMatches (packDW wr rd a o d) serrxRow = (!wr && rd && a) :=
  (rowMatches_lines wr rd a true true true false true true o d "SERRX").trans (by simp)

@[simp] theorem rowMatches_intackRow : rowMatches (packDW wr rd a o d) intackRow = (!wr && !rd) :=
  (rowMatches_lines wr rd a true true false false false false o d "INTACK").trans (by simp)

@[simp] theorem rowMatches_ewNoneRow : rowMatches (packDW wr rd a o d) ewNoneRow = (wr && !a) :=
  (rowMatches_lines wr rd a true false true true false false o d "EW_NONE").trans (by simp)

@[simp] theorem rowMatches_erNoneRow : rowMatches (packDW wr rd a o d) erNoneRow = (!wr && rd && !a) :=
  (rowMatches_lines wr rd a true true true false true false o d "ER_NONE").trans (by simp)

theorem rowMatches_rowOfWriteEntry (c : Byte) (e : Byte × (Byte → Instr)) :
    rowMatches (packDW wr rd a o d) (rowOfWriteEntry c e) = (wr && !a && (e.1 == o)) :=
  (rowMatches_writeRow wr rd a o e.1 d _).trans (by rw [Bool.beq_comm])

theorem rowMatches_rowOfReadEntry (e : Byte × Instr) :
    rowMatches (packDW wr rd a o d) (rowOfReadEntry e) = (!wr && rd && !a && (e.1 == o)) :=
  (rowMatches_readRow wr rd a o e.1 d _).trans (by rw [Bool.beq_comm])

end

section
/-! The rows of a dispatch table, each matching a word if the word's lines select the table (`g`) and its opcode is the
entry's key. -/

variable {α : Type} {table : List (Byte × α)} {row : Byte × α → OpcodeRow} {w : DW} {g : Bool} {o : Byte}

theorem find_dispatchRows (h : ∀ e, rowMatches w (row e) = (g && (e.1 == o))) :
    (table.map row).find? (rowMatches w) = if g then (table.find? (·.1 == o)).map row else none := by
  rw [List.find?_map, show rowMatches w ∘ row = fun e => g && (e.1 == o) from funext h]
  cases g with
  | true => simp
  | false => simp [List.find?_eq_none.2]

theorem length_filter_dispatchRows (h : ∀ e, rowMatches w (row e) = (g && (e.1 == o))) :
    ((table.map row).filter (rowMatches w)).length = if g then (table.map Prod.fst).count o else 0 := by
  rw [List.filter_map, List.length_map, show rowMatches w ∘ row = fun e => g && (e.1 == o) from funext h]
  cases g with
  | true => simp [List.count, List.countP_eq_length_filter, List.filter_map, Function.comp_def]
  | false => simp

end

/-- What the table selects: a row of the lines, else the row of a dispatch entry, else a no-handler row. -/
theorem selectRow_packDW (p : Params) (wr rd a : Bool) (o d : Byte) :
    selectRow p (packDW wr rd a o d) =
      ([storeRow, serrxRow, intackRow].find? (rowMatches (packDW wr rd a o d))).or
        ((if wr && !a then ((writeTable p.op).find? (·.1 == o)).map (rowOfWriteEntry d) else none).or
          ((if !wr && rd && !a then ((readTable p.op).find? (·.1 == o)).map rowOfReadEntry else none).or
            ([ewNoneRow, erNoneRow].find? (rowMatches (packDW wr rd a o d))))) := by
  rw [selectRow, handlerRows_eq p d, defaultRows_eq, List.find?_append, List.find?_append, List.find?_append,
    find_dispatchRows (rowMatches_rowOfWriteEntry wr rd a o d d),
    find_dispatchRows (rowMatches_rowOfReadEntry wr rd a o d), Option.or_assoc, Option.or_assoc]

theorem selectRow_store (p : Params) (rd : Bool) (o d : Byte) :
    selectRow p (packDW true rd true o d) = some storeRow := by simp [selectRow_packDW]

theorem selectRow_serrx (p : Params) (o d : Byte) : selectRow p (packDW false true true o d) = some serrxRow := by
  simp [selectRow_packDW]

theorem selectRow_intack (p : Params) (a : Bool) (o d : Byte) :
    selectRow p (packDW false false a o d) = some intackRow := by simp [selectRow_packDW]

theorem selectRow_write (p : Params) (rd : Bool) (o d : Byte) :
    selectRow p (packDW true rd false o d) =
      some ((((writeTable p.op).find? (·.1 == o)).map (rowOfWriteEntry d)).getD ewNoneRow) := by
  simp [selectRow_packDW]

theorem selectRow_read (p : Params) (o d : Byte) :
    selectRow p (packDW false true false o d) =
      some ((((readTable p.op).find? (·.1 == o)).map rowOfReadEntry).getD erNoneRow) := by
  simp [selectRow_packDW]

/-- Settles O4: the rows of a word's kind of transaction stand for the dispatch table the decoder looks in, in its
order, and the no-handler row for the opcode it does not find. -/
theorem decoderAgreesWithOpcodeTable : Obligations.DecoderAgreesWithOpcodeTable := by
  intro p w _
  induction w using packDW_cases with
  | store rd o d => rw [decodeWord_store, selectRow_store]; rfl
  | write rd o d =>
    rw [decodeWord_write, selectRow_write, decodeWrite, dispatchEntry]
    cases (writeTable p.op).find? (·.1 == o) <;> rfl
  | serrx o d => rw [decodeWord_serrx, selectRow_serrx]; rfl
  | read o d =>
    rw [decodeWord_read, selectRow_read, decodeRead, dispatchEntry]
    cases (readTable p.op).find? (·.1 == o) <;> rfl
  | intack a o d => rw [decodeWord_intack, selectRow_intack]; rfl

/-- How many handler rows match a word: of the rows of the lines those that do, and as many entries of the dispatch
table its lines select as have its opcode for a key. -/
theorem length_filter_handlerRows (p : Params) (wr rd a : Bool) (o d : Byte) :
    ((handlerRows p).filter (rowMatches (packDW wr rd a o d))).length =
      ([storeRow, serrxRow, intackRow].filter (rowMatches (packDW wr rd a o d))).length +
        (if wr && !a then p.op.writeKeys.count o else 0) + (if !wr && rd && !a then p.op.readKeys.count o else 0) := by
  rw [handlerRows_eq p d, List.filter_append, List.filter_append, List.length_append, List.length_append,
    length_filter_dispatchRows (rowMatches_rowOfWriteEntry wr rd a o d d),
    length_filter_dispatchRows (rowMatches_rowOfReadEntry wr rd a o d), writeTable_keys, readTable_keys]

theorem writeKeys_nodup {p : Params} (hp : p.Wf) : p.op.writeKeys.Nodup := (List.nodup_append.1 hp.1).1

theorem readKeys_nodup {p : Params} (hp : p.Wf) : p.op.readKeys.Nodup := (List.nodup_append.1 hp.1).2.1

theorem count_eq_one_or_zero {l : List Byte} (h : l.Nodup) (o : Byte) : l.count o = 1 ∨ l.count o = 0 := by
  rw [h.count]
  exact ite_eq_or_eq _ _ _

/-- Settles O5: a word of the lines matches one row of the lines and no other; an Execute matches as many handler rows
as its direction has keys equal to its opcode, one or none, the keys being distinct, and one no-handler row. -/
theorem everyWordMatchesExactlyOneRow : Obligations.EveryWordMatchesExactlyOneRow := by
  intro p w hp
  rw [← List.length_eq_zero_iff, defaultRows_eq]
  induction w using packDW_cases with
  | store rd o d => exact .inl (by simp [length_filter_handlerRows])
  | write rd o d => simpa [length_filter_handlerRows] using count_eq_one_or_zero (writeKeys_nodup hp) o
  | serrx o d => exact .inl (by simp [length_filter_handlerRows])
  | read o d => simpa [length_filter_handlerRows] using count_eq_one_or_zero (readKeys_nodup hp) o
  | intack a o d => exact .inl (by simp [length_filter_handlerRows])

end Sys2Proof
end

section
/-! Proofs of the statements of 40_bus_engine.md: the lines' precedence (40_bus_engine.md R64), a pass with and without a
transaction (R62, R63), the transactions without an opcode (R65, R67, R69), the releases (R70, R71) and the trace
(R61). -/

namespace Sys2Proof.Machine

/-- Settles O19: of the three outcomes of `exec_shape`, the stuck one is set aside; the other two are a quiet handler,
whose events belong to no release, and the release of the instruction's phase. -/
theorem everyTransactionReleasesTheHostOnce : Obligations.EveryTransactionReleasesTheHostOnce := by
  intro i s t he ht
  rcases exec_shape i s with ⟨w, _, hw, e⟩ | ⟨hi, _, w, hq, _, e⟩ | ⟨hi, _, w, v, hq, _, e⟩ <;> cases he.symm.trans e
  · exact absurd hw ht
  · obtain ⟨events, htrace, hevents⟩ := hq.trace
    refine ⟨rfl, events, hevents, fun _ => ⟨hq.busReq, hq.busDir, ?_⟩, fun h => absurd h hi⟩
    exact congrArg (· ++ [Event.waitReset]) htrace
  · obtain ⟨events, htrace, hevents⟩ := hq.trace
    refine ⟨rfl, events, hevents, fun h => ?_, fun _ => ⟨rfl, rfl, ?_⟩⟩
    · rcases hi with hi | hi <;> simp [hi] at h
    · show w.trace ++ [] ++ readRelease v = _
      rw [htrace, List.append_nil]
      rfl

/-- A transaction only appends to the trace (40_bus_engine.md R61). -/
theorem exec_trace_prefix {i : Instr} {s t : State} (he : exec i s = .next t) : s.trace <+: t.trace := by
  have quiet {w : State} (hq : Quiet s w) : s.trace <+: w.trace := by
    obtain ⟨events, htrace, _⟩ := hq.trace
    exact ⟨events, htrace.symm⟩
  rcases exec_shape i s with ⟨w, hq, _, e⟩ | ⟨_, _, w, hq, _, e⟩ | ⟨_, _, w, v, hq, _, e⟩ <;> cases he.symm.trans e
  · exact quiet hq
  · exact (quiet hq).trans (List.prefix_append _ _)
  · exact (quiet hq).trans ((List.prefix_append _ _).trans (List.prefix_append _ _))

/-- The end of a pass only appends to the trace (40_bus_engine.md R61, 60_exceptions.md R109). -/
theorem endPass_trace_prefix (s : State) : s.trace <+: (endPass s).trace := by
  obtain ⟨stuck, tick⟩ := tickTouchesOnlyItsFields s
  by_cases hs : s.NotStuck
  · obtain ⟨_, _, _, _, _, _, events, _, e⟩ := tick hs
    rw [e]
    exact List.prefix_append _ _
  · rw [stuck hs]

theorem hostTurn_trace (s : State) : (hostTurn s).trace = s.trace := by
  obtain ⟨l, m, h⟩ := hostTurn_eq s
  rw [h]

/-- Settles O51: the Host's turn emits nothing, and the transaction and the end of the pass only append. -/
theorem traceOnlyGrows : Obligations.TraceOnlyGrows := by
  intro s t he
  suffices (hostTurn s).trace <+: t.trace by
    obtain ⟨events, h⟩ := this
    exact ⟨events, by rw [← h, hostTurn_trace]⟩
  rcases step_cases s with ⟨_, _, e⟩ | ⟨_, u, hu, e⟩ <;> cases he.symm.trans e
  · exact endPass_trace_prefix _
  · exact (exec_trace_prefix hu).trans (endPass_trace_prefix u)

/-- Settles O7: the five cases of the decoder on a packed word, the fields left free being those it does not read. -/
theorem linePrecedenceSelectsTransaction : Obligations.LinePrecedenceSelectsTransaction :=
  fun p o d rd a => ⟨decodeWord_store p rd o d, decodeWord_write p rd o d, decodeWord_serrx p o d,
    decodeWord_read p o d, decodeWord_intack p a o d⟩

section
/-! The Host's turn by its next move (60_exceptions.md R118), and the pass that follows. -/

variable {s : State} {rest : List HostMove}

theorem hostTurn_of_start (hw : s.lines.wait = false) {tw : TW} (hh : s.host = .start tw :: rest) :
    hostTurn s = { s with host := rest, lines := linesOf tw } := by
  simp [hostTurn, hw, hh]

theorem hostTurn_of_idle (hw : s.lines.wait = false) (hh : s.host = .idle :: rest) :
    hostTurn s = { s with host := rest } := by
  simp [hostTurn, hw, hh]

theorem hostTurn_of_noMove (hw : s.lines.wait = false) (hh : s.host = []) : hostTurn s = s := by
  simp [hostTurn, hw, hh]

/-- A pass with no transaction pending after the Host's turn is its end alone (40_bus_engine.md R62). -/
theorem step_of_noTransaction (hw : (hostTurn s).lines.wait = false) : step s = .next (endPass (hostTurn s)) :=
  step_of_handle (by simp [handle, hw])

theorem step_of_idle (hw : s.lines.wait = false) (hh : s.host = .idle :: rest) :
    step s = .next (endPass { s with host := rest }) := by
  have ht := hostTurn_of_idle hw hh
  rw [step_of_noTransaction (by rw [ht]; exact hw), ht]

theorem step_of_noMove (hw : s.lines.wait = false) (hh : s.host = []) : step s = .next (endPass s) := by
  have ht := hostTurn_of_noMove hw hh
  rw [step_of_noTransaction (by rw [ht]; exact hw), ht]

theorem endPass_of_tickDisabled (hs : s.NotStuck) (hE : s.tickEn = false) :
    endPass s = { s with env := { s.env with moment := s.env.moment + 1 } } := by
  rw [endPass, andThen_of_notStuck hs, tickCheck, if_neg (by simp [hE])]

end

/-- Settles O10: a parked Host makes no move, so that the pass is the pending transaction and its end; a Host that starts
a transaction is parked by it; after the other moves no transaction is pending. -/
theorem stepRunsTheDecodedTransaction : Obligations.StepRunsTheDecodedTransaction := by
  refine ⟨fun s hw => ?_, fun s tw rest hw hh => ?_, fun s hw =>
    ⟨fun rest hh => step_of_idle hw hh, step_of_noMove hw⟩⟩
  · obtain ⟨t, ht⟩ := exec_answers (decodeWord s.cfg (sampleWord s)) s
    have hhandle : handle (hostTurn s) = .next t := by rw [hostTurn_of_parked hw, handle, if_pos hw, ht]
    rw [step_of_handle hhandle, ← sampleWord, ht]
  · show poll (hostTurn s) = poll (hostTurn _)
    rw [hostTurn_of_start hw hh, hostTurn_of_parked rfl]
    rfl

/-- Settles O11: such a pass is its end alone, which with the tick disabled only counts the pass. -/
theorem idlePassWithTickDisabled : Obligations.IdlePassWithTickDisabled := by
  intro s hs hw hE
  refine ⟨fun rest hh => (step_of_idle hw hh).trans ?_, fun hh => (step_of_noMove hw hh).trans ?_⟩
  · exact congrArg Host.Outcome.next (endPass_of_tickDisabled hs hE)
  · exact congrArg Host.Outcome.next (endPass_of_tickDisabled hs hE)

/-- Settles O14: the decoder on a packed word, and STORE's own update with the write release. -/
theorem storeArmsTheOpcode : Obligations.StoreArmsTheOpcode := by
  refine fun s d => ⟨fun rd o => decodeWord_store s.cfg rd o d, fun hs => ?_⟩
  rw [exec, execStore, andThen_of_notStuck hs, releaseWrite_eq]

theorem serialPoll_of_returns {s : State} (h : s.call.NotStuck) :
    serialPoll s =
      (some (s.env.serialIn.next Config.serialPoll).1,
        { s with env := { s.call.env with serialIn := (s.env.serialIn.next Config.serialPoll).2 } }) :=
  ask_of_returns h _ _

/-- Settles O15: the poll returns, and only the serial feed moves on before the read release of the byte, or of 0xFF. -/
theorem serialReceiveKeepsTheSequence : Obligations.SerialReceiveKeepsTheSequence := by
  refine fun s q f hq => ⟨fun o d => decodeWord_serrx s.cfg o d, fun hs => ?_⟩
  have hpoll := serialPoll_of_returns hs
  rw [hq] at hpoll
  have hpolled : (serialPoll s).2.NotStuck := by rw [hpoll]; exact hs
  rw [exec, execSerrx, andThen_of_notStuck (notStuck_of_call hs), andThen_of_notStuck hpolled, releaseRead_eq, hpoll]
  cases q <;> rfl

/-- Settles O16: the decoder on a packed word, and the two events of INTACK, Int(0) and WaitReset. -/
theorem interruptAcknowledgeClearsTheLine : Obligations.InterruptAcknowledgeClearsTheLine := by
  refine fun s => ⟨fun a o d => decodeWord_intack s.cfg a o d, fun hs => ?_⟩
  rw [exec, execIntack, andThen_of_notStuck hs]
  simp [setInt, waitReset, State.emit, released]

end Sys2Proof.Machine
end

section
/-! Proofs of the statements of 41_dispatcher.md, first part: an exchange with no handler (41_dispatcher.md R75), and the
stored opcode after a dispatch (R76, 44_disk_transfer.md R96, 45_datetime_status_irq.md R101). -/

namespace Sys2Proof.Machine

/-- Settles O17: an opcode that is no key finds no entry, the keys of the directions are apart under legal parameters,
and a dispatch without a handler is its reset and release alone. -/
theorem noHandlerDoesNothing : Obligations.NoHandlerDoesNothing := by
  intro s o d
  refine ⟨fun h => decodeWrite_of_not_key h d, decodeRead_of_not_key, fun hp => ?_, fun hs => ⟨?_, ?_⟩⟩
  · obtain ⟨hw, hr⟩ := not_or.1 (mt List.mem_append.2 hp.2.1)
    exact ⟨hw, hr, fun ho hk => writeKey_ne_readKey hp hk ho rfl⟩
  · exact runWrite_of_notStuck (h := fun s => s) hs hs
  · exact runRead_of_notStuck (h := fun s => (0, s)) hs hs

section

variable {s t : State}

/-- An Execute-Write after which the engine is not stuck has completed (40_bus_engine.md R66). -/
theorem runWrite_completed {h : State → State} (he : runWrite h s = .next t) (ht : t.NotStuck) :
    t = released { h s with opc := opcAfterWrite (h s) } [.waitReset] := by
  rcases runWrite_cases h s with ⟨hs, e⟩ | ⟨_, hs, e⟩ | ⟨_, _, e⟩ <;> cases he.symm.trans e
  · exact absurd hs ht
  · exact absurd hs ht
  · rfl

/-- An Execute-Read after which the engine is not stuck has completed (40_bus_engine.md R68). -/
theorem runRead_completed {h : State → Byte × State} (he : runRead h s = .next t) (ht : t.NotStuck) :
    t = readReleased { (h s).2 with opc := opcAfterRead (h s).2 } (h s).1 [] := by
  rcases runRead_cases h s with ⟨hs, e⟩ | ⟨_, hs, e⟩ | ⟨_, _, e⟩ <;> cases he.symm.trans e
  · exact absurd hs ht
  · exact absurd hs ht
  · rfl

/-- What an Execute-Write other than WRTSCT leaves in the stored opcode: its handler keeps it, and the reset follows
(41_dispatcher.md R76). -/
theorem execWrite_opc {i : Instr} (hi : i.phase = .executeWrite) (hb : ¬ Field.buf.Writer i)
    (he : exec i s = .next t) (ht : t.NotStuck) : t.opc = opcAfterWrite s := by
  have kept {W : List Field} {h : State → State} (hh : ChangesOnly W s (h s)) (ho : Field.opc ∉ W)
      (hc : Field.cfg ∉ W) (he : runWrite h s = .next t) : t.opc = opcAfterWrite s := by
    obtain rfl := runWrite_completed he ht
    have hopc : (h s).opc = s.opc := hh .opc ho
    have hcfg : (h s).cfg = s.cfg := hh .cfg hc
    rw [released_opc, opcAfterWrite, hopc, hcfg, opcAfterWrite]
  cases i with
  | led d => exact kept (changesOnly_lightLed d s) (by decide) (by decide) he
  | sertx d => exact kept (changesOnly_sendSerial d s) (by decide) (by decide) he
  | gpiowr r d => exact kept (changesOnly_writeGpio r d s) (by decide) (by decide) he
  | bank d => exact kept (changesOnly_selectBank d s) (by decide) (by decide) he
  | irqen d => exact kept (changesOnly_tickEn _ s) (by decide) (by decide) he
  | tick d => exact kept (changesOnly_tickIv _ s) (by decide) (by decide) he
  | spkr d => exact kept (changesOnly_driveSpeaker d s) (by decide) (by decide) he
  | seldsk d => exact kept (changesOnly_selectDisk d s) (by decide) (by decide) he
  | seltrk d => exact kept (changesOnly_selectTrack d s) (by decide) (by decide) he
  | selsct d => exact kept (changesOnly_selectSector d s) (by decide) (by decide) he
  | wrtsct d => exact absurd (.inl ⟨d, rfl⟩) hb
  | ewNone o d => exact kept (.refl [] s) (by decide) (by decide) he
  | _ => cases hi

/-- What an Execute-Read that counts no exchange leaves in the stored opcode: its handler keeps it, and the reset follows
(41_dispatcher.md R76). -/
theorem execRead_opc {i : Instr} (hi : i.phase = .executeRead) (hn : ¬ Field.cnt.Writer i)
    (he : exec i s = .next t) (ht : t.NotStuck) : t.opc = opcAfterRead s := by
  have kept {W : List Field} {h : State → Byte × State} (hh : ChangesOnly W s (h s).2) (ho : Field.opc ∉ W)
      (hc : Field.cfg ∉ W) (he : runRead h s = .next t) : t.opc = opcAfterRead s := by
    obtain rfl := runRead_completed he ht
    have hopc : (h s).2.opc = s.opc := hh .opc ho
    have hcfg : (h s).2.cfg = s.cfg := hh .cfg hc
    rw [readReleased_opc, opcAfterRead, hopc, hcfg, opcAfterRead]
  cases i with
  | gpiord r => exact kept (changesOnly_readGpio r s) (by decide) (by decide) he
  | status => exact kept (.refl [] s) (by decide) (by decide) he
  | errdisk => exact kept (.refl [] s) (by decide) (by decide) he
  | irqstat => exact kept (changesOnly_readIrqStatus s) (by decide) (by decide) he
  | erNone o => exact kept (.refl [] s) (by decide) (by decide) he
  | datetime => simp [Field.Writer] at hn
  | rdsect => simp [Field.Writer] at hn
  | _ => cases hi

/-- One exchange of a sequence whose last is the one with `cnt = k` (44_disk_transfer.md R96, 45_datetime_status_irq.md
R101): stuck in a call it keeps the opcode and the counter, otherwise it counts, and the last writes OPC_NOP. -/
def Exchanged (k : Nat) (s t : State) : Prop :=
  (t.env.liveness = .stalled ∧ t.opc = s.opc ∧ t.cnt = s.cnt) ∨
  (t.NotStuck ∧ t.opc = (if k ≤ s.cnt.toNat then s.cfg.op.nop else s.opc) ∧
    (s.cnt.toNat ≤ k → t.cnt = s.cnt + 1))

theorem Exchanged.opc {k : Nat} (h : Exchanged k s t) (ht : t.NotStuck) :
    t.opc = if s.cnt.toNat < k then s.opc else s.cfg.op.nop := by
  rcases h with ⟨hs, _⟩ | ⟨_, ho, _⟩
  · exact absurd hs ht
  · rw [ho, ← ite_not]
    simp only [not_le]

/-- The reset after dispatch leaves an armed write opcode as its handler has left it (41_dispatcher.md R76). -/
theorem Exchanged.of_runWrite {h : State → State} {k : Nat} (hc : (h s).cfg = s.cfg)
    (ha : s.opc = s.cfg.op.seltrk ∨ s.opc = s.cfg.op.wrtsct) (hh : s.NotStuck → Exchanged k s (h s))
    (he : runWrite h s = .next t) : Exchanged k s t := by
  rcases runWrite_cases h s with ⟨hs, e⟩ | ⟨hn, _, e⟩ | ⟨hn, ht, e⟩ <;> cases he.symm.trans e
  · exact .inl ⟨hs, rfl, rfl⟩
  · exact hh hn
  · rcases hh hn with ⟨hs, _⟩ | ⟨_, ho, hcnt⟩
    · exact absurd hs ht
    · refine .inr ⟨ht, ?_, hcnt⟩
      rw [released_opc, opcAfterWrite]
      simp only [hc, ho]
      by_cases hk : k ≤ s.cnt.toNat
      · simp only [if_pos hk, ite_self]
      · simp only [if_neg hk, if_pos ha]

/-- The reset after dispatch leaves an armed read opcode as its handler has left it (41_dispatcher.md R76). -/
theorem Exchanged.of_runRead {h : State → Byte × State} {k : Nat} (hc : (h s).2.cfg = s.cfg)
    (ha : s.opc = s.cfg.op.datetime ∨ s.opc = s.cfg.op.rdsect) (hh : s.NotStuck → Exchanged k s (h s).2)
    (he : runRead h s = .next t) : Exchanged k s t := by
  rcases runRead_cases h s with ⟨hs, e⟩ | ⟨hn, _, e⟩ | ⟨hn, ht, e⟩ <;> cases he.symm.trans e
  · exact .inl ⟨hs, rfl, rfl⟩
  · exact hh hn
  · rcases hh hn with ⟨hs, _⟩ | ⟨_, ho, hcnt⟩
    · exact absurd hs ht
    · refine .inr ⟨ht, ?_, hcnt⟩
      rw [readReleased_opc, opcAfterRead]
      simp only [hc, ho]
      by_cases hk : k ≤ s.cnt.toNat
      · simp only [if_pos hk, ite_self]
      · simp only [if_neg hk, if_pos ha]

theorem execWrtsct_exchanged {d : Byte} (ho : s.opc = s.cfg.op.wrtsct) (he : exec (.wrtsct d) s = .next t) :
    Exchanged 511 s t :=
  .of_runWrite (quiet_writeSector d s).cfg (.inr ho)
    (fun _ => (writeSector_seq d s).imp_right fun ⟨hn, hopc, hcnt⟩ => ⟨hn, hopc, fun _ => hcnt⟩) he

theorem execRdsect_exchanged (ho : s.opc = s.cfg.op.rdsect) (he : exec .rdsect s = .next t) : Exchanged 511 s t :=
  .of_runRead (quiet_readSector s).cfg (.inr ho)
    (fun _ => (readSector_seq s).imp_right fun ⟨hn, hopc, hcnt⟩ => ⟨hn, hopc, fun _ => hcnt⟩) he

theorem execDatetime_exchanged (ho : s.opc = s.cfg.op.datetime) (he : exec .datetime s = .next t) :
    Exchanged 6 s t :=
  .of_runRead (quiet_readDatetime s).cfg (.inl ho)
    (fun hs => (readDatetime_seq hs).imp_right fun ⟨hn, hopc, hcnt⟩ =>
      ⟨hn, hopc, fun h => hcnt.trans (if_pos (by omega))⟩) he

/-- The entries of WRITE_DISPATCH that count exchanges are those of the armed keys (41_dispatcher.md R74, R76). -/
theorem writeTable_counts {m : OpcodeMap} {o : Byte} {h : Byte → Instr} (hm : (o, h) ∈ writeTable m) (d : Byte)
    (hc : Field.cnt.Writer (h d)) : o = m.seltrk ∨ o = m.wrtsct := by
  simp only [writeTable, List.mem_append, List.mem_cons, List.mem_map, Prod.mk.injEq, List.not_mem_nil,
    or_false] at hm
  rcases hm with ((⟨rfl, rfl⟩ | ⟨rfl, rfl⟩) | ⟨_, _, rfl, rfl⟩) | ⟨rfl, rfl⟩ | ⟨rfl, rfl⟩ | ⟨rfl, rfl⟩ | ⟨rfl, rfl⟩ |
    ⟨rfl, rfl⟩ | ⟨rfl, rfl⟩ | ⟨rfl, rfl⟩ | ⟨rfl, rfl⟩ <;> simp [Field.Writer] at hc ⊢

/-- The entries of READ_DISPATCH that count exchanges are those of the armed keys (41_dispatcher.md R74, R76). -/
theorem readTable_counts {m : OpcodeMap} {o : Byte} {i : Instr} (hm : (o, i) ∈ readTable m)
    (hc : Field.cnt.Writer i) : o = m.datetime ∨ o = m.rdsect := by
  simp only [readTable, List.mem_append, List.mem_cons, List.mem_map, Prod.mk.injEq, List.not_mem_nil,
    or_false] at hm
  rcases hm with ⟨_, _, rfl, rfl⟩ | ⟨rfl, rfl⟩ | ⟨rfl, rfl⟩ | ⟨rfl, rfl⟩ | ⟨rfl, rfl⟩ | ⟨rfl, rfl⟩ <;>
    simp [Field.Writer] at hc ⊢

variable {p : Params}

theorem decodeWrite_seltrk (hp : p.Wf) (d : Byte) : decodeWrite p p.op.seltrk d = .seltrk d :=
  decodeWrite_of_mem hp (by simp [writeTable]) d

theorem decodeRead_datetime (hp : p.Wf) : decodeRead p p.op.datetime = .datetime :=
  decodeRead_of_mem hp (by simp [readTable])

/-- The armed opcodes of one direction are apart, since they decode apart (30_encoding.md R56, 41_dispatcher.md R74). -/
theorem wrtsct_ne_seltrk (hp : p.Wf) : p.op.wrtsct ≠ p.op.seltrk := by
  intro h
  have hw := decodeWrite_wrtsct hp 0
  rw [h, decodeWrite_seltrk hp] at hw
  cases hw

theorem rdsect_ne_datetime (hp : p.Wf) : p.op.rdsect ≠ p.op.datetime := by
  intro h
  have hr := decodeRead_rdsect hp
  rw [h, decodeRead_datetime hp] at hr
  cases hr

/-- What an Execute-Write decodes to, by whether its opcode is armed for writes (41_dispatcher.md R74, R76). -/
theorem decodeWrite_armed_cases (hp : p.Wf) (o d : Byte) :
    (o = p.op.seltrk ∧ decodeWrite p o d = .seltrk d) ∨ (o = p.op.wrtsct ∧ decodeWrite p o d = .wrtsct d) ∨
    ((o ≠ p.op.seltrk ∧ o ≠ p.op.wrtsct) ∧ ¬ Field.cnt.Writer (decodeWrite p o d)) := by
  by_cases hs : o = p.op.seltrk
  · exact .inl ⟨hs, hs ▸ decodeWrite_seltrk hp d⟩
  by_cases hw : o = p.op.wrtsct
  · exact .inr (.inl ⟨hw, hw ▸ decodeWrite_wrtsct hp d⟩)
  refine .inr (.inr ⟨⟨hs, hw⟩, ?_⟩)
  rcases decodeWrite_cases p o d with ⟨h, hm, e⟩ | ⟨_, e⟩ <;> rw [e]
  · exact fun hc => (writeTable_counts hm d hc).elim hs hw
  · simp [Field.Writer]

/-- What an Execute-Read decodes to, by whether its opcode is armed for reads (41_dispatcher.md R74, R76). -/
theorem decodeRead_armed_cases (hp : p.Wf) (o : Byte) :
    (o = p.op.datetime ∧ decodeRead p o = .datetime) ∨ (o = p.op.rdsect ∧ decodeRead p o = .rdsect) ∨
    ((o ≠ p.op.datetime ∧ o ≠ p.op.rdsect) ∧ ¬ Field.cnt.Writer (decodeRead p o)) := by
  by_cases ht : o = p.op.datetime
  · exact .inl ⟨ht, ht ▸ decodeRead_datetime hp⟩
  by_cases hr : o = p.op.rdsect
  · exact .inr (.inl ⟨hr, hr ▸ decodeRead_rdsect hp⟩)
  refine .inr (.inr ⟨⟨ht, hr⟩, ?_⟩)
  rcases decodeRead_cases p o with hm | ⟨_, e⟩
  · exact fun hc => (readTable_counts hm hc).elim ht hr
  · rw [e]
    simp [Field.Writer]

end

/-- Settles O18: an armed opcode stays until the last exchange of its sequence; any other handler keeps the stored opcode,
and the reset after dispatch decides by it. -/
theorem nopResetAfterDispatch : Obligations.NopResetAfterDispatch := by
  intro s t d hp
  refine ⟨fun he ht => ?_, fun he ht => ?_⟩
  · obtain ⟨hph, hbuf⟩ := decodeWrite_entry s.cfg s.opc d
    rcases decodeWrite_armed_cases hp s.opc d with ⟨ho, e⟩ | ⟨ho, e⟩ | ⟨⟨hs, hw⟩, _⟩
    · rw [e] at he
      rw [execWrite_opc rfl (by simp [Field.Writer]) he ht, opcAfterWrite, if_pos (.inl ho), if_pos ho]
    · rw [e] at he
      rw [(execWrtsct_exchanged ho he).opc ht]
      simp [ho, wrtsct_ne_seltrk hp]
    · rw [execWrite_opc hph (fun hb => hw (hbuf hb)) he ht]
      simp [opcAfterWrite, hs, hw]
  · obtain ⟨hph, _⟩ := decodeRead_entry s.cfg s.opc
    rcases decodeRead_armed_cases hp s.opc with ⟨ho, e⟩ | ⟨ho, e⟩ | ⟨⟨hd, hr⟩, hn⟩
    · rw [e] at he
      rw [(execDatetime_exchanged ho he).opc ht]
      simp [ho, (rdsect_ne_datetime hp).symm]
    · rw [e] at he
      rw [(execRdsect_exchanged ho he).opc ht]
      simp [ho, rdsect_ne_datetime hp]
    · rw [execRead_opc hph hn he ht]
      simp [opcAfterRead, hd, hr]

end Sys2Proof.Machine
end

section
/-! Proofs of the statements of 41_dispatcher.md, second part: every step keeps the invariant (41_dispatcher.md R78). The
counter's part of it is one bound, the length of the sequence of the stored opcode; the other parts are kept one by
one. -/

namespace Sys2Proof.Machine

/-- The exchanges of the sequence an opcode owns (41_dispatcher.md R77, R78): the counter is below it while the opcode is
stored. Any other opcode bounds the counter by the 512 a finished sector sequence leaves. -/
def sequenceLength (m : OpcodeMap) (o : Byte) : Nat :=
  if o = m.seltrk then 2 else if o = m.datetime then 7 else if o = m.wrtsct ∨ o = m.rdsect then 512 else 513

/-- The counter is inside the sequence of the stored opcode (41_dispatcher.md R78). -/
def State.CntInSequence (s : State) : Prop := s.cnt.toNat < sequenceLength s.cfg.op s.opc

section

variable {p : Params} {s t : State}

theorem sequenceLength_le (m : OpcodeMap) (o : Byte) : sequenceLength m o ≤ 513 := by
  unfold sequenceLength
  split_ifs <;> decide

theorem two_le_sequenceLength (m : OpcodeMap) (o : Byte) : 2 ≤ sequenceLength m o := by
  unfold sequenceLength
  split_ifs <;> decide

theorem sequenceLength_nop (hp : p.Wf) : sequenceLength p.op p.op.nop = 513 := by
  obtain ⟨hs, hw, hd, hr⟩ := nop_not_armed hp
  simp [sequenceLength, hs, hw, hd, hr]

theorem sequenceLength_datetime (hp : p.Wf) : sequenceLength p.op p.op.datetime = 7 := by
  have hs := writeKey_ne_readKey hp (seltrk_mem_writeKeys _) (datetime_mem_readKeys _)
  simp [sequenceLength, hs.symm]

theorem sequenceLength_wrtsct (hp : p.Wf) : sequenceLength p.op p.op.wrtsct = 512 := by
  have hd := writeKey_ne_readKey hp (wrtsct_mem_writeKeys _) (datetime_mem_readKeys _)
  simp [sequenceLength, wrtsct_ne_seltrk hp, hd]

theorem sequenceLength_rdsect (hp : p.Wf) : sequenceLength p.op p.op.rdsect = 512 := by
  have hs := writeKey_ne_readKey hp (seltrk_mem_writeKeys _) (rdsect_mem_readKeys _)
  simp [sequenceLength, rdsect_ne_datetime hp, hs.symm]

/-- The invariant's five clauses on the counter are one. -/
theorem State.Inv.cntInSequence (h : s.Inv) : s.CntInSequence := by
  unfold State.CntInSequence sequenceLength
  split_ifs with hs hd hx
  · exact h.trackCnt hs
  · exact h.datetimeCnt hd
  · exact hx.elim h.writeCnt h.readCnt
  · exact Nat.lt_succ_of_le h.cntBound

theorem State.CntInSequence.clauses (hp : s.cfg.Wf) (h : s.CntInSequence) :
    s.cnt.toNat ≤ 512 ∧ (s.opc = s.cfg.op.wrtsct → s.cnt.toNat < 512) ∧
      (s.opc = s.cfg.op.rdsect → s.cnt.toNat < 512) ∧ (s.opc = s.cfg.op.datetime → s.cnt.toNat < 7) ∧
      (s.opc = s.cfg.op.seltrk → s.cnt.toNat < 2) := by
  unfold State.CntInSequence at h
  refine ⟨Nat.le_of_lt_succ (h.trans_le (sequenceLength_le _ _)), fun ho => ?_, fun ho => ?_, fun ho => ?_,
    fun ho => ?_⟩
  · rwa [ho, sequenceLength_wrtsct hp] at h
  · rwa [ho, sequenceLength_rdsect hp] at h
  · rwa [ho, sequenceLength_datetime hp] at h
  · rwa [ho, sequenceLength, if_pos rfl] at h

/-- A counter of 0 or 1 is inside every sequence. -/
theorem cntInSequence_of_lt_two (h : t.cnt.toNat < 2) : t.CntInSequence := h.trans_le (two_le_sequenceLength _ _)

/-- OPC_NOP bounds the counter by 512 (30_encoding.md R56). -/
theorem cntInSequence_of_nop (hp : t.cfg.Wf) (ho : t.opc = t.cfg.op.nop) (h : t.cnt.toNat ≤ 512) :
    t.CntInSequence := by
  rw [State.CntInSequence, ho, sequenceLength_nop hp]
  omega

/-- A transaction that keeps the counter leaves it inside the sequence: only OPC_NOP can take the place of the stored
opcode (41_dispatcher.md R76). -/
theorem exec_cntInSequence_of_notCounting {i : Instr} (hp : s.cfg.Wf) (h : s.CntInSequence)
    (hi : ¬ Field.cnt.Writer i) (he : exec i s = .next t) : t.CntInSequence := by
  have hcfg : t.cfg = s.cfg := exec_keeps (f := .cfg) he id
  have hcnt : t.cnt = s.cnt := exec_keeps (f := .cnt) he hi
  have hph : i.phase ≠ .storeOpcode := by
    intro hph
    cases i <;> cases hph
    exact hi (.inl ⟨_, rfl⟩)
  rcases exec_opc hph he with ho | ho
  · rwa [State.CntInSequence, ho, hcnt, hcfg]
  · exact cntInSequence_of_nop (hcfg ▸ hp) (by rw [ho, hcfg]) (by rw [hcnt]; exact (h.clauses hp).1)

/-- An exchange of a sequence of `k + 1` leaves the counter inside it, or the sequence ended (44_disk_transfer.md R96,
45_datetime_status_irq.md R101). -/
theorem Exchanged.cntInSequence {k : Nat} (hx : Exchanged k s t) (hp : s.cfg.Wf) (hcfg : t.cfg = s.cfg)
    (h : s.CntInSequence) (hlen : sequenceLength s.cfg.op s.opc = k + 1) (hk : k < 512) : t.CntInSequence := by
  have hle : s.cnt.toNat ≤ k := by
    rw [State.CntInSequence, hlen] at h
    omega
  rcases hx with ⟨_, ho, hcnt⟩ | ⟨_, ho, hcnt⟩
  · rwa [State.CntInSequence, ho, hcnt, hcfg]
  · have hnext : t.cnt.toNat = s.cnt.toNat + 1 := by
      rw [hcnt hle]
      bv_omega
    by_cases hlast : k ≤ s.cnt.toNat
    · rw [if_pos hlast, ← hcfg] at ho
      exact cntInSequence_of_nop (hcfg ▸ hp) ho (by omega)
    · rw [if_neg hlast] at ho
      rw [State.CntInSequence, ho, hcfg, hlen, hnext]
      omega

/-- H_SELTRK leaves the counter at 1 or 0 (43_disk_control.md R91). -/
theorem selectTrack_cnt (d : Byte) (s : State) : (selectTrack d s).cnt.toNat < 2 := by
  unfold selectTrack
  split
  · exact (by decide : (1 : BitVec 16).toNat < 2)
  · exact (by decide : (0 : BitVec 16).toNat < 2)

theorem exec_cntInSequence (hp : s.cfg.Wf) (h : s.CntInSequence)
    (he : exec (decodeWord s.cfg (sampleWord s)) s = .next t) : t.CntInSequence := by
  have hcfg : t.cfg = s.cfg := exec_keeps (f := .cfg) he id
  rcases decode_sample_cases s with ⟨d, e⟩ | e | e | ⟨d, e⟩ | e <;> rw [e] at he
  · cases he
    exact andThen_induct h (cntInSequence_of_lt_two (by decide : (0 : BitVec 16).toNat < 2))
  · exact exec_cntInSequence_of_notCounting hp h (by simp [Field.Writer]) he
  · exact exec_cntInSequence_of_notCounting hp h (by simp [Field.Writer]) he
  · rcases decodeWrite_armed_cases hp s.opc d with ⟨ho, e⟩ | ⟨ho, e⟩ | ⟨_, hn⟩
    · rw [e] at he
      rcases changesOnly_after_runWrite he with ⟨_, rfl⟩ | ⟨_, ht⟩
      · exact h
      · have hcnt : t.cnt = (selectTrack d s).cnt := ht .cnt (by decide)
        exact cntInSequence_of_lt_two (hcnt ▸ selectTrack_cnt d s)
    · rw [e] at he
      exact (execWrtsct_exchanged ho he).cntInSequence hp hcfg h (ho ▸ sequenceLength_wrtsct hp) (by decide)
    · exact exec_cntInSequence_of_notCounting hp h hn he
  · rcases decodeRead_armed_cases hp s.opc with ⟨ho, e⟩ | ⟨ho, e⟩ | ⟨_, hn⟩
    · rw [e] at he
      exact (execDatetime_exchanged ho he).cntInSequence hp hcfg h (ho ▸ sequenceLength_datetime hp) (by decide)
    · rw [e] at he
      exact (execRdsect_exchanged ho he).cntInSequence hp hcfg h (ho ▸ sequenceLength_rdsect hp) (by decide)
    · exact exec_cntInSequence_of_notCounting hp h hn he

/-- The tick interval stays positive: TICK ignores a payload of 0, and no other instruction writes it
(42_single_exchange.md R86). -/
theorem exec_tickIv_ne_zero {i : Instr} (h : s.tickIv ≠ 0) (he : exec i s = .next t) : t.tickIv ≠ 0 := by
  by_cases hi : Field.tickIv.Writer i
  · obtain ⟨d, rfl⟩ := hi
    rcases changesOnly_after_runWrite he with ⟨_, rfl⟩ | ⟨_, ht⟩
    · exact h
    · have htick : t.tickIv = if d = 0 then s.tickIv else d := ht .tickIv (by decide)
      rw [htick]
      split
      · exact h
      · assumption
  · have hkept : t.tickIv = s.tickIv := exec_keeps he hi
    rwa [hkept]

/-- A transaction leaves a free bus free: its handler keeps the bus, and a read release frees it (40_bus_engine.md R70,
R71). -/
theorem exec_busFree {i : Instr} (h : s.busReq = false ∧ s.busDir = .input) (he : exec i s = .next t) :
    t.busReq = false ∧ t.busDir = .input := by
  rcases exec_shape i s with ⟨w, hq, _, e⟩ | ⟨_, _, w, hq, _, e⟩ | ⟨_, _, w, v, _, _, e⟩ <;> cases he.symm.trans e
  · exact ⟨hq.busReq.trans h.1, hq.busDir.trans h.2⟩
  · exact ⟨hq.busReq.trans h.1, hq.busDir.trans h.2⟩
  · exact ⟨rfl, rfl⟩

theorem keptByCalls_wf : KeptByCalls fun b => b.wf = true where
  afterOpen name h := (BlockStore.wf_calls h name 0 []).1
  afterSeek block h := (BlockStore.wf_calls h [] block []).2.1
  afterRead n h := (BlockStore.wf_calls h [] n []).2.2.1
  afterFinalize h := (BlockStore.wf_calls h [] 0 []).2.2.2.2

theorem keptByWrites_wf : KeptByWrites fun b => b.wf = true :=
  fun bytes h => (BlockStore.wf_calls h [] 0 bytes).2.2.2.1

end

section
/-! No transaction moves the time: only now() does, at the end of a pass (60_exceptions.md R109). -/

variable {s t : State}

/-- The time stands in `t` as it stood in `s`. -/
def SameTime (s t : State) : Prop := t.env.clock = s.env.clock

theorem sameTime_andThen {f : State → State} (ht : SameTime s t) (hf : SameTime t (f t)) :
    SameTime s (t.andThen f) := andThen_induct (P := SameTime s) ht (Eq.trans hf ht)

/-- A collaborator call whose effect on the Environment keeps the time. -/
theorem sameTime_ask {α : Type} (s : State) (a : α) {k : Env → Env} (hk : ∀ e, (k e).clock = e.clock) :
    SameTime s (s.ask a k).2 := by
  rcases ask_cases s a k with ⟨_, e⟩ | ⟨_, e⟩ <;> rw [e]
  · rfl
  · exact hk _

theorem sameTime_recordCode (s : State) (r : StoreCode × BlockStore) (e : Option StoreCode → Event) :
    SameTime s (recordCode (s.askStore r e)) := by
  rcases recordCode_askStore s r e with ⟨_, q⟩ | ⟨_, q⟩ <;> rw [q] <;> rfl

theorem sameTime_writeGpio (r : GpioReg) (d : Byte) (s : State) : SameTime s (writeGpio r d s) := by
  unfold writeGpio
  split <;> rfl

theorem sameTime_selectBank (d : Byte) (s : State) : SameTime s (selectBank d s) := by
  unfold selectBank
  split <;> rfl

theorem sameTime_selectDisk (d : Byte) (s : State) : SameTime s (selectDisk d s) := by
  unfold selectDisk
  split
  · exact sameTime_recordCode { s with dsk := d } _ _
  · rfl

theorem sameTime_selectTrack (d : Byte) (s : State) : SameTime s (selectTrack d s) := by
  unfold selectTrack
  split <;> rfl

theorem sameTime_transferStart (s : State) : SameTime s (transferStart s) := by
  rcases transferStart_cases s with ⟨_, e⟩ | ⟨_, _, _, e⟩ | ⟨_, _, _, e⟩ | ⟨_, _, e⟩ <;> rw [e] <;> rfl

theorem sameTime_writeByte (d : Byte) (s : State) : SameTime s (writeByte d s) := by
  rcases writeByte_cases d s with ⟨_, e⟩ | ⟨_, _, e⟩ | ⟨_, _, e⟩ <;> rw [e]
  · rfl
  · rfl
  · rcases flushChunk_cases { s with buf := s.buf.set (chunkPos s.cnt).val d } with ⟨_, e⟩ | ⟨_, e⟩ <;> rw [e] <;> rfl

theorem sameTime_finalizeSector (s : State) : SameTime s (finalizeSector s) := by
  rcases finalizeSector_cases s with ⟨_, e⟩ | ⟨_, _, e⟩ | ⟨_, _, e⟩ <;> rw [e] <;> rfl

theorem sameTime_writeSector (d : Byte) (s : State) : SameTime s (writeSector d s) := by
  have h := sameTime_andThen (sameTime_transferStart s) (sameTime_writeByte d _)
  unfold writeSector
  split
  · exact sameTime_andThen (sameTime_andThen h (sameTime_finalizeSector _)) rfl
  · exact sameTime_andThen h rfl

theorem sameTime_readChunk (s : State) : SameTime s (readChunk s) := by
  rcases readChunk_cases s with ⟨_, e⟩ | ⟨_, _, e⟩ <;> rw [e]
  · rfl
  · rcases fillChunk_cases s with ⟨_, e⟩ | ⟨_, e⟩ <;> rw [e] <;> rfl

theorem sameTime_readSector (s : State) : SameTime s (readSector s).2 := by
  have h := sameTime_andThen (sameTime_transferStart s) (sameTime_readChunk _)
  unfold readSector
  split
  · exact sameTime_andThen (f := fun t => countExchange (endSequence t)) h rfl
  · exact sameTime_andThen h rfl

theorem sameTime_readGpio (r : GpioReg) (s : State) : SameTime s (readGpio r s).2 := by
  unfold readGpio gpioRead
  split
  · exact sameTime_ask (s.emit _) _ fun _ => rfl
  · rfl

theorem sameTime_readDatetime (s : State) : SameTime s (readDatetime s).2 := by
  have hstart : SameTime s (startDatetime s) := by
    unfold startDatetime rtcRefresh
    split
    · exact sameTime_ask (s.emit _) _ fun _ => rfl
    · rfl
  simp only [readDatetime, rtcField_snd]
  split
  · exact sameTime_andThen (sameTime_andThen hstart rfl) rfl
  · rfl

theorem sameTime_runWrite {h : State → State} (he : runWrite h s = .next t) (hh : SameTime s (h s)) :
    SameTime s t := by
  rcases runWrite_cases h s with ⟨_, e⟩ | ⟨_, _, e⟩ | ⟨_, _, e⟩ <;> cases he.symm.trans e
  · rfl
  · exact hh
  · exact hh

theorem sameTime_runRead {h : State → Byte × State} (he : runRead h s = .next t) (hh : SameTime s (h s).2) :
    SameTime s t := by
  rcases runRead_cases h s with ⟨_, e⟩ | ⟨_, _, e⟩ | ⟨_, _, e⟩ <;> cases he.symm.trans e
  · rfl
  · exact hh
  · exact hh

theorem exec_sameTime {i : Instr} (he : exec i s = .next t) : SameTime s t := by
  cases i with
  | store d => cases he; exact sameTime_andThen rfl rfl
  | serrx =>
    cases he
    refine sameTime_andThen rfl (sameTime_andThen (sameTime_ask s _ fun _ => rfl) ?_)
    rw [releaseRead_eq]
    rfl
  | intack => cases he; exact sameTime_andThen rfl rfl
  | led d => exact sameTime_runWrite he rfl
  | sertx d => exact sameTime_runWrite he rfl
  | gpiowr r d => exact sameTime_runWrite he (sameTime_writeGpio r d s)
  | bank d => exact sameTime_runWrite he (sameTime_selectBank d s)
  | irqen d => exact sameTime_runWrite he rfl
  | tick d => exact sameTime_runWrite he rfl
  | spkr d => exact sameTime_runWrite he rfl
  | seldsk d => exact sameTime_runWrite he (sameTime_selectDisk d s)
  | seltrk d => exact sameTime_runWrite he (sameTime_selectTrack d s)
  | selsct d => exact sameTime_runWrite he rfl
  | wrtsct d => exact sameTime_runWrite he (sameTime_writeSector d s)
  | ewNone o d => exact sameTime_runWrite he rfl
  | gpiord r => exact sameTime_runRead he (sameTime_readGpio r s)
  | status => exact sameTime_runRead he rfl
  | datetime => exact sameTime_runRead he (sameTime_readDatetime s)
  | errdisk => exact sameTime_runRead he rfl
  | rdsect => exact sameTime_runRead he (sameTime_readSector s)
  | irqstat => exact sameTime_runRead he rfl
  | erNone o => exact sameTime_runRead he rfl

end

section

variable {s t : State}

/-- The Host's turn keeps the invariant, which does not speak of the lines and the Host's list (60_exceptions.md R118). -/
theorem hostTurn_inv (h : s.Inv) : (hostTurn s).Inv := by
  obtain ⟨l, m, e⟩ := hostTurn_eq s
  rw [e]
  exact { h with }

/-- The pending transaction keeps the invariant (41_dispatcher.md R78). -/
theorem exec_inv (h : s.Inv) (he : exec (decodeWord s.cfg (sampleWord s)) s = .next t) : t.Inv := by
  have hcfg : t.cfg = s.cfg := exec_keeps (f := .cfg) he id
  have hlast : t.lastTick = s.lastTick := exec_keeps (f := .lastTick) he id
  have hclock : t.env.clock = s.env.clock := exec_sameTime he
  have hp : t.cfg.Wf := hcfg ▸ h.params
  obtain ⟨cntBound, writeCnt, readCnt, datetimeCnt, trackCnt⟩ :=
    (exec_cntInSequence h.params h.cntInSequence he).clauses hp
  obtain ⟨busReleased, busInput⟩ := exec_busFree ⟨h.busReleased, h.busInput⟩ he
  exact
    { params := hp, cntBound, writeCnt, readCnt, datetimeCnt, trackCnt, busReleased, busInput
      interval := exec_tickIv_ne_zero h.interval he
      lastTickPast := by rw [hlast, hclock]; exact h.lastTickPast
      storage := exec_storage keptByCalls_wf (fun _ _ => keptByWrites_wf) he h.storage }

/-- The end of a pass keeps the invariant: the time only moves on, and a tick is put down at the present time
(60_exceptions.md R109). -/
theorem endPass_inv (h : s.Inv) : (endPass s).Inv := by
  rcases endPass_cases s with ⟨_, e⟩ | ⟨_, _, e⟩ | ⟨_, _, _, e⟩ | ⟨_, _, now, f, hnow, _, e⟩ <;> rw [e]
  · exact h
  · exact { h with }
  · exact { h with }
  · split
    · exact { h with lastTickPast := le_refl now }
    · have hpast : s.lastTick ≤ now := h.lastTickPast.trans (hnow ▸ Nat.le_add_right _ _)
      exact { h with lastTickPast := hpast }

end

/-- Settles O55: the Host's turn, the pending transaction and the end of the pass each keep the invariant. -/
theorem everyStepKeepsTheInvariant : Obligations.EveryStepKeepsTheInvariant := by
  intro s t h he
  have hturn := hostTurn_inv h
  rcases step_cases s with ⟨_, _, e⟩ | ⟨_, u, hu, e⟩ <;> cases he.symm.trans e
  · exact endPass_inv hturn
  · exact endPass_inv (exec_inv hturn hu)

end Sys2Proof.Machine
end

section
/-! Proofs of the statements of 42_single_exchange.md: the keys of the single-exchange opcodes and the full next state of
each exchange (42_single_exchange.md R80 to R87). An exchange is its handler's update and at most one event, then the
reset of the opcode and the release. -/

namespace Sys2Proof

/-- An entry of WRITE_DISPATCH is decoded from its key, whatever RD is (40_bus_engine.md R64, 41_dispatcher.md R74). -/
theorem decodeWord_writeEntry {p : Params} (hp : p.Wf) {o : Byte} {h : Byte → Instr} (hm : (o, h) ∈ writeTable p.op)
    (rd : Bool) (d : Byte) : decodeWord p (packDW true rd false o d) = h d :=
  (decodeWord_write p rd o d).trans (decodeWrite_of_mem hp hm d)

/-- An entry of READ_DISPATCH is decoded from its key, whatever the data field is (30_encoding.md R53,
41_dispatcher.md R74). -/
theorem decodeWord_readEntry {p : Params} (hp : p.Wf) {o : Byte} {i : Instr} (hm : (o, i) ∈ readTable p.op) (d : Byte) :
    decodeWord p (packDW false true false o d) = i :=
  (decodeWord_read p o d).trans (decodeRead_of_mem hp hm)

end Sys2Proof

namespace Sys2Proof.Machine

section
/-! One event before the release, and what an exchange is when its handler's state is known. -/

variable {s u : State} {e : Event}

theorem released_emit (s : State) (e : Event) (events : List Event) :
    released (s.emit e) events = released s (e :: events) := by
  simp [released, State.emit]

theorem readReleased_emit (s : State) (e : Event) (v : Byte) (events : List Event) :
    readReleased (s.emit e) v events = readReleased s v (e :: events) := by
  simp [readReleased, State.emit]

theorem runWrite_of_eq {h : State → State} (hh : h s = u) (hs : s.NotStuck) (hu : u.NotStuck) :
    runWrite h s = .next (released { u with opc := opcAfterWrite u } [.waitReset]) := by
  subst hh
  exact runWrite_of_notStuck hs hu

theorem runWrite_of_emit {h : State → State} (hh : h s = u.emit e) (hs : s.NotStuck) (hu : u.NotStuck) :
    runWrite h s = .next (released { u with opc := opcAfterWrite u } [e, .waitReset]) :=
  (runWrite_of_eq hh hs hu).trans (congrArg Host.Outcome.next (released_emit { u with opc := opcAfterWrite u } e _))

/-- A payload passed on to a collaborator that takes it (42_single_exchange.md R80 to R82, R87). -/
theorem runWrite_of_deliver {h : State → State} {f : Devices → Devices} (hh : h s = s.deliver e f)
    (hs : s.call.NotStuck) :
    runWrite h s =
      .next (released
        { s with opc := opcAfterWrite s, env := { s.call.env with devices := f s.env.devices } } [e, .waitReset]) :=
  runWrite_of_emit hh (notStuck_of_call hs) hs

theorem runRead_of_eq {h : State → Byte × State} {v : Byte} (hh : h s = (v, u)) (hs : s.NotStuck) (hu : u.NotStuck) :
    runRead h s = .next (readReleased { u with opc := opcAfterRead u } v []) := by
  have ht : (h s).2.NotStuck := by rwa [hh]
  rw [runRead_of_notStuck hs ht, hh]

theorem runRead_of_emit {h : State → Byte × State} {v : Byte} (hh : h s = (v, u.emit e)) (hs : s.NotStuck)
    (hu : u.NotStuck) : runRead h s = .next (readReleased { u with opc := opcAfterRead u } v [e]) :=
  (runRead_of_eq hh hs hu).trans
    (congrArg Host.Outcome.next (readReleased_emit { u with opc := opcAfterRead u } e v []))

end

section
/-! The handlers of the expander, the bank, the tick enable and the tick interval, case by case. -/

variable {s : State}

theorem writeGpio_of_present (hp : s.cfg.gpioPresent = true) (r : GpioReg) (d : Byte) :
    writeGpio r d s = s.deliver (.gpioWr r d) fun v => { v with gpio := v.gpio ++ [(r, d)] } := if_pos hp

theorem writeGpio_of_absent (hp : s.cfg.gpioPresent = false) (r : GpioReg) (d : Byte) : writeGpio r d s = s :=
  if_neg (by simp [hp])

theorem gpioRead_of_returns (hs : s.call.NotStuck) (r : GpioReg) :
    gpioRead r s =
      (some (s.env.gpioIn.next Config.gpioByte).1,
        { s with env := { s.call.env with gpioIn := (s.env.gpioIn.next Config.gpioByte).2 } }.emit (.gpioRd r)) :=
  ask_of_returns (s := s.emit (.gpioRd r)) hs _ _

/-- A read of the present expander that returns: its byte, the feed moved on, and the one event (42_single_exchange.md
R83). -/
theorem readGpio_of_present (hp : s.cfg.gpioPresent = true) (hs : s.call.NotStuck) {v : Byte} {f : Feed Byte}
    (hf : s.env.gpioIn.next Config.gpioByte = (v, f)) (r : GpioReg) :
    readGpio r s = (v, { s with env := { s.call.env with gpioIn := f } }.emit (.gpioRd r)) := by
  rw [readGpio, if_pos hp, gpioRead_of_returns hs, hf, Option.getD_some]

theorem readGpio_of_absent (hp : s.cfg.gpioPresent = false) (r : GpioReg) : readGpio r s = (0, s) :=
  if_neg (by simp [hp])

theorem bankOf_of_toNat_eq {d : Byte} {b : Fin 3} (h : d.toNat = b.val) : bankOf d = some b := by
  have hd : d.toNat < 3 := h ▸ b.isLt
  rw [bankOf, dif_pos hd]
  exact congrArg some (Fin.ext h)

theorem bankOf_of_illegal {d : Byte} (h : 2 < d.toNat) : bankOf d = none := dif_neg (by omega)

theorem selectBank_of_legal {d : Byte} {b : Fin 3} (h : d.toNat = b.val) (s : State) :
    selectBank d s = setBank b s := by
  rw [selectBank, bankOf_of_toNat_eq h]

theorem selectBank_of_illegal {d : Byte} (h : 2 < d.toNat) (s : State) : selectBank d s = s := by
  rw [selectBank, bankOf_of_illegal h]

/-- The mask of IRQEN selects bit 1 (42_single_exchange.md R85). -/
theorem tickEnable_eq_getLsbD (d : Byte) : tickEnable d = d.getLsbD 1 := by
  have hmask : d &&& Board.irqenTickMask = if d.getLsbD 1 then BitVec.twoPow 8 1 else 0 := BitVec.and_twoPow d 1
  rw [tickEnable, hmask]
  cases d.getLsbD 1 <;> rfl

theorem exec_tick (hs : s.NotStuck) (d : Byte) :
    exec (.tick d) s =
      .next (released
        { s with tickIv := if d = 0 then s.tickIv else d, opc := opcAfterWrite s } [.waitReset]) :=
  runWrite_of_notStuck (h := fun s => { s with tickIv := if d = 0 then s.tickIv else d }) hs hs

end

/-- Settles O20: each key is in WRITE_DISPATCH, and each handler is one delivery. -/
theorem passthroughForwardsThePayload : Obligations.PassthroughForwardsThePayload := by
  refine fun s d => ⟨fun hp rd => ⟨?_, ?_, ?_⟩, fun hs => ⟨?_, ?_, ?_⟩⟩
  · exact decodeWord_writeEntry hp (by simp [writeTable]) rd d
  · exact decodeWord_writeEntry hp (by simp [writeTable]) rd d
  · exact decodeWord_writeEntry hp (by simp [writeTable]) rd d
  · exact runWrite_of_deliver (h := lightLed d) rfl hs
  · exact runWrite_of_deliver (h := sendSerial d) rfl hs
  · exact runWrite_of_deliver (h := driveSpeaker d) rfl hs

/-- Settles O21: each register's key is in WRITE_DISPATCH, and the handler is one delivery to the present expander, and
nothing without it. -/
theorem gpioWriteReachesThePresentExpander : Obligations.GpioWriteReachesThePresentExpander := by
  refine fun s r o d => ⟨fun hp hm rd => ?_, fun present hs => ?_, fun absent hs => ?_⟩
  · exact decodeWord_writeEntry hp (gpiowr_mem_writeTable hm) rd d
  · exact runWrite_of_deliver (writeGpio_of_present present r d) hs
  · exact runWrite_of_eq (writeGpio_of_absent absent r d) hs hs

/-- Settles O22: each register's key is in READ_DISPATCH; the present expander's call returns its byte, the absent one is
not called. -/
theorem gpioReadGivesZeroWhenAbsent : Obligations.GpioReadGivesZeroWhenAbsent := by
  refine fun s r o v f hf => ⟨fun hp hm d => ?_, fun present hs => ?_, fun absent hs => ?_⟩
  · exact decodeWord_readEntry hp (gpiord_mem_readTable hm) d
  · exact runRead_of_emit (readGpio_of_present present hs hf r) (notStuck_of_call hs) hs
  · exact runRead_of_eq (readGpio_of_absent absent r) hs hs

/-- Settles O23: a payload up to 2 is a bank, set in one event with its two levels; one above 2 is no bank. -/
theorem bankSelectIgnoresIllegalIds : Obligations.BankSelectIgnoresIllegalIds := by
  refine fun s d => ⟨fun hp rd => ?_, fun b hb hs => ?_, fun illegal hs => ?_⟩
  · exact decodeWord_writeEntry hp (by simp [writeTable]) rd d
  · exact runWrite_of_emit (selectBank_of_legal hb s) (notStuck_of_call hs) hs
  · exact runWrite_of_eq (selectBank_of_illegal illegal s) hs hs

/-- Settles O24: the mask selects bit 1, and the handler writes nothing but the enable. -/
theorem irqEnableTakesBitOne : Obligations.IrqEnableTakesBitOne := by
  refine fun s d => ⟨fun hp rd => decodeWord_writeEntry hp (by simp [writeTable]) rd d, fun hs => ?_⟩
  rw [← tickEnable_eq_getLsbD]
  exact runWrite_of_notStuck (h := fun s => { s with tickEn := tickEnable d }) hs hs

/-- Settles O25: the handler writes nothing but the interval, and with a payload of 0 the interval's own value. -/
theorem tickIntervalIgnoresZero : Obligations.TickIntervalIgnoresZero := by
  refine fun s d => ⟨fun hp rd => ?_, fun positive hs => ?_, fun zero hs => ?_⟩
  · exact decodeWord_writeEntry hp (by simp [writeTable]) rd d
  · have hd : d ≠ 0 := fun h => by simp [h] at positive
    rw [exec_tick hs, if_neg hd]
  · rw [exec_tick hs, if_pos zero]

end Sys2Proof.Machine
end

section
/-! Proofs of the statements of 43_disk_control.md: the file name of a disk (43_disk_control.md R89), the selection of
disk, track and sector with the validation of the address (R88, R90 to R92), and the read of the error code (R93). -/

namespace Sys2Proof.Machine

section
/-! The digits of a file name, and the track that SELTRK's second byte completes. -/

theorem asciiDigit_inj {j k : Nat} (hj : j < 10) (hk : k < 10) (h : asciiDigit j = asciiDigit k) : j = k := by
  simp only [asciiDigit] at h
  bv_omega

/-- The high byte stands above the low byte held: 256 times the one and the other (43_disk_control.md R91). -/
theorem trackHigh_eq (d : Byte) (trk : BitVec 16) :
    trackHigh d trk = BitVec.ofNat 16 (256 * d.toNat + trk.toNat % 256) := by
  have hhigh : (d.setWidth 16 <<< 8).toNat = 2 ^ 8 * d.toNat := by bv_omega
  have hlow : (trk &&& 0xFF).toNat = trk.toNat % 2 ^ 8 := by
    rw [BitVec.toNat_and]
    exact Nat.and_two_pow_sub_one_eq_mod trk.toNat 8
  refine BitVec.eq_of_toNat_eq ?_
  rw [trackHigh, BitVec.toNat_or, hhigh, hlow, ← Nat.two_pow_add_eq_or_of_lt (Nat.mod_lt _ (by decide))]
  bv_omega

/-- VALIDATE's code, the sector checked first (43_disk_control.md R88). -/
theorem addressCode_eq (trk : BitVec 16) (sec : Byte) :
    addressCode trk sec = if 32 ≤ sec.toNat then 18 else if 512 ≤ trk.toNat then 17 else 0 := rfl

end

section
/-! The handlers, case by case. -/

variable {s : State} {d : Byte}

/-- An open that returns records the disk and the code of its one storage call (43_disk_control.md R90). -/
theorem selectDisk_of_legal (hd : d.toNat ≤ 99) {c : StoreCode} {b : BlockStore}
    (ho : s.env.bs.open (diskName s.cfg.diskSet d) = (c, b)) (hs : s.call.NotStuck) :
    selectDisk d s =
      { s with dsk := d, err := storeErr c, env := { s.call.env with bs := b } }.emit
        (.bsOpen (diskName s.cfg.diskSet d) (some c)) := by
  have hopen : bsOpen (diskName s.cfg.diskSet d) { s with dsk := d } =
      (some c, ({ s.call with dsk := d }.withBs b).emit (.bsOpen (diskName s.cfg.diskSet d) (some c))) := by
    rw [bsOpen, ho]
    exact askStore_of_returns (s := { s with dsk := d }) hs (c, b) _
  rw [selectDisk, if_pos hd, hopen, recordCode_some]
  rfl

theorem selectDisk_of_illegal (hd : 99 < d.toNat) (s : State) : selectDisk d s = { s with err := 16 } :=
  if_neg (Nat.not_le.2 hd)

theorem selectTrack_low (hc : s.cnt = 0) (d : Byte) : selectTrack d s = { s with trk := d.setWidth 16, cnt := 1 } :=
  if_pos hc

theorem selectTrack_high (hc : s.cnt ≠ 0) (d : Byte) :
    selectTrack d s =
      { s with trk := trackHigh d s.trk, cnt := 0, err := addressCode (trackHigh d s.trk) s.sec } := if_neg hc

/-- An opcode whose read counts no exchange is not armed: the reset after dispatch writes OPC_NOP (41_dispatcher.md
R76). -/
theorem opcAfterRead_of_notCounting (hp : s.cfg.Wf) (hn : ¬ Field.cnt.Writer (decodeRead s.cfg s.opc)) :
    opcAfterRead s = s.cfg.op.nop := by
  rcases decodeRead_armed_cases hp s.opc with ⟨_, e⟩ | ⟨_, e⟩ | ⟨hd, _⟩
  · exact absurd (by simp [e, Field.Writer]) hn
  · exact absurd (by simp [e, Field.Writer]) hn
  · exact if_neg (not_or.2 hd)

theorem decodeRead_errdisk {p : Params} (hp : p.Wf) : decodeRead p p.op.errdisk = .errdisk :=
  decodeRead_of_mem hp (by simp [readTable])

theorem exec_errdisk (hs : s.NotStuck) :
    exec .errdisk s = .next (readReleased { s with opc := opcAfterRead s } s.err []) :=
  runRead_of_notStuck (h := fun s => (s.err, s)) hs hs

/-- An Execute-Read with OPC_NOP stored finds no handler and gives 0x00 (30_encoding.md R56, 41_dispatcher.md R75). -/
theorem execRead_of_nop (hp : s.cfg.Wf) (ho : s.opc = s.cfg.op.nop) (hs : s.NotStuck) :
    exec (decodeRead s.cfg s.opc) s = .next (readReleased { s with opc := opcAfterRead s } 0 []) := by
  have hnop : s.opc ∉ s.cfg.op.readKeys := fun h => hp.2.1 (List.mem_append_right _ (ho ▸ h))
  rw [decodeRead_of_not_key hnop]
  exact runRead_of_notStuck (h := fun s => (0, s)) hs hs

end

/-- Settles O28: the first byte is the track's low byte; the second completes the track to 256 times itself and the low
byte, and VALIDATE gives the code of that track and the sector. -/
theorem selectTrackTakesTwoBytes : Obligations.SelectTrackTakesTwoBytes := by
  refine fun s d => ⟨fun hp rd => ?_, fun first hs => ?_, fun second hs => ?_⟩
  · exact decodeWord_writeEntry hp (by simp [writeTable]) rd d
  · exact runWrite_of_eq (selectTrack_low first d) hs hs
  · intro trk'
    have htrk : trackHigh d s.trk = trk' := trackHigh_eq d s.trk
    rw [← addressCode_eq, ← htrk]
    exact runWrite_of_eq (selectTrack_high second d) hs hs

/-- Settles O26: the two digits are the quotient and the remainder by ten, and equal names have equal digits. -/
theorem diskNameHasSixCharacters : Obligations.DiskNameHasSixCharacters := by
  refine ⟨fun ds n hn => ?_, fun ds ds' n n' hn hn' h => ?_⟩
  · exact ⟨ds.val, n.toNat / 10, n.toNat % 10, rfl, by omega, by omega, by omega, rfl⟩
  · simp only [diskName, List.cons.injEq, true_and, and_true] at h
    obtain ⟨hset, htens, hunits⟩ := h
    have hset := asciiDigit_inj (by omega) (by omega) hset
    have htens := asciiDigit_inj (by omega) (by omega) htens
    have hunits := asciiDigit_inj (by omega) (by omega) hunits
    exact ⟨Fin.ext hset, BitVec.eq_of_toNat_eq (by omega)⟩

/-- Settles O27: up to 99 the handler is one open that returns, above it the code 16 and no call. -/
theorem selectDiskOpensTheNamedFile : Obligations.SelectDiskOpensTheNamedFile := by
  refine fun s d c b => ⟨fun hp rd => ?_, fun legal ho hs => ?_, fun illegal hs => ?_⟩
  · exact decodeWord_writeEntry hp (by simp [writeTable]) rd d
  · exact runWrite_of_emit (selectDisk_of_legal legal ho hs) (notStuck_of_call hs) hs
  · exact runWrite_of_eq (selectDisk_of_illegal illegal s) hs hs

/-- Settles O29: the handler writes the sector, and VALIDATE the code of the track and that sector. -/
theorem selectSectorValidatesTheAddress : Obligations.SelectSectorValidatesTheAddress := by
  refine fun s d => ⟨fun hp rd => decodeWord_writeEntry hp (by simp [writeTable]) rd d, fun hs => ?_⟩
  rw [← addressCode_eq]
  exact runWrite_of_notStuck (h := selectSector d) hs hs

/-- Settles O30: the read gives the error code and leaves OPC_NOP, so the second read finds no handler. -/
theorem errorReadIsNondestructive : Obligations.ErrorReadIsNondestructive := by
  refine fun s => ⟨fun hp d => decodeWord_readEntry hp (by simp [readTable]) d, exec_errdisk, fun hp hs ho => ?_⟩
  have hnop : opcAfterRead s = s.cfg.op.nop :=
    opcAfterRead_of_notCounting hp (by simp [ho, decodeRead_errdisk hp, Field.Writer])
  exact ⟨_, _, exec_errdisk hs, execRead_of_nop hp hnop hs, rfl, rfl, rfl⟩

end Sys2Proof.Machine
end

section
/-! Proofs of the statements of 44_disk_transfer.md, first part: one exchange of a sector transfer (44_disk_transfer.md
R94 to R99). A WRTSCT exchange is the start of the transfer, the byte taken and, in the last, the finalize; a RDSECT
exchange is the start of the transfer and the chunk pulled. What each does is said case by case, and the count, the
reset of the opcode and the release once for all cases. -/

namespace Sys2Proof.Machine

section
/-! H_WRTSCT, and what the exchange is when its steps are known. -/

variable {s u : State} {d : Byte}

/-- The steps of H_WRTSCT before the exchange is counted (44_disk_transfer.md R98). -/
def writeSteps (d : Byte) (s : State) : State :=
  if 511 ≤ s.cnt.toNat then ((transferStart s).andThen (writeByte d)).andThen finalizeSector
  else (transferStart s).andThen (writeByte d)

theorem writeSector_eq_writeSteps (d : Byte) (s : State) :
    writeSector d s =
      (writeSteps d s).andThen fun t =>
        if 511 ≤ s.cnt.toNat then countExchange (endSequence t) else countExchange t := by
  unfold writeSector writeSteps
  by_cases h : 511 ≤ s.cnt.toNat
  · simp only [h, lastExchange_iff.2 h, if_true]
  · simp [h, lastExchange_iff]

/-- A WRTSCT exchange whose steps emit `events` and otherwise lead to `u`: counted, the opcode reset, the Host released
(44_disk_transfer.md R96, 41_dispatcher.md R76, 40_bus_engine.md R70). -/
theorem execWrtsct_of_steps {events : List Event} (hu : writeSteps d s = { u with trace := u.trace ++ events })
    (hs : s.NotStuck) (hn : u.NotStuck) (hc : u.cfg = s.cfg) (ho : u.opc = s.opc) :
    exec (.wrtsct d) s =
      .next (released
        { u with
          cnt := u.cnt + 1
          opc := if 511 ≤ s.cnt.toNat then s.cfg.op.nop else opcAfterWrite s } (events ++ [.waitReset])) := by
  have hw := writeSector_eq_writeSteps d s
  rw [hu, andThen_of_notStuck (by exact hn)] at hw
  have hreleased {v : State} (hv : writeSector d s = { v with trace := v.trace ++ events }) (hvn : v.NotStuck) :
      exec (.wrtsct d) s = .next (released { v with opc := opcAfterWrite v } (events ++ [.waitReset])) := by
    refine (runWrite_of_eq hv hs hvn).trans (congrArg Host.Outcome.next ?_)
    simp [released, opcAfterWrite]
  by_cases h : 511 ≤ s.cnt.toNat
  · rw [if_pos h] at hw ⊢
    refine (hreleased (v := countExchange (endSequence u)) hw hn).trans ?_
    simp [opcAfterWrite, countExchange, endSequence, hc]
  · rw [if_neg h] at hw ⊢
    refine (hreleased (v := countExchange u) hw hn).trans ?_
    simp [opcAfterWrite, countExchange, hc, ho]

theorem call_notStuck_of_responsive (h : s.Responsive) : s.call.NotStuck := by
  rw [call_of_responsive h]
  exact notStuck_of_responsive h

theorem cnt_ne_zero_of_pos (h : 0 < s.cnt.toNat) : s.cnt ≠ 0 := by
  intro hc
  simp [hc] at h

/-- With an error latched no step of a write does anything (44_disk_transfer.md R94, R98). -/
theorem writeSteps_of_err (he : s.err ≠ 0) (d : Byte) : writeSteps d s = s := by
  have hbyte : (transferStart s).andThen (writeByte d) = s := by
    rw [transferStart_of_started (.inr he)]
    exact andThen_induct (P := (· = s)) rfl (if_neg he)
  have hfin : s.andThen finalizeSector = s := andThen_induct (P := (· = s)) rfl (if_neg he)
  rw [writeSteps, hbyte, hfin, ite_self]

/-- A byte inside a chunk goes to the buffer, unless an error is latched (44_disk_transfer.md R98). -/
theorem writeByte_of_inside {p : Fin 512} (hp : p.val = s.cnt.toNat % 32) (hin : p.val ≠ 31) (d : Byte) :
    writeByte d s = { s with buf := if s.err = 0 then s.buf.set p.val d else s.buf } := by
  obtain rfl : chunkPos s.cnt = p := Fin.ext hp.symm
  rcases writeByte_cases d s with ⟨he, e⟩ | ⟨he, _, e⟩ | ⟨_, hfull, _⟩
  · rw [e, if_neg he]
  · rw [e, if_pos he]
  · exact absurd hfull hin

/-- The byte that fills a chunk flushes it (44_disk_transfer.md R97, R98). -/
theorem writeByte_of_full (hp : s.cnt.toNat % 32 = 31) (he : s.err = 0) (hs : s.call.NotStuck) {c : StoreCode} {k : Nat}
    {b : BlockStore} (hw : s.env.bs.write (chunkBytes (s.buf.set 31 d)) = ((c, k), b)) :
    writeByte d s =
      { s with
        buf := s.buf.set 31 d, err := chunkCode c k, env := { s.call.env with bs := b }
        trace := s.trace ++ [.bsWrite (chunkBytes (s.buf.set 31 d)) (some (c, k))] } := by
  have hset : s.buf.set (chunkPos s.cnt).val d = s.buf.set 31 d := by congr
  rcases writeByte_cases d s with ⟨hne, _⟩ | ⟨_, hne, _⟩ | ⟨_, _, e⟩
  · exact absurd he hne
  · exact absurd hp hne
  · rw [e, hset]
    rcases flushChunk_cases { s with buf := s.buf.set 31 d } with ⟨hstuck, _⟩ | ⟨_, e⟩
    · exact absurd hstuck hs
    · rw [e, hw]
      rfl

theorem finalizeSector_of_ok (he : s.err = 0) (hs : s.Responsive) :
    finalizeSector s =
      { s with
        err := storeErr s.env.bs.finalize.1, env := { s.env with bs := s.env.bs.finalize.2 }
        trace := s.trace ++ [.bsFinalize (some s.env.bs.finalize.1)] } := by
  rcases finalizeSector_cases s with ⟨hne, _⟩ | ⟨_, hstuck, _⟩ | ⟨_, _, e⟩
  · exact absurd he hne
  · exact absurd hstuck (call_notStuck_of_responsive hs)
  · rw [e, call_of_responsive hs]

/-- The first exchange at an address in range seeks to the block (44_disk_transfer.md R94). -/
theorem transferStart_of_legal (hc : s.cnt = 0) (he : s.err = 0) (ht : s.trk.toNat < 512) (hsec : s.sec.toNat < 32)
    (hs : s.call.NotStuck) {c : StoreCode} {b : BlockStore}
    (hseek : s.env.bs.seek (32 * s.trk.toNat + s.sec.toNat) = (c, b)) :
    transferStart s =
      { s with
        err := storeErr c, env := { s.call.env with bs := b }
        trace := s.trace ++ [.bsSeek (32 * s.trk.toNat + s.sec.toNat) (some c)] } := by
  rcases transferStart_cases s with ⟨hne, _⟩ | ⟨_, _, hstuck, _⟩ | ⟨_, _, _, e⟩ | ⟨_, hne, _⟩
  · exact absurd ⟨hc, he⟩ hne
  · exact absurd hstuck hs
  · rw [e, hseek]
    rfl
  · exact absurd ⟨ht, hsec⟩ hne

/-- The first exchange at an address out of range records why (44_disk_transfer.md R94, 43_disk_control.md R88). -/
theorem transferStart_of_illegal (hc : s.cnt = 0) (he : s.err = 0) (ha : ¬ (s.trk.toNat < 512 ∧ s.sec.toNat < 32)) :
    transferStart s = { s with err := if 32 ≤ s.sec.toNat then 18 else 17 } := by
  rcases transferStart_cases s with ⟨hne, _⟩ | ⟨_, hl, _⟩ | ⟨_, hl, _⟩ | ⟨_, _, e⟩
  · exact absurd ⟨hc, he⟩ hne
  · exact absurd hl ha
  · exact absurd hl ha
  · rw [e, validate, addressCode_of_illegal ha]

theorem illegalErr_ne_zero (sec : Byte) : (if 32 ≤ sec.toNat then (18 : Byte) else 17) ≠ 0 := by split <;> decide

/-- Before the last exchange the steps of a write are the start and the byte (44_disk_transfer.md R98). -/
theorem writeSteps_of_notLast (h : s.cnt.toNat < 511) (d : Byte) (hs : (transferStart s).NotStuck) :
    writeSteps d s = writeByte d (transferStart s) := by
  rw [writeSteps, if_neg (by omega), andThen_of_notStuck hs]

/-- The first byte of a write goes to place 0 of the buffer, unless the start has recorded an error (44_disk_transfer.md
R94, R98). -/
theorem writeSteps_of_first (hc : s.cnt = 0) (hstart : transferStart s = u) (hu : u.NotStuck) (d : Byte) :
    writeSteps d s = { u with buf := if u.err = 0 then u.buf.set 0 d else u.buf } := by
  have hcnt : u.cnt = 0 := by rw [← hstart, (transferStart_seq s).2.1, hc]
  rw [writeSteps_of_notLast (by simp [hc]) d (by rwa [hstart]), hstart]
  exact writeByte_of_inside (p := 0) (by simp [hcnt]) (by decide) d

/-- The last byte of a write fills the last chunk, and the finalize follows (44_disk_transfer.md R98). -/
theorem writeSteps_of_last (hlast : s.cnt.toNat = 511) (hs : s.NotStuck) (hbyte : writeByte d s = u) (hu : u.NotStuck) :
    writeSteps d s = finalizeSector u := by
  have hstart := transferStart_of_started (.inl (cnt_ne_zero_of_pos (s := s) (by omega)))
  rw [writeSteps, if_pos (by omega), hstart, andThen_of_notStuck hs, hbyte, andThen_of_notStuck hu]

end

/-- Settles O32: with an error latched no step of the write does anything, and the exchange is counted. -/
theorem writeWithErrorLatchedDiscards : Obligations.WriteWithErrorLatchedDiscards := by
  intro s d hs he
  have hsteps : writeSteps d s = { s with trace := s.trace ++ [] } := by
    rw [writeSteps_of_err he, List.append_nil]
  exact execWrtsct_of_steps hsteps hs hs rfl rfl

/-- Settles O33: in range the start is a seek that returns, and the byte goes to place 0 of the buffer if its code is 0;
out of range the start is the validation, whose code discards the byte. -/
theorem writeStartSeeksOrRejects : Obligations.WriteStartSeeksOrRejects := by
  intro s d hc he
  have hnext : s.cnt + 1 = 1 := by rw [hc]; rfl
  have hlast : ¬ 511 ≤ s.cnt.toNat := by simp [hc]
  refine ⟨fun c b ht hsec hseek hs => ?_, fun ha hs => ?_⟩
  · have hsteps := writeSteps_of_first hc (transferStart_of_legal hc he ht hsec hs hseek) hs d
    simp only [storeErr_eq_zero] at hsteps
    have hexec := execWrtsct_of_steps (u := { s with
      err := storeErr c, buf := if c = 0 then s.buf.set 0 d else s.buf, env := { s.call.env with bs := b } })
      hsteps (notStuck_of_call hs) hs rfl rfl
    rwa [hnext, if_neg hlast] at hexec
  · have hcode := illegalErr_ne_zero s.sec
    have hsteps := writeSteps_of_first hc (transferStart_of_illegal hc he ha) hs d
    rw [if_neg hcode] at hsteps
    have hexec := execWrtsct_of_steps (u := { s with err := if 32 ≤ s.sec.toNat then 18 else 17 })
      (events := []) (hsteps.trans (by rw [List.append_nil])) hs hs rfl rfl
    rwa [hnext, if_neg hlast] at hexec

/-- Settles O34: no seek is due, and the byte goes to the buffer. -/
theorem writeInsideChunkOnlyBuffers : Obligations.WriteInsideChunkOnlyBuffers := by
  intro s d p hs he hc hlast hp hin
  have hstart := transferStart_of_started (.inl hc)
  have hsteps := writeSteps_of_notLast hlast d (by rwa [hstart])
  rw [hstart, writeByte_of_inside hp hin, if_pos he] at hsteps
  have hexec := execWrtsct_of_steps (u := { s with buf := s.buf.set p.val d }) (events := [])
    (hsteps.trans (by rw [List.append_nil])) hs hs rfl rfl
  rwa [if_neg (by omega)] at hexec

/-- Settles O35: no seek is due, and the byte fills the chunk, whose flush returns. -/
theorem writeFullChunkIsFlushed : Obligations.WriteFullChunkIsFlushed := by
  intro s d c k b hs he hlast hfull hwrite
  have hstart := transferStart_of_started (.inl (cnt_ne_zero_of_pos (s := s) (by omega)))
  have hsteps := writeSteps_of_notLast hlast d (by rw [hstart]; exact notStuck_of_call hs)
  rw [hstart, writeByte_of_full hfull he hs hwrite] at hsteps
  have hexec := execWrtsct_of_steps (u := { s with
    buf := s.buf.set 31 d, err := chunkCode c k, env := { s.call.env with bs := b } })
    hsteps (notStuck_of_call hs) hs rfl rfl
  rwa [if_neg (by omega)] at hexec

/-- Settles O36: the byte fills the last chunk; a flush that succeeded whole leaves err 0, so that the finalize is made,
and any other leaves its code, so that it is not. -/
theorem writeEndFinalizesAndDisarms : Obligations.WriteEndFinalizesAndDisarms := by
  intro s d c k b hs he hlast hwrite
  have hcall := call_of_responsive hs
  have hns := notStuck_of_responsive hs
  have hnext : s.cnt + 1 = 512 := by bv_omega
  have hbyte := writeByte_of_full (by omega) he (call_notStuck_of_responsive hs) hwrite
  rw [hcall] at hbyte
  have hsteps := writeSteps_of_last hlast hns hbyte hns
  refine ⟨fun hc hk => ?_, fun hfail => ?_⟩
  · have hcode : chunkCode c k = 0 := chunkCode_eq_zero.2 ⟨hc, hk⟩
    replace hsteps := hsteps.trans (finalizeSector_of_ok hcode hs)
    rw [List.append_assoc] at hsteps
    have hexec := execWrtsct_of_steps (u := { s with
      buf := s.buf.set 31 d, err := storeErr b.finalize.1, env := { s.env with bs := b.finalize.2 } })
      hsteps hns hns rfl rfl
    rwa [hnext, if_pos (by omega)] at hexec
  · have hcode : chunkCode c k ≠ 0 := fun h => hfail (chunkCode_eq_zero.1 h)
    rw [finalizeSector, if_neg hcode] at hsteps
    have hexec := execWrtsct_of_steps (u := { s with
      buf := s.buf.set 31 d, err := chunkCode c k, env := { s.env with bs := b } }) hsteps hns hns rfl rfl
    rwa [hnext, if_pos (by omega), chunkCode_of_failed hfail] at hexec

section
/-! H_RDSECT, and what the exchange is when its chunk is known. -/

variable {s u : State} {c : StoreCode} {bytes : List Byte} {b : BlockStore}

/-- A RDSECT exchange whose start and chunk emit `events` and otherwise lead to `u`: counted, the opcode reset, the byte
given (44_disk_transfer.md R96, R99, 40_bus_engine.md R71). -/
theorem execRdsect_of_steps {events : List Event}
    (hu : (transferStart s).andThen readChunk = { u with trace := u.trace ++ events }) (hs : s.NotStuck)
    (hn : u.NotStuck) (hc : u.cfg = s.cfg) (ho : u.opc = s.opc) {v : Byte} (hv : readResult u = v) :
    exec .rdsect s =
      .next (readReleased
        { u with
          cnt := u.cnt + 1
          opc := if 511 ≤ s.cnt.toNat then s.cfg.op.nop else opcAfterRead s } v events) := by
  subst hv
  refine (execRdsect_of_chunk hu hs hc ho hn).trans (congrArg Host.Outcome.next ?_)
  simp [readReleased, readResult]

theorem readSteps_of_start {v : State} (hstart : transferStart s = u) (hu : u.NotStuck) (hchunk : readChunk u = v) :
    (transferStart s).andThen readChunk = v := by
  rw [hstart, andThen_of_notStuck hu, hchunk]

theorem readResult_of_err (he : s.err ≠ 0) : readResult s = 0 := if_neg he

theorem readResult_of_ok (he : s.err = 0) {p : Fin 512} (hp : p.val = s.cnt.toNat % 32) :
    readResult s = s.buf[p.val] := by
  obtain rfl : chunkPos s.cnt = p := Fin.ext hp.symm
  exact if_pos he

/-- With an error latched no chunk is pulled (44_disk_transfer.md R99). -/
theorem readChunk_of_err (he : s.err ≠ 0) : readChunk s = s := if_neg fun h => he h.1

/-- Inside a chunk no other is pulled (44_disk_transfer.md R99). -/
theorem readChunk_of_inside (hp : s.cnt.toNat % 32 ≠ 0) : readChunk s = s := if_neg fun h => hp h.2

/-- A read of 32 bytes that returns records its code (44_disk_transfer.md R97, R99). -/
theorem readChunk_of_start (he : s.err = 0) (hp : s.cnt.toNat % 32 = 0) {env : Env} (hcall : s.call.env = env)
    (hs : env.liveness ≠ .stalled) (hread : s.env.bs.read 32 = ((c, bytes), b)) :
    readChunk s =
      { s with
        err := chunkCode c bytes.length
        buf := if chunkCode c bytes.length = 0 then putBytes s.buf 0 bytes else s.buf
        env := { env with bs := b }
        trace := s.trace ++ [.bsRead 32 (some (c, bytes))] } := by
  subst hcall
  rcases readChunk_cases s with ⟨hne, _⟩ | ⟨_, _, e⟩
  · exact absurd ⟨he, hp⟩ hne
  · rcases fillChunk_cases s with ⟨hstuck, _⟩ | ⟨_, e'⟩
    · exact absurd hstuck hs
    · rw [e, e', hread]
      rfl

/-- A full chunk goes to the buffer (44_disk_transfer.md R99). -/
theorem readChunk_of_pulled (he : s.err = 0) (hp : s.cnt.toNat % 32 = 0) {env : Env} (hcall : s.call.env = env)
    (hs : env.liveness ≠ .stalled) (hread : s.env.bs.read 32 = ((c, bytes), b)) (hc : c = 0)
    (hlen : bytes.length = 32) :
    readChunk s =
      { s with
        buf := putBytes s.buf 0 bytes, env := { env with bs := b }
        trace := s.trace ++ [.bsRead 32 (some (c, bytes))] } := by
  have hcode : chunkCode c bytes.length = 0 := chunkCode_eq_zero.2 ⟨hc, by omega⟩
  rw [readChunk_of_start he hp hcall hs hread, hcode, if_pos rfl, ← he]

/-- A failed or short chunk leaves the buffer and records why (44_disk_transfer.md R97, R99). -/
theorem readChunk_of_failed (he : s.err = 0) (hp : s.cnt.toNat % 32 = 0) {env : Env} (hcall : s.call.env = env)
    (hs : env.liveness ≠ .stalled) (hread : s.env.bs.read 32 = ((c, bytes), b))
    (hfail : ¬ (c = 0 ∧ bytes.length = 32)) :
    readChunk s =
      { s with
        err := if c = 0 then 19 else BitVec.ofNat 8 c.val, env := { env with bs := b }
        trace := s.trace ++ [.bsRead 32 (some (c, bytes))] } := by
  have hlen : bytes.length ≤ 32 := by
    have h := s.env.bs.length_read_le 32
    rwa [hread] at h
  have hshort : ¬ (c = 0 ∧ 32 ≤ bytes.length) := fun ⟨hc, hk⟩ => hfail ⟨hc, by omega⟩
  have hcode : chunkCode c bytes.length ≠ 0 := fun h => hshort (chunkCode_eq_zero.1 h)
  rw [readChunk_of_start he hp hcall hs hread, if_neg hcode, chunkCode_of_failed hshort]

theorem failureErr_ne_zero (c : StoreCode) : (if c = 0 then (19 : Byte) else BitVec.ofNat 8 c.val) ≠ 0 := by
  split
  · decide
  · exact fun h => ‹¬ c = 0› (storeErr_eq_zero.1 h)

/-- The first byte of a chunk just pulled is the one given (44_disk_transfer.md R99). -/
theorem readResult_of_pulled (he : s.err = 0) (hp : s.cnt.toNat % 32 = 0) {buf : Vector Byte 512}
    (hbuf : s.buf = putBytes buf 0 bytes) (hlen : bytes.length = 32) : readResult s = bytes.getD 0 0 := by
  rw [readResult_of_ok he (p := 0) hp.symm, hbuf, getElem_putBytes]
  exact if_pos (by simp [hlen])

end

/-- Settles O37: with an error latched neither the start nor the chunk does anything, and the result is 0x00. -/
theorem readWithErrorLatchedGivesZero : Obligations.ReadWithErrorLatchedGivesZero := by
  intro s hs he
  have hchunk : readChunk s = { s with trace := s.trace ++ [] } := by rw [readChunk_of_err he, List.append_nil]
  exact execRdsect_of_steps (readSteps_of_start (transferStart_of_started (.inr he)) hs hchunk) hs hs rfl rfl
    (readResult_of_err he)

/-- Settles O38: neither a seek nor a chunk is due, and the result is the buffer's byte. -/
theorem readInsideChunkServesTheBuffer : Obligations.ReadInsideChunkServesTheBuffer := by
  intro s p hs he hp hin
  have hstart := transferStart_of_started (.inl (cnt_ne_zero_of_pos (s := s) (by omega)))
  have hchunk : readChunk s = { s with trace := s.trace ++ [] } := by
    rw [readChunk_of_inside (by omega), List.append_nil]
  exact execRdsect_of_steps (readSteps_of_start hstart hs hchunk) hs hs rfl rfl (readResult_of_ok he hp)

/-- Settles O39: no seek is due, and the read of a chunk returns, whole or not. -/
theorem readChunkStartPullsStorage : Obligations.ReadChunkStartPullsStorage := by
  intro s c bytes b hs he hc hp hread
  have hns := notStuck_of_call hs
  have hstart := transferStart_of_started (.inl hc)
  refine ⟨fun hok hlen => ?_, fun hfail => ?_⟩
  · have hchunk := readChunk_of_pulled he hp rfl hs hread hok hlen
    rw [← putBytes_chunk s.buf hlen]
    exact execRdsect_of_steps
      (u := { s with buf := putBytes s.buf 0 bytes, env := { s.call.env with bs := b } })
      (readSteps_of_start hstart hns hchunk) hns hs rfl rfl (readResult_of_pulled he hp rfl hlen)
  · have hchunk := readChunk_of_failed he hp rfl hs hread hfail
    exact execRdsect_of_steps
      (u := { s with
        err := if c = 0 then 19 else BitVec.ofNat 8 c.val, env := { s.call.env with bs := b } })
      (readSteps_of_start hstart hns hchunk) hns hs rfl rfl (readResult_of_err (failureErr_ne_zero c))

/-- Settles O40: in range the start is a seek, and with code 0 the first chunk is pulled, whole or not; with another
code, and out of range, the start leaves an error and no chunk is pulled. -/
theorem readStartSeeksThenPulls : Obligations.ReadStartSeeksThenPulls := by
  intro s hs hc he
  have hns := notStuck_of_responsive hs
  have hcall {u : State} (hu : u.Responsive) : u.call.env = u.env := congrArg State.env (call_of_responsive hu)
  have hp : s.cnt.toNat % 32 = 0 := by simp [hc]
  have hnext : s.cnt + 1 = 1 := by rw [hc]; rfl
  have hlast : ¬ 511 ≤ s.cnt.toNat := by simp [hc]
  refine ⟨fun c c' bytes b b' ht hsec hseek hread => ?_, fun ha => ?_⟩
  · have hstart := transferStart_of_legal hc he ht hsec (call_notStuck_of_responsive hs) hseek
    rw [hcall hs] at hstart
    refine ⟨fun hne => ?_, fun h0 hok hlen => ?_, fun h0 hfail => ?_⟩
    · have hcode : storeErr c ≠ 0 := fun h => hne (storeErr_eq_zero.1 h)
      have hexec := execRdsect_of_steps (u := { s with err := storeErr c, env := { s.env with bs := b } })
        (readSteps_of_start hstart hns (readChunk_of_err hcode)) hns hns rfl rfl (readResult_of_err hcode)
      rwa [hnext, if_neg hlast] at hexec
    · rw [storeErr_eq_zero.2 h0, ← he] at hstart
      have hchunk := readSteps_of_start hstart hns (readChunk_of_pulled
        (s := (s.withBs b).emit (.bsSeek _ (some c))) he hp (hcall hs) hns hread hok hlen)
      rw [emit_trace, List.append_assoc] at hchunk
      have hexec := execRdsect_of_steps
        (u := { s with buf := putBytes s.buf 0 bytes, env := { s.env with bs := b' } })
        hchunk hns hns rfl rfl (readResult_of_pulled he hp rfl hlen)
      rwa [hnext, if_neg hlast, putBytes_chunk s.buf hlen] at hexec
    · rw [storeErr_eq_zero.2 h0, ← he] at hstart
      have hchunk := readSteps_of_start hstart hns (readChunk_of_failed
        (s := (s.withBs b).emit (.bsSeek _ (some c))) he hp (hcall hs) hns hread hfail)
      rw [emit_trace, List.append_assoc] at hchunk
      have hexec := execRdsect_of_steps
        (u := { s with
          err := if c' = 0 then 19 else BitVec.ofNat 8 c'.val, env := { s.env with bs := b' } })
        hchunk hns hns rfl rfl (readResult_of_err (failureErr_ne_zero c'))
      rwa [hnext, if_neg hlast] at hexec
  · have hcode := illegalErr_ne_zero s.sec
    have hstart := transferStart_of_illegal hc he ha
    have hchunk := readSteps_of_start hstart hns (readChunk_of_err hcode)
    rw [← List.append_nil s.trace] at hchunk
    have hexec := execRdsect_of_steps (u := { s with err := if 32 ≤ s.sec.toNat then 18 else 17 }) (events := [])
      hchunk hns hns rfl rfl (readResult_of_err hcode)
    rwa [hnext, if_neg hlast] at hexec

end Sys2Proof.Machine
end

section
/-! Proofs of the statements of 44_disk_transfer.md, second part: what a WRTSCT exchange stores (44_disk_transfer.md
R98, 20_memory.md R42). -/

namespace Sys2Proof.Machine

section
/-! The bytes of a chunk. -/

theorem getElem?_chunkBytes (buf : Vector Byte 512) {i : Nat} (hi : i < 32) : (chunkBytes buf)[i]? = buf[i]? := by
  simp [chunkBytes, Board.chunk, hi]

/-- The chunk that a byte fills: the bytes buffered before it, and that byte (44_disk_transfer.md R98). -/
theorem getElem?_filledChunk (buf : Vector Byte 512) (d : Byte) {i : Nat} (hi : i < 32) :
    (chunkBytes (buf.set 31 d))[i]? = if i = 31 then some d else buf[i]? := by
  rw [getElem?_chunkBytes _ hi, Vector.getElem?_set]
  simp [eq_comm]

end

section
/-! What a WRTSCT exchange leaves in storage. -/

variable {P : BlockStore → Prop} {s t : State} {d : Byte}

/-- An Execute-Write of an engine that is not stuck leaves the Environment of its handler (40_bus_engine.md R66). -/
theorem runWrite_env {h : State → State} (he : runWrite h s = .next t) (hs : s.NotStuck) : t.env = (h s).env := by
  rcases runWrite_cases h s with ⟨hstuck, _⟩ | ⟨_, _, e⟩ | ⟨_, _, e⟩
  · exact absurd hstuck hs
  · cases he.symm.trans e
    rfl
  · cases he.symm.trans e
    rfl

/-- After its byte a write makes no storage call but the finalize (44_disk_transfer.md R98). -/
theorem storage_writeSector_of_byte (hP : KeptByCalls P) (h : P ((transferStart s).andThen (writeByte d)).env.bs) :
    P (writeSector d s).env.bs := by
  unfold writeSector
  split
  · exact storage_andThen (storage_andThen h (storage_finalizeSector hP)) id
  · exact storage_andThen h id

theorem writeByte_env_of_notFull (h : ¬ (s.err = 0 ∧ s.cnt.toNat % 32 = 31)) : (writeByte d s).env = s.env := by
  rcases writeByte_cases d s with ⟨_, e⟩ | ⟨_, _, e⟩ | ⟨he, hp, _⟩
  · rw [e]
  · rw [e]
  · exact absurd ⟨he, hp⟩ h

/-- Unless it fills a chunk with no error latched, a byte makes no storage call but the seek (44_disk_transfer.md R94,
R98). -/
theorem storage_writeByte_of_notFull (hP : KeptByCalls P) (h : ¬ (s.err = 0 ∧ s.cnt.toNat % 32 = 31))
    (hs : P s.env.bs) : P ((transferStart s).andThen (writeByte d)).env.bs := by
  refine storage_andThen (storage_transferStart hP hs) fun hb => ?_
  have hstart : ¬ ((transferStart s).err = 0 ∧ (transferStart s).cnt.toNat % 32 = 31) := by
    rintro ⟨he, hp⟩
    rw [(transferStart_seq s).2.1] at hp
    rw [transferStart_of_started (.inl (cnt_ne_zero_of_pos (by omega)))] at he
    exact h ⟨he, hp⟩
  rwa [writeByte_env_of_notFull hstart]

/-- The byte that fills a chunk stores it (44_disk_transfer.md R98). -/
theorem storage_writeByte_of_full (he : s.err = 0) (hp : s.cnt.toNat % 32 = 31) (hs : s.call.NotStuck) {c : StoreCode}
    {k : Nat} {b : BlockStore} (hw : s.env.bs.write (chunkBytes (s.buf.set 31 d)) = ((c, k), b)) :
    ((transferStart s).andThen (writeByte d)).env.bs = b := by
  have hpos : 0 < s.cnt.toNat := by omega
  rw [transferStart_of_started (.inl (cnt_ne_zero_of_pos hpos)), andThen_of_notStuck (notStuck_of_call hs),
    writeByte_of_full hp he hs hw]

end

/-- Settles O59: the byte that fills a chunk with no error latched stores the chunk, as BS.write stores it; any other
makes no call that changes a file, and neither does what follows the byte. -/
theorem sectorWriteStoresOnlyTheChunk : Obligations.SectorWriteStoresOnlyTheChunk := by
  intro s t d r hbs hr hs he name a
  rw [runWrite_env he (notStuck_of_call hs)]
  refine storage_writeSector_of_byte (keptByCalls_holdsByte name a _) ?_
  by_cases hfull : s.err = 0 ∧ s.cnt.toNat % 32 = 31
  · obtain ⟨herr, hp⟩ := hfull
    have hwrite : s.env.bs.write (chunkBytes (s.buf.set 31 d)) =
        ((r.write (chunkBytes (s.buf.set 31 d))).1, .reference (r.write (chunkBytes (s.buf.set 31 d))).2) := by
      rw [hbs, BlockStore.write]
    rw [storage_writeByte_of_full herr hp hs hwrite, hbs, HoldsByte, BlockStore.fileByte_write hr, length_chunkBytes]
    refine ite_congr (by simp [herr, hp]) (fun ⟨_, hle, hlt, _⟩ => ?_) fun _ => rfl
    rw [List.getD_eq_getElem?_getD, getElem?_filledChunk s.buf d (by omega)]
    split
    · rfl
    · rw [List.getD_eq_getElem?_getD, Vector.getElem?_toList]
  · rw [if_neg fun h => hfull ⟨h.1, h.2.1⟩]
    exact storage_writeByte_of_notFull (keptByCalls_holdsByte name a _) hfull rfl

end Sys2Proof.Machine
end

section
/-! Proofs of the statements of 44_disk_transfer.md, third part: a sector written is read back (44_disk_transfer.md
R100). An open image under the calls of the reference BlockStore; the invariant of the 512 exchanges of a write and of a
read, kept by each exchange as the statements about one exchange say; and the two sequences, by induction over the
exchanges. -/

namespace Sys2Proof.Machine

/-- The reference BlockStore in canonical form, with the file of that name and length open at a position (20_memory.md
R42). -/
def BlockStore.OpenAt (name : FileName) (len pos : Nat) (b : BlockStore) : Prop :=
  ∃ (r : RefStore) (f : DiskFile), b = .reference r ∧ r.wf = true ∧ r.cur = some name ∧ r.file name = some f ∧
    f.length = len ∧ r.pos = pos

section
/-! The calls with a file open, inside the file (20_memory.md R42). -/

variable {name : FileName} {len pos : Nat} {b : BlockStore}

theorem BlockStore.OpenAt.seek (h : b.OpenAt name len pos) {blk : Nat} (hblk : 512 * blk ≤ len) :
    ∃ b', b.seek blk = (0, b') ∧ b'.OpenAt name len (512 * blk) ∧ ∀ m a, b'.fileByte m a = b.fileByte m a := by
  obtain ⟨r, f, rfl, hr, hc, hf, hlen, _⟩ := h
  have hseek := RefStore.seek_of_open hc hf blk
  have hwf := RefStore.wf_seek hr blk
  rw [hseek] at hwf
  refine ⟨_, by rw [BlockStore.seek, hseek], ⟨_, f, rfl, hwf, hc, hf, hlen, ?_⟩, fun m a => ?_⟩
  · change min (blk * 512) f.length = 512 * blk
    omega
  · exact BlockStore.fileByte_of_files rfl m a

theorem BlockStore.OpenAt.read (h : b.OpenAt name len pos) {n : Nat} (hn : pos + n ≤ len) :
    ∃ b' bytes, b.read n = ((0, bytes), b') ∧ bytes.length = n ∧
      (∀ k < n, bytes[k]? = b.fileByte name (pos + k)) ∧ b'.OpenAt name len (pos + n) ∧
      ∀ m a, b'.fileByte m a = b.fileByte m a := by
  obtain ⟨r, f, rfl, hr, hc, hf, hlen, rfl⟩ := h
  have hread := RefStore.read_of_open hc hf n
  have hwf := RefStore.wf_read hr n
  have hmin : min n (f.length - r.pos) = n := by omega
  have hbytes {k : Nat} (hk : k < min n (f.length - r.pos)) := RefStore.getElem?_readBytes hf hk
  rw [hmin] at hread hbytes
  rw [hread] at hwf
  exact ⟨_, _, by rw [BlockStore.read, hread], Memory.length_readBytes _ _ _, fun k hk => hbytes hk,
    ⟨_, f, rfl, hwf, hc, hf, hlen, rfl⟩, fun m a => BlockStore.fileByte_of_files rfl m a⟩

/-- A write leaves the file it writes its name and its length (20_memory.md R42). -/
theorem RefStore.file_write {r : RefStore} {f : DiskFile} (hc : r.cur = some name) (hf : r.file name = some f)
    (v : List Byte) : ∃ g, (r.write v).2.file name = some g ∧ g.length = f.length := by
  have hfiles : (r.write v).2.files = r.setImage name
      (r.curImage.writeBytes r.pos (v.take (min v.length (r.curLength - r.pos)))) := by
    simp [RefStore.write, hc]
  rw [RefStore.file, hfiles, RefStore.find_setImage, hf]
  refine ⟨_, rfl, ?_⟩
  dsimp only
  split <;> rfl

theorem BlockStore.OpenAt.write (h : b.OpenAt name len pos) {v : List Byte} (hv : pos + v.length ≤ len) :
    ∃ b', b.write v = ((0, v.length), b') ∧ b'.OpenAt name len (pos + v.length) ∧
      ∀ m a, b'.fileByte m a =
        if m = name ∧ pos ≤ a ∧ a < pos + v.length then v[a - pos]? else b.fileByte m a := by
  obtain ⟨r, f, rfl, hr, hc, hf, hlen, rfl⟩ := h
  have hwrite := RefStore.write_of_open hc hf v
  obtain ⟨g, hg, hglen⟩ := RefStore.file_write hc hf v
  have hbytes := BlockStore.fileByte_write_of_open hr hc hf v
  have hmin : min v.length (f.length - r.pos) = v.length := by omega
  rw [hmin] at hwrite hbytes
  refine ⟨.reference (r.write v).2, by rw [BlockStore.write, hwrite], ?_, hbytes⟩
  refine ⟨_, g, rfl, RefStore.wf_write hr v, ?_, hg, hglen.trans hlen, ?_⟩
  · rw [hwrite, hc]
  · rw [hwrite]

theorem BlockStore.OpenAt.finalize (h : b.OpenAt name len pos) : b.finalize = (0, b) := by
  obtain ⟨r, _, rfl, _, hc, _⟩ := h
  rw [BlockStore.finalize, RefStore.finalize_of_open hc]

end

/-- The offset of the selected sector in its file (20_memory.md R47, R37). -/
def State.sectorStart (s : State) : Nat := 512 * (32 * s.trk.toNat + s.sec.toNat)

/-- A transfer is about to start (44_disk_transfer.md R94): the address is in range, no error is latched, and the sector
lies inside the open file. -/
structure SectorReady (name : FileName) (len : Nat) (s : State) : Prop where
  responsive : s.Responsive
  cnt : s.cnt = 0
  err : s.err = 0
  trk : s.trk.toNat < 512
  sec : s.sec.toNat < 32
  opened : ∃ pos, s.env.bs.OpenAt name len pos
  room : s.sectorStart + 512 ≤ len

/-- A write of `bytes` to the sector selected in `s₀`, after `n` exchanges: the chunks filled are in the file, and the
bytes since then in the buffer (44_disk_transfer.md R98). -/
structure SectorWriting (name : FileName) (len : Nat) (bytes : List Byte) (s₀ : State) (n : Nat) (s : State) :
    Prop where
  responsive : s.Responsive
  cfg : s.cfg = s₀.cfg
  trk : s.trk = s₀.trk
  sec : s.sec = s₀.sec
  err : s.err = 0
  cnt : s.cnt.toNat = n
  opened : s.env.bs.OpenAt name len (s₀.sectorStart + 32 * (n / 32))
  stored : ∀ m a, s.env.bs.fileByte m a =
    if m = name ∧ s₀.sectorStart ≤ a ∧ a < s₀.sectorStart + 32 * (n / 32) then bytes[a - s₀.sectorStart]?
    else s₀.env.bs.fileByte m a
  buffered : ∀ k < n % 32, s.buf[k]? = bytes[32 * (n / 32) + k]?
  ended : n = 512 → s.opc = s₀.cfg.op.nop

/-- A read of the sector selected in `s₀`, which holds `bytes`, after `n` exchanges: the chunk being served is in the
buffer (44_disk_transfer.md R99). -/
structure SectorReading (name : FileName) (len : Nat) (bytes : List Byte) (s₀ : State) (n : Nat) (s : State) :
    Prop where
  responsive : s.Responsive
  cfg : s.cfg = s₀.cfg
  err : s.err = 0
  cnt : s.cnt.toNat = n
  opened : s.env.bs.OpenAt name len (s₀.sectorStart + 32 * ((n + 31) / 32))
  filed : ∀ k < 512, s.env.bs.fileByte name (s₀.sectorStart + k) = bytes[k]?
  buffered : n % 32 ≠ 0 → ∀ k < 32, s.buf[k]? = bytes[32 * (n / 32) + k]?
  ended : n = 512 → s.opc = s₀.cfg.op.nop

section
/-! Each exchange of a write keeps the invariant. -/

variable {name : FileName} {len n : Nat} {bytes : List Byte} {s₀ s : State} {d : Byte}

/-- The seek of a transfer finds the sector (44_disk_transfer.md R94). -/
theorem SectorReady.seek (h : SectorReady name len s) :
    ∃ b, s.env.bs.seek (32 * s.trk.toNat + s.sec.toNat) = (0, b) ∧ b.OpenAt name len s.sectorStart ∧
      ∀ m a, b.fileByte m a = s.env.bs.fileByte m a := by
  obtain ⟨pos, hopen⟩ := h.opened
  exact hopen.seek ((Nat.le_add_right _ 512).trans h.room)

/-- The first exchange of a write (44_disk_transfer.md R94, R98). -/
theorem SectorReady.write_first (h : SectorReady name len s) (hd : bytes[0]? = some d) :
    ∃ t, exec (.wrtsct d) s = .next t ∧ SectorWriting name len bytes s 1 t := by
  obtain ⟨b, hseek, hopen, hfiles⟩ := h.seek
  have hcall := call_of_responsive h.responsive
  have hns := call_notStuck_of_responsive h.responsive
  have hexec := (writeStartSeeksOrRejects s d h.cnt h.err).1 0 b h.trk h.sec hseek hns
  rw [hcall] at hexec
  refine ⟨_, hexec, ⟨h.responsive, rfl, rfl, rfl, rfl, rfl, hopen, fun m a => ?_, fun k hk => ?_, fun h => by omega⟩⟩
  · refine (hfiles m a).trans (if_neg ?_).symm
    rintro ⟨_, hle, hlt⟩
    omega
  · obtain rfl : k = 0 := by omega
    simp [hd]

/-- The chunk that the next byte fills is stored after those before it (44_disk_transfer.md R98). -/
theorem SectorWriting.write_filled (h : SectorWriting name len bytes s₀ n s) (hn : n < 512) (hfull : n % 32 = 31)
    (hroom : s₀.sectorStart + 512 ≤ len) (hd : bytes[n]? = some d) :
    ∃ b, s.env.bs.write (chunkBytes (s.buf.set 31 d)) = ((0, 32), b) ∧
      b.OpenAt name len (s₀.sectorStart + 32 * ((n + 1) / 32)) ∧
      ∀ m a, b.fileByte m a =
        if m = name ∧ s₀.sectorStart ≤ a ∧ a < s₀.sectorStart + 32 * ((n + 1) / 32) then bytes[a - s₀.sectorStart]?
        else s₀.env.bs.fileByte m a := by
  obtain ⟨b, hwrite, hopen, hbytes⟩ := h.opened.write (v := chunkBytes (s.buf.set 31 d)) (by
    rw [length_chunkBytes]
    omega)
  rw [length_chunkBytes] at hwrite hopen hbytes
  have hnext : s₀.sectorStart + 32 * (n / 32) + 32 = s₀.sectorStart + 32 * ((n + 1) / 32) := by omega
  rw [hnext] at hopen hbytes
  have hchunk : ∀ k < 32, (chunkBytes (s.buf.set 31 d))[k]? = bytes[32 * (n / 32) + k]? := by
    intro k hk
    rw [getElem?_filledChunk _ _ hk]
    split
    · rw [← hd]
      congr 1
      omega
    · exact h.buffered k (by omega)
  refine ⟨b, hwrite, hopen, fun m a => ?_⟩
  rw [hbytes, h.stored]
  by_cases hin : m = name ∧ s₀.sectorStart + 32 * (n / 32) ≤ a ∧ a < s₀.sectorStart + 32 * ((n + 1) / 32)
  · obtain ⟨hm, hle, hlt⟩ := hin
    rw [if_pos ⟨hm, hle, hlt⟩, if_pos ⟨hm, by omega, hlt⟩, hchunk _ (by omega)]
    congr 1
    omega
  · rw [if_neg hin]
    refine if_congr (and_congr_right fun hm => ?_) rfl rfl
    have hout : ¬ (s₀.sectorStart + 32 * (n / 32) ≤ a ∧ a < s₀.sectorStart + 32 * ((n + 1) / 32)) :=
      fun h => hin ⟨hm, h⟩
    omega

/-- A byte inside a chunk (44_disk_transfer.md R98). -/
theorem SectorWriting.next_inside (h : SectorWriting name len bytes s₀ n s) (hpos : 0 < n) (hn : n < 512)
    (hin : n % 32 ≠ 31) (hd : bytes[n]? = some d) :
    ∃ t, exec (.wrtsct d) s = .next t ∧ SectorWriting name len bytes s₀ (n + 1) t := by
  have hcnt := h.cnt
  have hcnt' : (s.cnt + 1).toNat = n + 1 := by bv_omega
  have hplace : (chunkPos s.cnt).val = n % 32 := by rw [chunkPos_val, hcnt]
  have hsame : (n + 1) / 32 = n / 32 := by omega
  have hexec := writeInsideChunkOnlyBuffers s d (chunkPos s.cnt) (notStuck_of_responsive h.responsive) h.err
    (cnt_ne_zero_of_pos (by omega)) (by omega) rfl (by rwa [hplace])
  refine ⟨_, hexec, ⟨h.responsive, h.cfg, h.trk, h.sec, h.err, hcnt', ?_, ?_, fun k hk => ?_, fun h => by omega⟩⟩
  · rw [hsame]
    exact h.opened
  · rw [hsame]
    exact h.stored
  · rw [hsame]
    change (s.buf.set (chunkPos s.cnt).val d)[k]? = _
    rw [Vector.getElem?_set, hplace]
    by_cases hk' : n % 32 = k
    · rw [if_pos hk', ← hk', Nat.div_add_mod, hd]
    · rw [if_neg hk']
      exact h.buffered k (by omega)

/-- A byte that fills a chunk but the last (44_disk_transfer.md R98). -/
theorem SectorWriting.next_full (h : SectorWriting name len bytes s₀ n s) (hn : n < 511) (hfull : n % 32 = 31)
    (hroom : s₀.sectorStart + 512 ≤ len) (hd : bytes[n]? = some d) :
    ∃ t, exec (.wrtsct d) s = .next t ∧ SectorWriting name len bytes s₀ (n + 1) t := by
  obtain ⟨b, hwrite, hopen, hstored⟩ := h.write_filled (by omega) hfull hroom hd
  have hcall := call_of_responsive h.responsive
  have hns := call_notStuck_of_responsive h.responsive
  have hcnt := h.cnt
  have hcnt' : (s.cnt + 1).toNat = n + 1 := by bv_omega
  have hexec := writeFullChunkIsFlushed s d 0 32 b hns h.err (by omega) (by omega) hwrite
  rw [hcall] at hexec
  exact ⟨_, hexec, ⟨h.responsive, h.cfg, h.trk, h.sec, rfl, hcnt', hopen, hstored, fun k hk => by omega,
    fun h => by omega⟩⟩

/-- The last byte fills the last chunk and ends the sequence (44_disk_transfer.md R96, R98). -/
theorem SectorWriting.next_last (h : SectorWriting name len bytes s₀ 511 s) (hroom : s₀.sectorStart + 512 ≤ len)
    (hd : bytes[511]? = some d) :
    ∃ t, exec (.wrtsct d) s = .next t ∧ SectorWriting name len bytes s₀ 512 t := by
  obtain ⟨b, hwrite, hopen, hstored⟩ := h.write_filled (by decide) (by decide) hroom hd
  have hexec := (writeEndFinalizesAndDisarms s d 0 32 b h.responsive h.err h.cnt hwrite).1 rfl le_rfl
  rw [hopen.finalize] at hexec
  exact ⟨_, hexec, ⟨h.responsive, h.cfg, h.trk, h.sec, rfl, rfl, hopen, hstored, fun k hk => by omega,
    fun _ => congrArg (fun p => p.op.nop) h.cfg⟩⟩

/-- Each exchange of a write after the first (44_disk_transfer.md R98). -/
theorem SectorWriting.next (h : SectorWriting name len bytes s₀ n s) (hpos : 0 < n) (hn : n < 512)
    (hroom : s₀.sectorStart + 512 ≤ len) (hd : bytes[n]? = some d) :
    ∃ t, exec (.wrtsct d) s = .next t ∧ SectorWriting name len bytes s₀ (n + 1) t := by
  by_cases hfull : n % 32 = 31
  · by_cases hlast : n = 511
    · subst hlast
      exact h.next_last hroom hd
    · exact h.next_full (by omega) hfull hroom hd
  · exact h.next_inside hpos hn hfull hd

/-- The exchanges of a write that are left (44_disk_transfer.md R96). -/
theorem SectorWriting.rest (h : SectorWriting name len bytes s₀ n s) (hpos : 0 < n) (hroom : s₀.sectorStart + 512 ≤ len)
    {rest : List Byte} (hrest : bytes.drop n = rest) (hn : n + rest.length = 512) :
    ∃ t, execAll (rest.map Instr.wrtsct) s = .next t ∧ SectorWriting name len bytes s₀ 512 t := by
  induction rest generalizing n s with
  | nil => exact ⟨s, rfl, hn ▸ h⟩
  | cons d rest ih =>
    rw [List.length_cons] at hn
    have hd : bytes[n]? = some d := by rw [← Nat.add_zero n, ← List.getElem?_drop, hrest, List.getElem?_cons_zero]
    obtain ⟨t, hexec, ht⟩ := h.next hpos (by omega) hroom hd
    obtain ⟨u, hrun, hu⟩ := ih ht (by omega) (by rw [← List.tail_drop, hrest, List.tail_cons]) (by omega)
    exact ⟨u, by rw [List.map_cons, execAll, hexec]; exact hrun, hu⟩

/-- The 512 exchanges of a write (44_disk_transfer.md R96, R100). -/
theorem SectorReady.write (h : SectorReady name len s) (hlen : bytes.length = 512) :
    ∃ t, execAll (bytes.map Instr.wrtsct) s = .next t ∧ SectorWriting name len bytes s 512 t := by
  cases hbytes : bytes with
  | nil => simp [hbytes] at hlen
  | cons d rest =>
    have hrest : 1 + rest.length = 512 := by
      rw [hbytes, List.length_cons] at hlen
      omega
    obtain ⟨t, hexec, ht⟩ := h.write_first (bytes := d :: rest) rfl
    obtain ⟨u, hrun, hu⟩ := ht.rest Nat.one_pos h.room (rest := rest) rfl hrest
    exact ⟨u, by rw [List.map_cons, execAll, hexec]; exact hrun, hu⟩

end

section
/-! Each exchange of a read keeps the invariant and gives the next byte. -/

variable {name : FileName} {len n : Nat} {bytes : List Byte} {s₀ s : State}

/-- The first 32 bytes of a buffer that has taken a full chunk (44_disk_transfer.md R99). -/
theorem getElem?_putBytes_chunk (buf : Vector Byte 512) {chunk : List Byte} (hlen : chunk.length = 32) {k : Nat}
    (hk : k < 32) : (putBytes buf 0 chunk)[k]? = chunk[k]? := by
  have hget := getElem_putBytes buf 0 chunk ⟨k, by omega⟩
  rw [if_pos (by simp [hlen, hk])] at hget
  rw [Vector.getElem?_eq_getElem (by omega), hget, List.getD_eq_getElem _ _ (by simpa [hlen]),
    List.getElem?_eq_getElem (by simpa [hlen])]
  rfl

/-- The chunk at the position of a read is the sector's next (44_disk_transfer.md R99). -/
theorem read_nextChunk {b : BlockStore} (hopen : b.OpenAt name len (s₀.sectorStart + n)) (hn : n + 32 ≤ 512)
    (hroom : s₀.sectorStart + 512 ≤ len) (hfiled : ∀ k < 512, b.fileByte name (s₀.sectorStart + k) = bytes[k]?) :
    ∃ b' chunk, b.read 32 = ((0, chunk), b') ∧ chunk.length = 32 ∧ (∀ k < 32, chunk[k]? = bytes[n + k]?) ∧
      bytes[n]? = some (chunk.getD 0 0) ∧ b'.OpenAt name len (s₀.sectorStart + (n + 32)) ∧
      ∀ k < 512, b'.fileByte name (s₀.sectorStart + k) = bytes[k]? := by
  obtain ⟨b', chunk, hread, hlen, hchunk, hopen', hsame⟩ := hopen.read (n := 32) (by omega)
  have hnext : ∀ k < 32, chunk[k]? = bytes[n + k]? := by
    intro k hk
    rw [hchunk k hk, Nat.add_assoc]
    exact hfiled (n + k) (by omega)
  have hfirst : bytes[n]? = some (chunk.getD 0 0) := by
    have h0 : 0 < chunk.length := by omega
    rw [List.getD_eq_getElem _ _ h0, ← List.getElem?_eq_getElem h0, hnext 0 (by decide), Nat.add_zero]
  exact ⟨b', chunk, hread, hlen, hnext, hfirst, hopen', fun k hk => (hsame _ _).trans (hfiled k hk)⟩

/-- The first exchange of a read (44_disk_transfer.md R94, R99). -/
theorem SectorReady.read_first (h : SectorReady name len s)
    (hfiled : ∀ k < 512, s.env.bs.fileByte name (s.sectorStart + k) = bytes[k]?) :
    ∃ t, exec .rdsect s = .next t ∧ bytes[0]? = some t.busOut ∧ SectorReading name len bytes s 1 t := by
  obtain ⟨b, hseek, hopen, hsame⟩ := h.seek
  obtain ⟨b', chunk, hread, hlen, hchunk, hfirst, hopen, hfiled⟩ := read_nextChunk (s₀ := s) (n := 0) hopen (by omega)
    h.room fun k hk => (hsame _ _).trans (hfiled k hk)
  have hexec := ((readStartSeeksThenPulls s h.responsive h.cnt h.err).1 0 0 chunk b b' h.trk h.sec hseek hread).2.1
    rfl rfl hlen
  rw [← putBytes_chunk s.buf hlen] at hexec
  refine ⟨_, hexec, hfirst, ⟨h.responsive, rfl, h.err, rfl, hopen, hfiled, fun _ k hk => ?_, fun h => by omega⟩⟩
  exact (getElem?_putBytes_chunk s.buf hlen hk).trans (hchunk k hk)

theorem SectorReading.opc_of_last (h : SectorReading name len bytes s₀ n s) (hlast : n + 1 = 512) :
    (if 511 ≤ s.cnt.toNat then s.cfg.op.nop else opcAfterRead s) = s₀.cfg.op.nop := by
  have hcnt := h.cnt
  rw [if_pos (by omega), h.cfg]

/-- A later chunk start (44_disk_transfer.md R99). -/
theorem SectorReading.next_chunk (h : SectorReading name len bytes s₀ n s) (hpos : 0 < n) (hn : n < 512)
    (hstart : n % 32 = 0) (hroom : s₀.sectorStart + 512 ≤ len) :
    ∃ t, exec .rdsect s = .next t ∧ bytes[n]? = some t.busOut ∧ SectorReading name len bytes s₀ (n + 1) t := by
  have hcall := call_of_responsive h.responsive
  have hns := call_notStuck_of_responsive h.responsive
  have hcnt := h.cnt
  have hcnt' : (s.cnt + 1).toNat = n + 1 := by bv_omega
  have hbefore : 32 * ((n + 31) / 32) = n := by omega
  have hafter : 32 * ((n + 1 + 31) / 32) = n + 32 := by omega
  have hserved : 32 * ((n + 1) / 32) = n := by omega
  obtain ⟨b, chunk, hread, hlen, hchunk, hfirst, hopen, hfiled⟩ :=
    read_nextChunk (n := n) (hbefore ▸ h.opened) (by omega) hroom h.filed
  have hexec := (readChunkStartPullsStorage s 0 chunk b hns h.err (cnt_ne_zero_of_pos (by omega)) (by omega) hread).1
    rfl hlen
  rw [← putBytes_chunk s.buf hlen, hcall] at hexec
  refine ⟨_, hexec, hfirst, ⟨h.responsive, h.cfg, h.err, hcnt', ?_, hfiled, fun _ k hk => ?_, h.opc_of_last⟩⟩
  · rw [hafter]
    exact hopen
  · rw [hserved]
    exact (getElem?_putBytes_chunk s.buf hlen hk).trans (hchunk k hk)

/-- An exchange inside a chunk (44_disk_transfer.md R99). -/
theorem SectorReading.next_inside (h : SectorReading name len bytes s₀ n s) (hn : n < 512) (hin : n % 32 ≠ 0) :
    ∃ t, exec .rdsect s = .next t ∧ bytes[n]? = some t.busOut ∧ SectorReading name len bytes s₀ (n + 1) t := by
  have hcnt := h.cnt
  have hcnt' : (s.cnt + 1).toNat = n + 1 := by bv_omega
  have hpulled : (n + 1 + 31) / 32 = (n + 31) / 32 := by omega
  have hexec := readInsideChunkServesTheBuffer s (chunkPos s.cnt) (notStuck_of_responsive h.responsive) h.err rfl
    (by rwa [chunkPos_val, hcnt])
  refine ⟨_, hexec, ?_, ⟨h.responsive, h.cfg, h.err, hcnt', ?_, h.filed, fun hin' k hk => ?_, h.opc_of_last⟩⟩
  · have hbyte := h.buffered hin (n % 32) (by omega)
    rw [Nat.div_add_mod] at hbyte
    rw [← hbyte, ← hcnt]
    exact Vector.getElem?_eq_getElem (chunkPos s.cnt).isLt
  · rw [hpulled]
    exact h.opened
  · have hsame : (n + 1) / 32 = n / 32 := by omega
    rw [hsame]
    exact h.buffered hin k hk

/-- Each exchange of a read after the first (44_disk_transfer.md R99). -/
theorem SectorReading.next (h : SectorReading name len bytes s₀ n s) (hpos : 0 < n) (hn : n < 512)
    (hroom : s₀.sectorStart + 512 ≤ len) :
    ∃ t, exec .rdsect s = .next t ∧ bytes[n]? = some t.busOut ∧ SectorReading name len bytes s₀ (n + 1) t := by
  by_cases hstart : n % 32 = 0
  · exact h.next_chunk hpos hn hstart hroom
  · exact h.next_inside hn hstart

theorem readAll_succ {t v : State} {m : Nat} {l : List Byte} (he : exec .rdsect s = .next t)
    (ht : readAll m t = some (l, v)) : readAll (m + 1) s = some (t.busOut :: l, v) := by
  simp [readAll, he, ht]

theorem drop_eq_cons_of_getElem? {x : Byte} (h : bytes[n]? = some x) : bytes.drop n = x :: bytes.drop (n + 1) := by
  rw [List.drop_eq_getElem?_toList_append, h]
  rfl

/-- The exchanges of a read that are left (44_disk_transfer.md R96). -/
theorem SectorReading.rest (h : SectorReading name len bytes s₀ n s) (hpos : 0 < n) (hroom : s₀.sectorStart + 512 ≤ len)
    (hlen : bytes.length = 512) {m : Nat} (hm : n + m = 512) :
    ∃ v, readAll m s = some (bytes.drop n, v) ∧ SectorReading name len bytes s₀ 512 v := by
  induction m generalizing n s with
  | zero => exact ⟨s, by rw [readAll, List.drop_eq_nil_of_le (by omega)], hm ▸ h⟩
  | succ m ih =>
    obtain ⟨t, hexec, hbyte, ht⟩ := h.next hpos (by omega) hroom
    obtain ⟨v, hrun, hv⟩ := ih ht (by omega) (by omega)
    exact ⟨v, by rw [readAll_succ hexec hrun, drop_eq_cons_of_getElem? hbyte], hv⟩

/-- The 512 exchanges of a read (44_disk_transfer.md R96, R100). -/
theorem SectorReady.read (h : SectorReady name len s) (hlen : bytes.length = 512)
    (hfiled : ∀ k < 512, s.env.bs.fileByte name (s.sectorStart + k) = bytes[k]?) :
    ∃ v, readAll 512 s = some (bytes, v) ∧ SectorReading name len bytes s 512 v := by
  obtain ⟨t, hexec, hbyte, ht⟩ := h.read_first hfiled
  obtain ⟨v, hrun, hv⟩ := ht.rest Nat.one_pos h.room hlen (m := 511) rfl
  refine ⟨v, ?_, hv⟩
  rw [readAll_succ hexec hrun, ← drop_eq_cons_of_getElem? hbyte, List.drop_zero]

end

theorem exec_store {s : State} (hs : s.NotStuck) (d : Byte) :
    exec (.store d) s = .next (released { s with opc := d, cnt := 0 } [.waitReset]) := (storeArmsTheOpcode s d).2 hs

/-- Settles O41: the Store makes ready a write, whose 512 exchanges keep the invariant, so that all 16 chunks are in the
file; the second Store makes ready a read of what the file then holds. -/
theorem sectorRoundTripReturnsTheBytes : Obligations.SectorRoundTripReturnsTheBytes := by
  intro s r name f bytes _ hs hbs hr hc hf hflen ht hsec he hlen
  have hroom : s.sectorStart + 512 ≤ 8388608 := by
    unfold State.sectorStart
    omega
  have hready : SectorReady name 8388608 (released { s with opc := s.cfg.op.wrtsct, cnt := 0 } [.waitReset]) :=
    ⟨hs, rfl, he, ht, hsec, ⟨r.pos, r, f, hbs, hr, hc, hf, hflen, rfl⟩, hroom⟩
  obtain ⟨t, hwrite, hw⟩ := hready.write hlen
  have hstored : ∀ m a, t.env.bs.fileByte m a =
      if m = name ∧ s.sectorStart ≤ a ∧ a < s.sectorStart + 512 then bytes[a - s.sectorStart]?
      else s.env.bs.fileByte m a := hw.stored
  have hfiled : ∀ k < 512, t.env.bs.fileByte name (s.sectorStart + k) = bytes[k]? := by
    intro k hk
    rw [hstored, if_pos ⟨rfl, by omega, by omega⟩, Nat.add_sub_cancel_left]
  have hstart : t.sectorStart = s.sectorStart := by
    rw [State.sectorStart, hw.trk, hw.sec]
    rfl
  have hready' : SectorReady name 8388608 (released { t with opc := s.cfg.op.rdsect, cnt := 0 } [.waitReset]) :=
    ⟨hw.responsive, rfl, hw.err, hw.trk ▸ ht, hw.sec ▸ hsec, ⟨_, hw.opened⟩, hstart ▸ hroom⟩
  obtain ⟨v, hread, hv⟩ := hready'.read hlen (hstart ▸ hfiled)
  refine ⟨t, _, v, ?_, hw.err, hw.ended rfl, hfiled, fun m a hout => (hstored m a).trans (if_neg hout),
    exec_store (notStuck_of_responsive hw.responsive) _, hread, hv.err, (hv.ended rfl).trans ?_⟩
  · rw [execAll, exec_store (notStuck_of_responsive hs)]
    exact hwrite
  · exact congrArg (fun p => p.op.nop) hw.cfg

end Sys2Proof.Machine
end

section
/-! Proofs of the statements of 45_datetime_status_irq.md: the seven bytes of a DATETIME sequence (R101), the status
byte (R102), and the read of the tick bit (R103). -/

namespace Sys2Proof.Machine

section
/-! H_DATETIME: the refresh due on the first byte only, and the exchange once the refresh is known. -/

variable {s u : State}

/-- A refresh that returns: the clock's fields, the feed moved on, and the one event (45_datetime_status_irq.md R101). -/
theorem startDatetime_of_first (hc : s.cnt = 0) (hs : s.call.NotStuck) {rtc : Rtc} {f : Feed Rtc}
    (hf : s.env.rtcIn.next Config.rtcFields = (rtc, f)) :
    startDatetime s = { s with env := { s.call.env with rtc := rtc, rtcIn := f } }.emit .rtcRefresh := by
  rw [startDatetime, if_pos hc, rtcRefresh, ask_of_returns (s := s.emit .rtcRefresh) hs, hf]
  rfl

theorem startDatetime_of_later (hc : s.cnt ≠ 0) : startDatetime s = s := if_neg hc

/-- H_DATETIME before the sequence's end, after a refresh step that led to `u`: the field `cnt` of `u`'s clock, the
exchange counted, and the sequence ended by the seventh (45_datetime_status_irq.md R101). -/
theorem readDatetime_of_start (hlt : s.cnt.toNat < 7) (hstart : startDatetime s = u) (hu : u.call.NotStuck) :
    readDatetime s =
      (BitVec.ofNat 8 (u.env.rtc.field s.cnt.toNat),
        { u.call with cnt := s.cnt + 1, opc := if s.cnt.toNat + 1 = 7 then s.cfg.op.nop else s.opc }) := by
  rw [readDatetime, if_pos hlt, hstart, andThen_of_notStuck (notStuck_of_call hu), rtcField_of_returns hu,
    andThen_of_notStuck hu]
  rfl

theorem readDatetime_of_ended (hge : 7 ≤ s.cnt.toNat) : readDatetime s = (0, { s with opc := s.cfg.op.nop }) :=
  if_neg (Nat.not_lt.2 hge)

/-- An ended sequence stays ended in the reset after dispatch (41_dispatcher.md R76). -/
theorem opcAfterRead_nop (ho : u.opc = u.cfg.op.nop) : opcAfterRead u = u.cfg.op.nop := by
  rw [opcAfterRead, ho, ite_self]

/-- A DATETIME exchange before the sequence's end whose refresh step emits `events` and otherwise leads to `u`: the
byte given, the exchange counted, the opcode reset (45_datetime_status_irq.md R101, 41_dispatcher.md R76,
40_bus_engine.md R71). -/
theorem execDatetime_of_start {events : List Event} (hlt : s.cnt.toNat < 7)
    (hstart : startDatetime s = { u with trace := u.trace ++ events }) (hs : s.NotStuck) (hu : u.call.NotStuck)
    (hc : u.cfg = s.cfg) (ho : u.opc = s.opc) :
    exec .datetime s =
      .next (readReleased
        { u.call with cnt := s.cnt + 1, opc := if s.cnt.toNat = 6 then s.cfg.op.nop else opcAfterRead s }
        (BitVec.ofNat 8 (u.env.rtc.field s.cnt.toNat)) events) := by
  refine (runRead_of_eq (readDatetime_of_start hlt hstart hu) hs hu).trans (congrArg Host.Outcome.next ?_)
  by_cases h : s.cnt.toNat = 6
  · simp [readReleased, opcAfterRead, h, hc, State.call]
  · simp [readReleased, opcAfterRead, h, hc, ho, State.call]

/-- The fields after the seconds, as R101 numbers them. -/
theorem eq_field_of_mem {r : Rtc} {k v : Nat}
    (h : (k, v) ∈ [(1, r.minutes), (2, r.hours), (3, r.day), (4, r.month), (5, r.year), (6, r.temperature)]) :
    (0 < k ∧ k < 7) ∧ v = r.field k := by
  simp only [List.mem_cons, Prod.mk.injEq, List.not_mem_nil, or_false] at h
  rcases h with ⟨rfl, rfl⟩ | ⟨rfl, rfl⟩ | ⟨rfl, rfl⟩ | ⟨rfl, rfl⟩ | ⟨rfl, rfl⟩ | ⟨rfl, rfl⟩ <;>
    exact ⟨by decide, rfl⟩

end

/-- The mask takes bit 1 out of the draw, and the shifted tick bit is all that stands there
(45_datetime_status_irq.md R103). -/
theorem getLsbD_irqStatus (x : Byte) (tick : Bool) {k : Nat} (hk : k < 8) :
    (irqStatus x tick).getLsbD k = if k = 1 then tick else x.getLsbD k := by
  have hmask : ((0xFD : Nat) : Byte).getLsbD k = !decide (k = 1) := by
    revert k
    decide
  have htick : ((BitVec.ofBool tick).setWidth 8 <<< 1).getLsbD k = (decide (k = 1) && tick) := by
    revert k
    cases tick <;> decide
  rw [irqStatus, BitVec.getLsbD_or, BitVec.getLsbD_and, hmask, htick]
  by_cases h : k = 1 <;> simp [h]

/-- Settles O42: the key is in READ_DISPATCH; the refresh and the field reads return, and the field read is the one cnt
numbers; from 7 on there is no field. -/
theorem datetimeGivesSevenBytes : Obligations.DatetimeGivesSevenBytes := by
  refine fun s rtc f hf => ⟨fun hp d => ?_, fun first hs => ?_, fun k v hv hk hs => ?_, fun ended hs => ?_⟩
  · exact decodeWord_readEntry hp (by simp [readTable]) d
  · have hcall := notStuck_of_call hs
    refine (execDatetime_of_start (u := { s with env := { s.call.env with rtc := rtc, rtcIn := f } }) (by simp [first])
      (startDatetime_of_first first hcall hf) (notStuck_of_call hcall) hs rfl rfl).trans ?_
    simp [first, Rtc.field, State.call]
  · obtain ⟨⟨hpos, hlt⟩, rfl⟩ := eq_field_of_mem hv
    subst hk
    have hstart : startDatetime s = { s with trace := s.trace ++ [] } := by
      rw [startDatetime_of_later (cnt_ne_zero_of_pos hpos), List.append_nil]
    exact execDatetime_of_start hlt hstart (notStuck_of_call hs) hs rfl rfl
  · refine (runRead_of_eq (readDatetime_of_ended ended) hs hs).trans ?_
    rw [opcAfterRead_nop rfl]

/-- Settles O44: the key is in READ_DISPATCH; the handler draws and clears the tick bit, and its byte has that bit in
bit 1 and the draw's elsewhere. -/
theorem irqStatusReadClearsTheTickBit : Obligations.IrqStatusReadClearsTheTickBit := by
  refine fun s x f hx => ⟨fun hp d => decodeWord_readEntry hp (by simp [readTable]) d, fun hs => ?_⟩
  have hread : readIrqStatus s =
      (irqStatus x s.irqTick, { s with irqTick := false, env := { s.env with irqBits := f } }) := by
    rw [readIrqStatus, drawIrqBits, hx]
  refine ⟨irqStatus x s.irqTick, ?_, fun k hk hne => ?_, runRead_of_eq hread hs hs⟩
  · rw [getLsbD_irqStatus x _ (by decide), if_pos rfl]
  · rw [getLsbD_irqStatus x _ hk, if_neg hne]

/-- Settles O43: the key is in READ_DISPATCH, and the handler gives the function's value and keeps the state. -/
theorem statusReadHasNoSideEffect : Obligations.StatusReadHasNoSideEffect := by
  refine fun s => ⟨fun hp d => decodeWord_readEntry hp (by simp [readTable]) d, fun hs => ?_⟩
  exact runRead_of_notStuck (h := fun s => (Config.statusFn s.collaborators, s)) hs hs

end Sys2Proof.Machine
end

section
/-! Proofs of the statements of 60_exceptions.md, first part: the tick at the end of a pass (60_exceptions.md R109, R110),
and the run of a Host program, stuck in a call or not (60_exceptions.md R116, 70_reset_and_hazards.md R130). -/

namespace Sys2Proof.Machine

/-! The end of a pass in which now() returns. -/

theorem tickDue_iff {now lastTick : Nat} {tickIv : Byte} :
    tickDue now lastTick tickIv = true ↔ tickIv.toNat < now - lastTick := decide_eq_true_iff

/-- With the tick enabled and a now() that returns, the end of a pass fires the tick past the interval, and otherwise
only the Environment's time moves on (60_exceptions.md R109). -/
theorem endPass_of_timeRead {s : State} {δ : Nat} {f : Feed Nat} (hs : s.call.NotStuck) (hE : s.tickEn = true)
    (hnext : s.env.timeIn.next Config.timeStep = (δ, f)) {env : Env}
    (henv : env = { s.call.env with clock := s.env.clock + δ, timeIn := f, moment := s.env.moment + 1 }) :
    endPass s =
      if s.tickIv.toNat < s.env.clock + δ - s.lastTick then
        { s with
          env := env, lastTick := s.env.clock + δ, intOut := true, irqTick := true, trace := s.trace ++ [.int true] }
      else { s with env := env } := by
  subst henv
  rcases endPass_cases s with ⟨h, _⟩ | ⟨_, h, _⟩ | ⟨_, _, h, _⟩ | ⟨_, _, now, f', hnow, hf', e⟩
  · exact absurd h (notStuck_of_call hs)
  · rw [hE] at h
    cases h
  · exact absurd h hs
  · rw [hnext] at hnow hf'
    subst hnow hf'
    simp only [e, tickDue_iff]

/-- Settles O12: with the tick enabled the time read decides whether the tick fires, with it disabled the pass is only
counted, and a pass with neither a move nor a transaction is its end alone. -/
theorem tickFiresPastTheInterval : Obligations.TickFiresPastTheInterval := by
  refine ⟨fun s δ f hs hE hnext => ?_, fun s => endPass_of_tickDisabled, fun s => step_of_noMove⟩
  have hend := endPass_of_timeRead hs hE hnext rfl
  exact ⟨fun due => hend.trans (if_pos due), fun early => hend.trans (if_neg (Nat.not_lt.2 early))⟩

/-! What a stuck engine and its Host do. -/

/-- A transaction stuck in a call has run no more than its handler (60_exceptions.md R116). -/
theorem exec_quiet_of_stuck {i : Instr} {s t : State} (he : exec i s = .next t) (ht : t.env.liveness = .stalled) :
    Quiet s t := by
  rcases exec_shape i s with ⟨w, hq, _, e⟩ | ⟨_, _, w, _, hw, e⟩ | ⟨_, _, w, v, _, hw, e⟩ <;> cases he.symm.trans e
  · exact hq
  · exact absurd ht hw
  · exact absurd ht hw

theorem runEnded_eq_false_iff {s : State} :
    s.runEnded = false ↔ s.lines.wait = true ∨ ∃ tw, .start tw ∈ s.host := by
  have hmove (m : HostMove) : m ≠ .idle ↔ ∃ tw, m = .start tw := by cases m <;> simp
  rw [← Bool.not_eq_true, runEnded_iff, not_and_or, or_comm]
  simp [hmove]

/-- The Host's turn neither ends a run nor undoes its end: a transaction it starts is not released yet
(70_reset_and_hazards.md R130). -/
theorem hostTurn_runEnded (s : State) : (hostTurn s).runEnded = s.runEnded := by
  cases hw : s.lines.wait with
  | true => rw [hostTurn_of_parked hw]
  | false =>
    match hh : s.host with
    | [] => rw [hostTurn_of_noMove hw hh]
    | .idle :: rest => simp [hostTurn_of_idle hw hh, State.runEnded, State.allIssued, hh]
    | .start tw :: rest => simp [hostTurn_of_start hw hh, State.runEnded, State.allIssued, hh, linesOf]

/-- A stuck engine handles nothing, whether a transaction is pending or not (60_exceptions.md R116). -/
theorem handle_of_stuck {s : State} (h : s.env.liveness = .stalled) : handle s = .next s := by
  rw [handle, exec_of_stuck h, ite_self]

/-- A stuck engine never ends a run that has not ended (60_exceptions.md R116, 70_reset_and_hazards.md R130). -/
theorem observeRun_of_stuck {s : State} (hs : s.env.liveness = .stalled) (he : s.runEnded = false) (n : Nat) :
    observeRun n s = none := by
  induction n generalizing s with
  | zero => simp [observeRun, he]
  | succ n ih =>
    have hturn : (hostTurn s).env.liveness = .stalled := by rw [hostTurn_env, hs]
    have hgoes : (hostTurn s).runEnded = false := (hostTurn_runEnded s).trans he
    rw [observeRun_succ he (handle_of_stuck hturn), hgoes, endPass_of_stuck hturn]
    exact ih hturn hgoes

/-- The first pass of a run from a parked Host is the pending transaction (70_reset_and_hazards.md R122, R130). -/
theorem observeRun_succ_of_parked {s t : State} (hw : s.lines.wait = true)
    (ht : exec (decodeWord s.cfg (sampleWord s)) s = .next t) (n : Nat) :
    observeRun (n + 1) s = if t.runEnded then some t.observation else observeRun n (endPass t) :=
  observeRun_succ (runEnded_of_parked hw) (by rw [hostTurn_of_parked hw, handle, if_pos hw, ht]) n

/-- A Host whose transaction gets stuck is parked for good, and its run has no end (60_exceptions.md R116). -/
theorem observeRun_of_stuckTransaction {s t : State} (hw : s.lines.wait = true)
    (ht : exec (decodeWord s.cfg (sampleWord s)) s = .next t) (hstuck : t.env.liveness = .stalled) (n : Nat) :
    observeRun n s = none := by
  have hparked : t.runEnded = false := runEnded_of_parked (by rw [(exec_quiet_of_stuck ht hstuck).lines, hw])
  cases n with
  | zero => simp [observeRun, runEnded_of_parked hw]
  | succ n =>
    rw [observeRun_succ_of_parked hw ht, hparked, endPass_of_stuck hstuck]
    exact observeRun_of_stuck hstuck hparked n

/-! The run of a Host whose collaborators all answer. -/

theorem endPass_responsive {s : State} (h : s.Responsive) : (endPass s).Responsive := by
  have hcall : s.call.env.liveness = .returns := by rw [call_of_responsive h, h]
  rcases endPass_cases s with ⟨_, e⟩ | ⟨_, _, e⟩ | ⟨_, _, _, e⟩ | ⟨_, _, _, _, _, _, e⟩ <;> rw [e]
  case inr.inr.inr => split <;> exact hcall
  · exact h
  · exact h
  · exact hcall

/-- Before its tick check a pass has released the Host and kept its list (40_bus_engine.md R62, R72). -/
theorem handle_of_responsive {s : State} (hs : s.Responsive) :
    ∃ u, handle s = .next u ∧ u.Responsive ∧ u.lines.wait = false ∧ u.host = s.host := by
  rcases handle_cases s with ⟨hw, e⟩ | ⟨_, u, hu, e⟩
  · exact ⟨s, e, hs, hw, rfl⟩
  · obtain ⟨t, ht, hres, hfree⟩ := everyTransactionCompletes _ s hs
    obtain rfl : u = t := by cases hu.symm.trans ht; rfl
    exact ⟨u, e, hres, hfree, exec_keeps (f := .host) hu id⟩

/-- One pass takes a responsive run on to a released Host, or to its end. -/
theorem observeRun_succ_of_responsive {s : State} (hs : s.Responsive) {n : Nat}
    (rest : ∀ u : State, u.Responsive → u.lines.wait = false → u.host = (hostTurn s).host →
      ∃ o, observeRun n u = some o) :
    ∃ o, observeRun (n + 1) s = some o := by
  cases he : s.runEnded with
  | true => exact ⟨_, observeRun_of_ended he _⟩
  | false =>
    have hturn : (hostTurn s).Responsive := by rw [State.Responsive, hostTurn_env, hs]
    obtain ⟨u, hu, hres, hfree, hhost⟩ := handle_of_responsive hturn
    rw [observeRun_succ he hu]
    split
    · exact ⟨_, rfl⟩
    · obtain ⟨hlines, hlist⟩ := endPass_keeps u
      exact rest _ (endPass_responsive hres) (by rw [hlines, hfree]) (hlist.trans hhost)

theorem hostTurn_host {s : State} (hw : s.lines.wait = false) {m : HostMove} {rest : List HostMove}
    (hh : s.host = m :: rest) : (hostTurn s).host = rest := by
  cases m with
  | idle => rw [hostTurn_of_idle hw hh]
  | start tw => rw [hostTurn_of_start hw hh]

/-- A Host that is not parked has one move taken in each pass, so that its run ends within the length of its list. -/
theorem observeRun_of_released (moves : List HostMove) {s : State} (hs : s.Responsive) (hw : s.lines.wait = false)
    (hh : s.host = moves) : ∃ o, observeRun moves.length s = some o := by
  induction moves generalizing s with
  | nil => exact ⟨_, observeRun_of_ended ((runEnded_iff s).2 ⟨by simp [hh], hw⟩) _⟩
  | cons m rest ih =>
    exact observeRun_succ_of_responsive hs fun u hu hfree hlist => ih hu hfree (hlist.trans (hostTurn_host hw hh))

/-- A longer look at a run that has ended shows the same observation. -/
theorem observeRun_le {m n : Nat} {s : State} {o : Observation} (h : observeRun m s = some o) (hmn : m ≤ n) :
    observeRun n s = some o := Nat.le_induction h (fun _ _ => observeRun_mono) n hmn

/-- Where every call returns the run ends, within one pass more than the length of the Host's list
(70_reset_and_hazards.md R130). -/
theorem observeRun_of_responsive {s : State} (hs : s.Responsive) :
    ∃ o, ∀ n, s.host.length < n → observeRun n s = some o := by
  suffices ∃ o, observeRun (s.host.length + 1) s = some o by
    obtain ⟨o, ho⟩ := this
    exact ⟨o, fun n hn => observeRun_le ho hn⟩
  cases hw : s.lines.wait with
  | true =>
    refine observeRun_succ_of_responsive hs fun u hu hfree hlist => observeRun_of_released s.host hu hfree ?_
    rw [hlist, hostTurn_of_parked hw]
  | false =>
    obtain ⟨o, ho⟩ := observeRun_of_released s.host hs hw rfl
    exact ⟨o, observeRun_mono ho⟩

/-- The run of a list whose last transaction is pending ends with that transaction's release, before the tick check
(70_reset_and_hazards.md R130, log 17). -/
theorem observeRun_of_lastTransaction {s t : State} (hw : s.lines.wait = true) (hlast : ∀ m ∈ s.host, m = .idle)
    (ht : exec (decodeWord s.cfg (sampleWord s)) s = .next t) (hn : t.NotStuck) (n : Nat) :
    observeRun (n + 1) s = some t.observation := by
  obtain ⟨hfree, _⟩ := everyTransactionReleasesTheHostOnce _ s t ht hn
  have hhost : t.host = s.host := exec_keeps (f := .host) ht id
  rw [observeRun_succ_of_parked hw ht, if_pos ((runEnded_iff t).2 ⟨by rwa [hhost], hfree⟩)]

/-- Settles O46: a stuck engine makes no move but the Host's, so that a run which has not ended when it gets stuck never
ends; where every call returns each pass takes a move off the Host's list and releases the Host. -/
theorem stalledCallStopsTheEngine : Obligations.StalledCallStopsTheEngine := by
  refine ⟨fun i s h => exec_of_stuck h i, fun s h hw => ?_, fun s tw rest h hw hh => ?_, fun s h hw =>
    ⟨fun rest hh => ?_, fun hh => ?_⟩, fun i s t he ht => ?_, fun n s h hwaits => ?_,
    fun n s t hw ht hstuck => observeRun_of_stuckTransaction hw ht hstuck n, fun s => observeRun_of_responsive,
    fun n s t hw hlast ht hn => observeRun_of_lastTransaction hw hlast ht hn n⟩
  · rw [step_of_stuck h, hostTurn_of_parked hw]
  · rw [step_of_stuck h, hostTurn_of_start hw hh, linesOf]
  · rw [step_of_stuck h, hostTurn_of_idle hw hh]
  · rw [step_of_stuck h, hostTurn_of_noMove hw hh]
  · have hq := exec_quiet_of_stuck he ht
    exact ⟨hq.lines, hq.busReq, hq.busDir, hq.busOut, hq.host, hq.trace⟩
  · exact observeRun_of_stuck h (runEnded_eq_false_iff.2 hwaits) n

end Sys2Proof.Machine
end

section
/-! Proofs of the statements of 60_exceptions.md, second part: where each call that does not return leaves the engine
(60_exceptions.md R116, log 8). The call leaves `stalledAt`, and what a handler would do after it does not happen. -/

namespace Sys2Proof.Machine

/-! The calls, the next of which does not return. -/

section

variable {s u : State}

theorem call_of_stallsNext (h : s.env.liveness = .stallsAfter 0) : s.call = stalledAt s [] := by
  simp [State.call, stalledAt, h]

theorem stalledAt_emit (s : State) (e : Event) (events : List Event) :
    stalledAt (s.emit e) events = stalledAt s (e :: events) := by
  simp [stalledAt, State.emit]

theorem stalledAt_append (s : State) (es events : List Event) :
    stalledAt { s with trace := s.trace ++ es } events = stalledAt s (es ++ events) := by
  simp [stalledAt]

theorem send_of_stallsNext (h : s.env.liveness = .stallsAfter 0) (e : Event) : s.send e = stalledAt s [e] := by
  rw [State.send, call_of_stallsNext h]
  simp [stalledAt, State.emit]

theorem ask_of_stallsNext {α : Type} (h : s.env.liveness = .stallsAfter 0) (a : α) (f : Env → Env) :
    s.ask a f = (none, stalledAt s []) := by
  rw [ask_of_stalls (stallsNext h).2, call_of_stallsNext h]

theorem askStore_of_stallsNext {α : Type} (h : s.env.liveness = .stallsAfter 0) (r : α × BlockStore)
    (e : Option α → Event) : s.askStore r e = (none, stalledAt s [e none]) := by
  rw [askStore_of_stalls (stallsNext h).2, ← send_of_stallsNext h, State.send]

/-- The collaborator has received the payload of a delivery that does not return (log 8). -/
theorem deliver_of_stallsNext (h : s.env.liveness = .stallsAfter 0) (e : Event) (f : Devices → Devices) :
    s.deliver e f = stalledAt { s with env := { s.env with devices := f s.env.devices } } [e] :=
  send_of_stallsNext (s := { s with env := { s.env with devices := f s.env.devices } }) h e

theorem notStuck_of_stallsAfter {n : Nat} (h : s.env.liveness = .stallsAfter n) : s.NotStuck := by
  simp [State.NotStuck, h]

theorem andThen_stalledAt (s : State) (events : List Event) (f : State → State) :
    (stalledAt s events).andThen f = stalledAt s events := andThen_of_stuck rfl f

/-- An Execute-Write stands where a call of its handler has not returned (60_exceptions.md R116). -/
theorem runWrite_of_stalledAt {h : State → State} {events : List Event} (hs : s.NotStuck)
    (hh : h s = stalledAt u events) : runWrite h s = .next (stalledAt u events) := by
  rw [runWrite_of_stuck hs (by rw [hh]; rfl), hh]

/-- An Execute-Read stands where a call of its handler has not returned (60_exceptions.md R116). -/
theorem runRead_of_stalledAt {h : State → Byte × State} {events : List Event} (hs : s.NotStuck)
    (hh : (h s).2 = stalledAt u events) : runRead h s = .next (stalledAt u events) := by
  rw [runRead_of_stuck hs (by rw [hh]; rfl), hh]

end

section
/-! The single-exchange opcodes, SERRX, DATETIME and now(). -/

variable {s u : State}

theorem readGpio_of_stallsNext (hp : s.cfg.gpioPresent = true) (h : s.env.liveness = .stallsAfter 0) (r : GpioReg) :
    (readGpio r s).2 = stalledAt s [.gpioRd r] := by
  rw [readGpio, if_pos hp, gpioRead, ask_of_stallsNext (s := s.emit (.gpioRd r)) h, stalledAt_emit]

theorem execSerrx_of_stallsNext (h : s.env.liveness = .stallsAfter 0) : execSerrx s = .next (stalledAt s []) := by
  rw [execSerrx, andThen_of_notStuck (notStuck_of_stallsAfter h), serialPoll, ask_of_stallsNext h, andThen_stalledAt]

/-- The refresh of a DATETIME sequence does not return (45_datetime_status_irq.md R101). -/
theorem readDatetime_of_stalledRefresh (hc : s.cnt = 0) (h : s.env.liveness = .stallsAfter 0) :
    (readDatetime s).2 = stalledAt s [.rtcRefresh] := by
  have hstart : startDatetime s = stalledAt s [.rtcRefresh] := by
    rw [startDatetime, if_pos hc, rtcRefresh, ask_of_stallsNext (s := s.emit .rtcRefresh) h, stalledAt_emit]
  rw [readDatetime, if_pos (by simp [hc]), hstart, andThen_stalledAt, andThen_stalledAt]

/-- A field read does not return, after a refresh step that led to `u` (45_datetime_status_irq.md R101). -/
theorem readDatetime_of_stalledField (hlt : s.cnt.toNat < 7) (hstart : startDatetime s = u)
    (h : u.env.liveness = .stallsAfter 0) : (readDatetime s).2 = stalledAt u [] := by
  rw [readDatetime, if_pos hlt, hstart, andThen_of_notStuck (notStuck_of_stallsAfter h), rtcField_snd,
    call_of_stallsNext h, andThen_stalledAt]

/-- A now() that does not return leaves the pass counted and nothing else done (60_exceptions.md R109, R116). -/
theorem endPass_of_stallsNext (h : s.env.liveness = .stallsAfter 0) (hE : s.tickEn = true) :
    endPass s = stalledAt { s with env := { s.env with moment := s.env.moment + 1 } } [] := by
  rw [endPass, andThen_of_notStuck (notStuck_of_stallsAfter h), tickCheck, if_pos hE, readTime,
    ask_of_stallsNext (s := { s with env := { s.env with moment := s.env.moment + 1 } }) h]

end

/-- Settles O47: each handler makes one call, the one that does not return; DATETIME's first exchange makes two, of
which either may be that one. -/
theorem stalledSingleCallKeepsTheState : Obligations.StalledSingleCallKeepsTheState := by
  refine ⟨fun s h => ?_, fun s rtc f h first hf => ?_⟩
  · have hs := notStuck_of_stallsAfter h
    refine ⟨fun d => ⟨?_, ?_, ?_⟩, fun d b hb => ?_, fun present r d => ⟨?_, ?_⟩, execSerrx_of_stallsNext h,
      fun first => ?_, fun hpos hlt => ?_, endPass_of_stallsNext h⟩
    · exact runWrite_of_stalledAt (h := lightLed d) hs (deliver_of_stallsNext h _ _)
    · exact runWrite_of_stalledAt (h := sendSerial d) hs (deliver_of_stallsNext h _ _)
    · exact runWrite_of_stalledAt (h := driveSpeaker d) hs (deliver_of_stallsNext h _ _)
    · exact runWrite_of_stalledAt hs
        ((selectBank_of_legal hb s).trans (send_of_stallsNext (s := { s with bank := b }) h _))
    · exact runWrite_of_stalledAt hs ((writeGpio_of_present present r d).trans (deliver_of_stallsNext h _ _))
    · exact runRead_of_stalledAt hs (readGpio_of_stallsNext present h r)
    · exact runRead_of_stalledAt hs (readDatetime_of_stalledRefresh first h)
    · exact runRead_of_stalledAt hs
        (readDatetime_of_stalledField hlt (startDatetime_of_later (cnt_ne_zero_of_pos hpos)) h)
  · have hcall : s.call.env.liveness = .stallsAfter 0 := by simp [h]
    have hstart := startDatetime_of_first first (notStuck_of_stallsAfter hcall) hf
    refine runRead_of_stalledAt (notStuck_of_stallsAfter h) ?_
    rw [readDatetime_of_stalledField (by simp [first]) hstart hcall, stalledAt_emit]
    rfl

end Sys2Proof.Machine
end

section
/-! Proofs of the statements of 60_exceptions.md, last part: where a storage call that does not return leaves the engine
(60_exceptions.md R116, 44_disk_transfer.md R94, R98, R99, log 8). -/

namespace Sys2Proof.Machine

section
/-! The steps of the disk handlers, each with its one call, which does not return. -/

variable {s u : State} {d : Byte}

theorem selectDisk_of_stallsNext (hd : d.toNat ≤ 99) (h : s.env.liveness = .stallsAfter 0) :
    selectDisk d s = stalledAt { s with dsk := d } [.bsOpen (diskName s.cfg.diskSet d) none] := by
  rw [selectDisk, if_pos hd, bsOpen, askStore_of_stallsNext (s := { s with dsk := d }) h, recordCode_none]

theorem transferStart_of_stallsNext (hc : s.cnt = 0) (he : s.err = 0) (ht : s.trk.toNat < 512)
    (hsec : s.sec.toNat < 32) (h : s.env.liveness = .stallsAfter 0) :
    transferStart s = stalledAt s [.bsSeek (32 * s.trk.toNat + s.sec.toNat) none] := by
  rw [transferStart, if_pos ⟨hc, he⟩, if_pos (addressLegal_iff.2 ⟨ht, hsec⟩), blockIndex_eq hsec, bsSeek,
    askStore_of_stallsNext h, recordCode_none]

/-- The flush of the byte that fills a chunk does not return: the byte is in the buffer (44_disk_transfer.md R98). -/
theorem writeByte_of_stallsNext (he : s.err = 0) (hp : s.cnt.toNat % 32 = 31) (h : s.env.liveness = .stallsAfter 0)
    (d : Byte) :
    writeByte d s =
      stalledAt { s with buf := s.buf.set 31 d } [.bsWrite (chunkBytes (s.buf.set 31 d)) none] := by
  have hset : s.buf.set (chunkPos s.cnt).val d = s.buf.set 31 d := by congr
  have hfull : (chunkPos s.cnt).val = Board.chunk - 1 := hp
  rw [writeByte, if_pos he, takeByte, if_pos hfull, hset, flushChunk, bsWrite,
    askStore_of_stallsNext (s := { s with buf := s.buf.set 31 d }) h]

theorem finalizeSector_of_stallsNext (he : s.err = 0) (h : s.env.liveness = .stallsAfter 0) :
    finalizeSector s = stalledAt s [.bsFinalize none] := by
  rw [finalizeSector, if_pos he, bsFinalize, askStore_of_stallsNext h, recordCode_none]

theorem readChunk_of_stallsNext (he : s.err = 0) (hp : s.cnt.toNat % 32 = 0) (h : s.env.liveness = .stallsAfter 0) :
    readChunk s = stalledAt s [.bsRead 32 none] := by
  rw [readChunk, if_pos ⟨he, hp⟩, fillChunk, bsRead, Board.chunk, askStore_of_stallsNext h]

/-! The exchanges of a sector transfer stand where a step of theirs is stuck. -/

/-- The finalize does not follow a byte whose flush has not returned (44_disk_transfer.md R98). -/
theorem writeSteps_of_stalledByte {events : List Event}
    (hu : (transferStart s).andThen (writeByte d) = stalledAt u events) : writeSteps d s = stalledAt u events := by
  rw [writeSteps, hu, andThen_stalledAt, ite_self]

theorem execWrtsct_of_stalledSteps {events : List Event} (hs : s.NotStuck) (hu : writeSteps d s = stalledAt u events) :
    exec (.wrtsct d) s = .next (stalledAt u events) :=
  runWrite_of_stalledAt hs (by rw [writeSector_eq_writeSteps, hu, andThen_stalledAt])

theorem execRdsect_of_stalledSteps {events : List Event} (hs : s.NotStuck)
    (hu : (transferStart s).andThen readChunk = stalledAt u events) : exec .rdsect s = .next (stalledAt u events) :=
  runRead_of_stalledAt hs (readSector_of_stuck hu rfl)

/-- The first chunk's read does not return: the seek before it has (44_disk_transfer.md R94, R99). -/
theorem readSteps_of_stalledFirstRead (hc : s.cnt = 0) (he : s.err = 0) (ht : s.trk.toNat < 512)
    (hsec : s.sec.toNat < 32) (h : s.env.liveness = .stallsAfter 1) {b : BlockStore}
    (hseek : s.env.bs.seek (32 * s.trk.toNat + s.sec.toNat) = (0, b)) :
    (transferStart s).andThen readChunk =
      stalledAt (s.withBs b) [.bsSeek (32 * s.trk.toNat + s.sec.toNat) (some 0), .bsRead 32 none] := by
  have hcall : s.call.env.liveness = .stallsAfter 0 := by simp [h]
  have hstart := transferStart_of_legal hc he ht hsec (notStuck_of_stallsAfter hcall) hseek
  rw [storeErr_eq_zero.2 rfl, ← he] at hstart
  refine (readSteps_of_start hstart (notStuck_of_stallsAfter hcall)
    (readChunk_of_stallsNext he (by simp [hc]) hcall)).trans ?_
  exact stalledAt_append (s.call.withBs b) [_] _

/-- The finalize after the last chunk does not return: the chunk is written (44_disk_transfer.md R98). -/
theorem writeSteps_of_stalledFinalize (he : s.err = 0) (hlast : s.cnt.toNat = 511)
    (h : s.env.liveness = .stallsAfter 1) {k : Nat} {b : BlockStore} (hk : 32 ≤ k)
    (hw : s.env.bs.write (chunkBytes (s.buf.set 31 d)) = ((0, k), b)) :
    writeSteps d s =
      stalledAt { s with buf := s.buf.set 31 d, env := { s.env with bs := b } }
        [.bsWrite (chunkBytes (s.buf.set 31 d)) (some (0, k)), .bsFinalize none] := by
  have hcall : s.call.env.liveness = .stallsAfter 0 := by simp [h]
  have hbyte := writeByte_of_full (by omega) he (notStuck_of_stallsAfter hcall) hw
  rw [chunkCode_eq_zero.2 ⟨rfl, hk⟩, ← he] at hbyte
  rw [writeSteps_of_last hlast (notStuck_of_stallsAfter h) hbyte (notStuck_of_stallsAfter hcall)]
  refine Eq.trans (finalizeSector_of_stallsNext he hcall) ?_
  exact stalledAt_append { s with buf := s.buf.set 31 d, env := { s.call.env with bs := b } } [_] _

end

/-- Settles O48: the first call of an exchange is its open, its seek, its flush or its read; the second, after one that
returned, is the first chunk's read or the finalize. -/
theorem stalledStorageCallKeepsTheState : Obligations.StalledStorageCallKeepsTheState := by
  refine ⟨fun s h => ?_, fun s h he => ?_⟩
  · have hs := notStuck_of_stallsAfter h
    refine ⟨fun d hd => ?_, fun he hc ht hsec => ?_, fun he hp d => ?_, fun he hc hp => ?_⟩
    · exact runWrite_of_stalledAt hs (selectDisk_of_stallsNext hd h)
    · have hstart := transferStart_of_stallsNext hc he ht hsec h
      refine ⟨fun d => execWrtsct_of_stalledSteps hs (writeSteps_of_stalledByte ?_), execRdsect_of_stalledSteps hs ?_⟩
      · rw [hstart, andThen_stalledAt]
      · rw [hstart, andThen_stalledAt]
    · have hstart := transferStart_of_started (.inl (cnt_ne_zero_of_pos (s := s) (by omega)))
      refine execWrtsct_of_stalledSteps hs (writeSteps_of_stalledByte ?_)
      rw [hstart, andThen_of_notStuck hs]
      exact writeByte_of_stallsNext he hp h d
    · exact execRdsect_of_stalledSteps hs
        (readSteps_of_start (transferStart_of_started (.inl hc)) hs (readChunk_of_stallsNext he hp h))
  · have hs := notStuck_of_stallsAfter h
    refine ⟨fun b hc ht hsec hseek => ?_, fun d k b hlast hk hw => ?_⟩
    · exact execRdsect_of_stalledSteps hs (readSteps_of_stalledFirstRead hc he ht hsec h hseek)
    · exact execWrtsct_of_stalledSteps hs (writeSteps_of_stalledFinalize he hlast h hk hw)

end Sys2Proof.Machine
end

section
/-! Proofs of the statements of 70_reset_and_hazards.md: the engine's fields at entry to the poll loop, and the base of
the invariant that every pass keeps (70_reset_and_hazards.md R119, R120). -/

namespace Sys2Proof.Machine

/-- Settles O1: the record of the entry state writes each field out, with the open values where the spec has them. -/
theorem entryStateOfTheEngine : Obligations.EntryStateOfTheEngine := fun _ =>
  ⟨rfl, rfl, rfl, rfl, rfl, rfl, rfl, rfl, rfl, rfl, rfl, rfl, rfl, rfl, rfl, rfl, rfl, rfl, rfl⟩

/-- The invariant at entry: the counter 0 is inside every sequence, the interval is 100, the last tick is the present
time and the bus is free (70_reset_and_hazards.md R119). -/
theorem entry_inv {e : Entry} (hp : e.cfg.Wf) (hs : e.env.bs.wf = true) : (State.entry e).Inv := by
  obtain ⟨_, hcnt, _, _, htickIv, hlastTick, _, busReleased, busInput, _⟩ := entryStateOfTheEngine e
  have hseq : (State.entry e).CntInSequence := cntInSequence_of_lt_two (by simp [hcnt])
  obtain ⟨cntBound, writeCnt, readCnt, datetimeCnt, trackCnt⟩ := hseq.clauses hp
  exact
    { params := hp, cntBound, writeCnt, readCnt, datetimeCnt, trackCnt, busReleased, busInput
      interval := by simp [htickIv]
      lastTickPast := le_of_eq hlastTick
      storage := hs }

/-- The parameters State.reset names meet 30_encoding.md R56 (log 2). -/
theorem reset_params_wf : Entry.reset.cfg.Wf := by decide

/-- Settles O2: State.reset is the entry state of one entry, whose parameters are legal and whose storage is well
formed. -/
theorem invariantHoldsAtEntry : Obligations.InvariantHoldsAtEntry :=
  ⟨fun _ => entry_inv, entry_inv reset_params_wf reset_storage_wf⟩

end Sys2Proof.Machine
end
